-- ==== Sys2Proof/Word.lean ====
section
/-!
DEFINITION. The two widths the wire carries: bytes and 16-bit words (00_scope R7, 20_memory R67).
Every value is unsigned (R8).
-/

namespace Sys2Proof

/-- One byte of the serial link. -/
abbrev Byte := BitVec 8

/-- A wire field, an ICSP data field, or the PC mirror: 16 bits (00_scope R7, `WORD_BITS`). -/
abbrev Word := BitVec 16

end Sys2Proof
end

