-- ==== Sys2Proof/Syntax.lean ====
section
/-!
DEFINITION. The instructions: one constructor per row of spec/opcode_table.json.
The wire commands carry their argument bytes' values; the data bytes of `w` are taken from the receive
buffer by its meaning, after the arguments, as 43_write_erase R190 says (assumption 11).
-/

namespace Sys2Proof

/-- The wire commands of 30_encoding R81 and the ICSP commands of R95, with the LVP key of R98. -/
inductive Instr where
  /-- Row `s`: enter high-voltage programming mode (R160). -/
  | enterHv
  /-- Row `l`: enter low-voltage programming mode (R162). -/
  | enterLvp
  /-- Row `x`: leave programming mode (R164). -/
  | exit
  /-- Row `r`: read `len` words starting at `addr` (R180). -/
  | read (addr len : Word)
  /-- Row `w`: erase the row at `addr`, load `len` words, start the timed write (R190). -/
  | write (addr len : Word)
  /-- Row `e`: erase the row at `addr` (R192). -/
  | eraseRow (addr : Word)
  /-- Row `b`: bulk-erase the target; `addr` is loaded unread (R194). -/
  | bulkErase (addr : Word)
  /-- Row `unknown`: any command byte that selects no handler (R166, R90). -/
  | unknown (c : Byte)
  /-- Row `ICSP_LOAD_PC` (R130). -/
  | icspLoadPc (w : Word)
  /-- Row `ICSP_READ_DATA_INC` (R131). -/
  | icspReadDataInc
  /-- Row `ICSP_LOAD_DATA_INC` (R132). -/
  | icspLoadDataInc (w : Word)
  /-- Row `ICSP_LOAD_DATA` (R133). -/
  | icspLoadData (w : Word)
  /-- Row `ICSP_BEGIN_PROG` (R134). -/
  | icspBeginProg
  /-- Row `ICSP_ROW_ERASE` (R135). -/
  | icspRowErase
  /-- Row `ICSP_BULK_ERASE` (R136). -/
  | icspBulkErase
  /-- Row `LVP_KEY`: the 32-bit key alone (R123). -/
  | lvpKey
  deriving DecidableEq, Repr

/-- Whether the instruction is a wire command (a byte of the host) rather than an ICSP command (bits on
the pins). -/
def Instr.isWire : Instr → Bool
  | .enterHv => true
  | .enterLvp => true
  | .exit => true
  | .read _ _ => true
  | .write _ _ => true
  | .eraseRow _ => true
  | .bulkErase _ => true
  | .unknown _ => true
  | .icspLoadPc _ => false
  | .icspReadDataInc => false
  | .icspLoadDataInc _ => false
  | .icspLoadData _ => false
  | .icspBeginProg => false
  | .icspRowErase => false
  | .icspBulkErase => false
  | .lvpKey => false

end Sys2Proof
end

