-- ==== Sys2Proof/WellFormed.lean ====
section
/-!
DEFINITION. Which instruction terms some encoding stands for.
Every operand fills its field, so the one check is that an `unknown` byte is none of the seven command
bytes of 30_encoding R81.
-/

namespace Sys2Proof

/-- The seven command bytes of 30_encoding R81, in the table's order. -/
def commandBytes : List Byte := [0x73, 0x6C, 0x78, 0x72, 0x77, 0x65, 0x62]

/-- The instruction has an encoding of its own (R90: an unknown byte is none of the seven). -/
def Instr.wellFormed : Instr → Bool
  | .enterHv => true
  | .enterLvp => true
  | .exit => true
  | .read _ _ => true
  | .write _ _ => true
  | .eraseRow _ => true
  | .bulkErase _ => true
  | .unknown c => !commandBytes.contains c
  | .icspLoadPc _ => true
  | .icspReadDataInc => true
  | .icspLoadDataInc _ => true
  | .icspLoadData _ => true
  | .icspBeginProg => true
  | .icspRowErase => true
  | .icspBulkErase => true
  | .lvpKey => true

end Sys2Proof
end

