-- ==== Sys2Proof/Decode.lean ====
section
/-!
DEFINITION. Decoding and encoding (30_encoding): wire frames are bytes, ICSP fields are bits in the order
they are clocked. Both decoders are total and refuse by name; the encoder comes after them.
-/

namespace Sys2Proof

/-! ### Bit fields and byte order (R8, R64, R65) -/

/-- The more significant byte of a word, sent first (20_memory R64). -/
def Word.hi (w : Word) : Byte := w.extractLsb' 8 8

/-- The less significant byte of a word. -/
def Word.lo (w : Word) : Byte := w.extractLsb' 0 8

/-- `b0 ‖ b1`: a received pair of bytes, `b0` in bits 15:8 (20_memory R64, 30_encoding R84). -/
def Word.ofBytes (b0 b1 : Byte) : Word := b0 ++ b1

/-- The `n` low bits of `v`, most significant first (20_memory R65). -/
def bitsMsb {k : Nat} (v : BitVec k) : Nat → List Bool
  | 0 => []
  | n + 1 => v.getLsbD n :: bitsMsb v n

/-- The number whose bits come most significant first, as a value of `k` bits. -/
def ofBitsMsb (k : Nat) (bits : List Bool) : BitVec k :=
  bits.foldl (fun v b => v.shiftConcat b) 0

/-- The words a list of data bytes assembles into, each big-endian (30_encoding R86). -/
def wordsOfBytes : List Byte → List Word
  | b0 :: b1 :: bs => Word.ofBytes b0 b1 :: wordsOfBytes bs
  | _ => []

/-- The bytes a list of words is sent as, each big-endian (30_encoding R86, R87). -/
def bytesOfWords : List Word → List Byte
  | [] => []
  | w :: ws => w.hi :: w.lo :: bytesOfWords ws

/-! ### Wire frames (R81–R93) -/

/-- What a command byte selects (R81, R90). -/
inductive Command where
  | s | l | x | r | w | e | b | unknown
  deriving DecidableEq, Repr

/-- Handler selection over all 8 bits of the byte (R81). -/
def Command.ofByte (c : Byte) : Command :=
  if c = 0x73 then .s
  else if c = 0x6C then .l
  else if c = 0x78 then .x
  else if c = 0x72 then .r
  else if c = 0x77 then .w
  else if c = 0x65 then .e
  else if c = 0x62 then .b
  else .unknown

/-- How many argument bytes follow the command byte (R83, stage 1). -/
def Command.argBytes : Command → Nat
  | .s => 0
  | .l => 0
  | .x => 0
  | .r => 4
  | .w => 4
  | .e => 2
  | .b => 2
  | .unknown => 0

/-- Why a decoder refuses. -/
inductive DecodeError where
  /-- There is no byte, or no bit, to decode. -/
  | empty
  /-- A frame ends before its argument bytes do. -/
  | shortFrame
  /-- A field ends before its command or its payload does. -/
  | shortField
  /-- The 8 command bits are none of the seven ICSP opcodes (R100). -/
  | noIcspOpcode
  /-- A start bit or the stop bit of an output payload is not 0 (R97). -/
  | badFraming
  deriving DecidableEq, Repr

/-- Reads one frame: command byte and argument bytes, leaving the rest (R82, R83). Every byte value
decodes (R93); only a frame that is not all there is refused. -/
def decodeFrame : List Byte → Except DecodeError (Instr × List Byte)
  | [] => .error .empty
  | c :: bs =>
    match Command.ofByte c with
    | .s => .ok (.enterHv, bs)
    | .l => .ok (.enterLvp, bs)
    | .x => .ok (.exit, bs)
    | .r =>
      match bs with
      | a1 :: a0 :: l1 :: l0 :: rest => .ok (.read (Word.ofBytes a1 a0) (Word.ofBytes l1 l0), rest)
      | _ => .error .shortFrame
    | .w =>
      match bs with
      | a1 :: a0 :: l1 :: l0 :: rest => .ok (.write (Word.ofBytes a1 a0) (Word.ofBytes l1 l0), rest)
      | _ => .error .shortFrame
    | .e =>
      match bs with
      | a1 :: a0 :: rest => .ok (.eraseRow (Word.ofBytes a1 a0), rest)
      | _ => .error .shortFrame
    | .b =>
      match bs with
      | a1 :: a0 :: rest => .ok (.bulkErase (Word.ofBytes a1 a0), rest)
      | _ => .error .shortFrame
    | .unknown => .ok (.unknown c, bs)

/-! ### ICSP fields (R95–R100) -/

/-- The 24-bit output payload that carries `w`: 7 start bits 0, the word, 1 stop bit 0 (R97). -/
def payload (w : Word) : BitVec 24 := w.setWidth 24 <<< 1

/-- The LVP key, 'M' 'C' 'H' 'P' (R98). -/
def lvpKeyValue : BitVec 32 := 0x4D434850

/-- The word of an output payload given as 24 bits, first clocked first; the framing bits must be 0. -/
def decodePayload (bits : List Bool) : Except DecodeError Word :=
  if bits.length < 24 then .error .shortField
  else if bits.take 7 = List.replicate 7 false ∧ bits[23]? = some false then
    .ok (ofBitsMsb 16 ((bits.drop 7).take 16))
  else .error .badFraming

/-- An output-payload command, once its opcode is known. -/
def decodeWithPayload (mk : Word → Instr) (bits : List Bool) :
    Except DecodeError (Instr × List Bool) :=
  match decodePayload bits with
  | .ok w => .ok (mk w, bits.drop 24)
  | .error err => .error err

/-- Reads one ICSP field, in the order the bits are clocked: the key, or an 8-bit command and, where it
has one, its output payload (R95). The payload of ICSP_READ_DATA_INC is the target's, so it is no part
of the field. -/
def decodeField (bits : List Bool) : Except DecodeError (Instr × List Bool) :=
  if bits = [] then .error .empty
  else if bits.take 32 = bitsMsb lvpKeyValue 32 then .ok (.lvpKey, bits.drop 32)
  else if bits.length < 8 then .error .shortField
  else
    let op : Byte := ofBitsMsb 8 (bits.take 8)
    let rest := bits.drop 8
    if op = 0x80 then decodeWithPayload .icspLoadPc rest
    else if op = 0xFE then .ok (.icspReadDataInc, rest)
    else if op = 0x02 then decodeWithPayload .icspLoadDataInc rest
    else if op = 0x00 then decodeWithPayload .icspLoadData rest
    else if op = 0xE0 then .ok (.icspBeginProg, rest)
    else if op = 0xF0 then .ok (.icspRowErase, rest)
    else if op = 0x18 then .ok (.icspBulkErase, rest)
    else .error .noIcspOpcode

/-! ### The encoder -/

/-- An encoded instruction: the bytes of a wire frame, or the bits of an ICSP field as clocked. -/
inductive Code where
  | frame (bytes : List Byte)
  | field (bits : List Bool)
  deriving DecidableEq, Repr

/-- The bits of a command field and an output payload (R96, R97). -/
def fieldWithPayload (op : Byte) (w : Word) : List Bool :=
  bitsMsb op 8 ++ (List.replicate 7 false ++ bitsMsb w 16 ++ [false])

/-- The encoding of an instruction (R82, R95–R98). -/
def encode : Instr → Code
  | .enterHv => .frame [0x73]
  | .enterLvp => .frame [0x6C]
  | .exit => .frame [0x78]
  | .read a n => .frame [0x72, a.hi, a.lo, n.hi, n.lo]
  | .write a n => .frame [0x77, a.hi, a.lo, n.hi, n.lo]
  | .eraseRow a => .frame [0x65, a.hi, a.lo]
  | .bulkErase a => .frame [0x62, a.hi, a.lo]
  | .unknown c => .frame [c]
  | .icspLoadPc w => .field (fieldWithPayload 0x80 w)
  | .icspReadDataInc => .field (bitsMsb (0xFE : Byte) 8)
  | .icspLoadDataInc w => .field (fieldWithPayload 0x02 w)
  | .icspLoadData w => .field (fieldWithPayload 0x00 w)
  | .icspBeginProg => .field (bitsMsb (0xE0 : Byte) 8)
  | .icspRowErase => .field (bitsMsb (0xF0 : Byte) 8)
  | .icspBulkErase => .field (bitsMsb (0x18 : Byte) 8)
  | .lvpKey => .field (bitsMsb lvpKeyValue 32)

/-- The bytes of a wire command's frame; none for an ICSP command. -/
def frameOf (i : Instr) : List Byte :=
  match encode i with
  | .frame bytes => bytes
  | .field _ => []

/-- The bits of an ICSP command's field; none for a wire command. -/
def fieldOf (i : Instr) : List Bool :=
  match encode i with
  | .frame _ => []
  | .field bits => bits

/-! ### The opcode table's numbering -/

/-- The first `n` bytes of a number, byte 0 in bits 7..0. -/
def tableBytes (w : Nat) : Nat → List Byte
  | 0 => []
  | n + 1 => BitVec.ofNat 8 w :: tableBytes (w / 256) n

/-- The instruction this decoder reads from an instruction whose bits are `w`, `nbits` of them, as
spec/opcode_table.json numbers them; every later bit is 0. Wire rows come first, then ICSP rows, whose
field is one number clocked from its top bit, then the unknown row, which has the lowest priority
(30_encoding R105). `nbits = 0` is the unknown row itself, whose mask fixes no bit (assumption 12). -/
def decodeTableWord (nbits w : Nat) : Option Instr :=
  let frame := tableBytes (w % 2 ^ nbits) 5
  match decodeFrame frame with
  | .ok (.unknown c, _) =>
    if nbits = 0 then some (.unknown c)
    else
      match decodeField (bitsMsb (BitVec.ofNat nbits w) nbits ++ List.replicate 24 false) with
      | .ok (i, _) => some i
      | .error _ => some (.unknown c)
  | .ok (i, _) => some i
  | .error _ => none

end Sys2Proof
end

