-- ==== Sys2Proof/Config.lean ====
section
/-!
DEFINITION. The parameters of 00_scope R7 and the free values.
A parameter the spec leaves OPEN is a constant without a body: no proof can see what it is.
-/

namespace Sys2Proof

/-- Over what the device-side receive window runs (00_scope R7, `RX_TIMEOUT_SCOPE`). -/
inductive RxTimeoutScope where
  | perByte
  | perField
  deriving DecidableEq, Repr, Inhabited

/-- The timing parameters of 00_scope R7, times in microseconds and each a minimum (40_pulse_generator R125). The
ones the document gives default to its values, which are unaudited literals (D39, 93_implementation_defined U1);
the others are OPEN. No rule's result depends on any of them (R124; assumption 14). -/
structure Timing where
  /-- `T_ENTRY`. -/
  tEntry : Nat := 260
  /-- `T_LVP`. -/
  tLvp : Nat := 1000
  /-- `T_EXIT`. -/
  tExit : Nat := 260
  /-- `T_WRITE`. -/
  tWrite : Nat := 5000
  /-- `T_ERASE`. -/
  tErase : Nat := 3000
  /-- `T_DLY`, OPEN. -/
  tDly : Nat
  /-- `T_CLK_HI`, OPEN. -/
  tClkHi : Nat
  /-- `T_CLK_LO`, OPEN. -/
  tClkLo : Nat
  /-- `T_RX_TIMEOUT`, OPEN: it decides only when the timeout choice of R151 becomes possible. -/
  tRxTimeout : Nat
  /-- `RX_TIMEOUT_SCOPE`, OPEN. -/
  rxTimeoutScope : RxTimeoutScope
  /-- `BAUD`. -/
  baud : Nat := 115200
  deriving DecidableEq, Repr

/-- Every hold the document gives is at least what it gives: its values are minima (R125). -/
def Timing.MeetsGiven (d : Timing) : Prop :=
  260 ≤ d.tEntry ∧ 1000 ≤ d.tLvp ∧ 260 ≤ d.tExit ∧ 5000 ≤ d.tWrite ∧ 3000 ≤ d.tErase

/-- The host's timing parameter (00_scope R7: not the sequencer's). -/
structure HostTiming where
  /-- `HOST_TIMEOUT`, per blocking call, in microseconds. -/
  hostTimeout : Nat := 5000000
  deriving DecidableEq, Repr

/-- The parameters of the machine: the three that a rule's result depends on, all OPEN, and the timing. The
state carries them so that a statement for every state is one for every value of them. R49: they are
configuration, and no command changes them. DESIGN CHOICE, safe (assumption 5). -/
structure Params where
  /-- `WBUF_WORDS`: the largest `len` a `w` command accepts. -/
  wbufWords : Nat
  /-- `RX_CAP`: how many bytes the receive buffer holds. -/
  rxCap : Nat
  /-- `X_DISCARDS_RX`: whether `x` empties the receive buffer. -/
  xDiscardsRx : Bool
  /-- The delay table (40_pulse_generator R125) and the other timing parameters. -/
  timing : Timing
  deriving DecidableEq, Repr

namespace Config

/-! ### Values the document gives for the frames and fields -/

/-- `WORD_BITS`. -/
def wordBits : Nat := 16

/-- `ADDR_BITS`. -/
def addrBits : Nat := 16

/-- `LEN_BITS`. -/
def lenBits : Nat := 16

/-- `CMD_BITS` (D2). -/
def cmdBits : Nat := 8

/-- `PAYLOAD_BITS`: 7 start, 16 data and 1 stop bit. -/
def payloadBits : Nat := 24

/-- `START_BITS`. -/
def startBits : Nat := 7

/-- `STOP_BITS`. -/
def stopBits : Nat := 1

/-- `ERASED_WORD`, host side: the sequencer never uses it. -/
def erasedWord : Word := 0x3FFF

/-! ### OPEN parameters, of which nothing is known -/

/-- `WBUF_WORDS` of the machine that `State.reset` describes (assumption 5). -/
opaque wbufWords : Nat

/-- `RX_CAP` of that machine (assumption 5). -/
opaque rxCap : Nat

/-- `X_DISCARDS_RX` of that machine (assumption 5). -/
opaque xDiscardsRx : Bool

/-- `T_DLY` of that machine (assumption 14). -/
opaque tDly : Nat

/-- `T_CLK_HI` of that machine (assumption 14). -/
opaque tClkHi : Nat

/-- `T_CLK_LO` of that machine (assumption 14). -/
opaque tClkLo : Nat

/-- `T_RX_TIMEOUT` of that machine (assumption 14). -/
opaque tRxTimeout : Nat

/-- `RX_TIMEOUT_SCOPE` of that machine (assumption 14). -/
opaque rxTimeoutScope : RxTimeoutScope

/-- The timing of that machine: the document's values, and the OPEN ones. -/
def timing : Timing :=
  { tDly := tDly, tClkHi := tClkHi, tClkLo := tClkLo, tRxTimeout := tRxTimeout,
    rxTimeoutScope := rxTimeoutScope }

/-- The parameters of that machine. -/
def params : Params :=
  { wbufWords := wbufWords, rxCap := rxCap, xDiscardsRx := xDiscardsRx, timing := timing }

/-- The host's timing, as the document gives it. -/
def hostTiming : HostTiming := {}

/-! ### Free values -/

/-- The bit the target answers to its `n`-th sample where the state's `answers` gives none
(10_state R47: a draw under no law; assumption 3). -/
opaque targetBit : Nat → Bool

/-- What pin field `field` holds after device reset number `n` (10_state R51: each a draw at reset;
assumption 4). -/
opaque resetBit (n field : Nat) : Bool

end Config

end Sys2Proof
end

