-- ==== Sys2Proof/Machine/State.lean ====
section
/-!
DEFINITION. The state of the BridgeSequencer (10_state R30), as plain data, and the state right after reset.
-/

namespace Sys2Proof.Machine

/-! ### Pins (10_state R38, R39) -/

/-- A line that can be released: ICSP data or ICSP clock. -/
inductive Line where
  | dat
  | clk
  deriving DecidableEq, Repr

/-- One of the four ICSP-side lines. -/
inductive Pin where
  | dat
  | clk
  | hven
  | vdden
  deriving DecidableEq, Repr

/-- Whether the sequencer drives a line (`OUT`) or not (`IN`). -/
inductive Dir where
  | output
  | input
  deriving DecidableEq, Repr

/-- `p.dir` and `p.out`; an `IN` line keeps its `out` (R39). -/
structure LineState where
  dir : Dir
  out : Bool
  deriving DecidableEq, Repr

/-- `PINS` (R38). `HVEN` and `VDDEN` are output-only. -/
structure Pins where
  dat : LineState
  clk : LineState
  hven : Bool
  vdden : Bool
  deriving DecidableEq, Repr

/-! ### Names -/

/-- `MODE` (10_state R31). -/
inductive Mode where
  | disconnected
  | progHv
  | progLvp
  deriving DecidableEq, Repr

/-- The names of the delay table (40_pulse_generator R125) that a `Hold` can carry. -/
inductive HoldName where
  | entry
  | lvp
  | exit
  | write
  | erase
  | dly
  | clkHi
  | clkLo
  deriving DecidableEq, Repr

/-- The event kinds of 10_state R46. -/
inductive Event where
  | drive (p : Line) (v : Bool)
  | level (p : Pin) (v : Bool)
  | level2 (p1 : Pin) (v1 : Bool) (p2 : Pin) (v2 : Bool)
  | release (p : Line)
  | hold (t : HoldName)
  | sample (b : Bool)
  | tx (b : Byte)
  | rx (b : Byte)
  | rxTimeout
  | reset
  deriving DecidableEq, Repr

/-- The closed list of refusal reasons (60_exceptions R226). -/
inductive Reason where
  | cmdWhileDisconnected
  | writeLenZero
  | writeTooLong
  | rxOverflow
  deriving DecidableEq, Repr

/-! ### Where a handler stands -/

/-- One move of a handler: the primitives of 00_scope R10 and the writes of its pseudocode. -/
inductive Op where
  /-- `Drive(p, v)` (R110). -/
  | drive (p : Line) (v : Bool)
  /-- `Level(p, v)` (R111). -/
  | level (p : Pin) (v : Bool)
  /-- `Level2(p1, v1, p2, v2)` (R111). -/
  | level2 (p1 : Pin) (v1 : Bool) (p2 : Pin) (v2 : Bool)
  /-- `Release(p)` (R112). -/
  | release (p : Line)
  /-- `Hold(T)` (R113). -/
  | hold (t : HoldName)
  /-- `w <- 0`, the first line of ShiftIn (R117). -/
  | clearWord
  /-- `w[i] <- Sample()`, most significant bit first (R114, R117). -/
  | sample
  /-- `TxPut(b)` (R44). -/
  | txPut (b : Byte)
  /-- `TxPut(w[15:8])` of the sampled word (R180). -/
  | txHi
  /-- `TxPut(w[7:0])` of the sampled word (R180). -/
  | txLo
  /-- `MODE <- m` (R31). -/
  | setMode (m : Mode)
  /-- `PC <- w` (R130). -/
  | setPc (w : Word)
  /-- `PC <- (PC + 1) mod 2^16` (R33). -/
  | incPc
  /-- `PC <- UNSET` (R164). -/
  | unsetPc
  /-- `ARG_ADDR, ARG_LEN <- UNSET; WBUF <- []`: what R52 says `x` leaves (assumption 17). -/
  | clearOperands
  /-- `if X_DISCARDS_RX: RXQ <- []` (R164). -/
  | discardRx
  deriving DecidableEq, Repr

/-- How far the handler of the current command has come. -/
inductive Place where
  /-- In RecvArgs (41_dispatch_and_mode R152). -/
  | args
  /-- In the RxTake of a `w` command's data bytes (43_write_erase R190). -/
  | data (addr len : Word)
  /-- Part way through its event list: these moves are left. -/
  | events (ops : List Op)
  deriving DecidableEq, Repr

/-- `CTRL`: `IDLE`, or `BUSY(c)` and the place in the handler for command byte `c` (10_state R34). -/
inductive Ctrl where
  | idle
  | busy (c : Byte) (place : Place)
  deriving DecidableEq, Repr

/-- A move from outside the sequencer, in the script of a run (assumption 2). -/
inductive Stimulus where
  /-- The host appends a byte to `RXQ` (10_state R43). -/
  | hostByte (b : Byte)
  /-- The device is reset (60_exceptions R230). -/
  | deviceReset
  /-- The receive window lapses: choice (b) of R151, where it is open. -/
  | rxTimeout
  /-- Nothing comes from outside before the sequencer's next event. -/
  | run
  deriving DecidableEq, Repr

/-! ### The state -/

/-- `SeqState` (10_state R30), the locals of its pseudocode, and the model's own fields. -/
structure State where
  /-- `MODE` (R31). -/
  mode : Mode
  /-- `PC`, the mirror of the target's program counter; `none` is `UNSET` (R32). -/
  pc : Option Word
  /-- `CTRL` (R34). -/
  ctrl : Ctrl
  /-- `ARG_ADDR`; `none` is `UNSET` (R36). -/
  argAddr : Option Word
  /-- `ARG_LEN`; `none` is `UNSET` (R36). -/
  argLen : Option Word
  /-- `WBUF` (R40). -/
  wbuf : List Word
  /-- `PINS` (R38). -/
  pins : Pins
  /-- `RXQ`, head first (R41). -/
  rxq : List Byte
  /-- `TXH`, oldest first (R44). -/
  txh : List Byte
  /-- `EVENTS`, oldest first (R46). -/
  events : List Event
  /-- `REFUSED` (R48). -/
  refused : Option Reason
  /-- The word `w` that ShiftIn assembles (40_pulse_generator R117). -/
  shiftReg : Word
  /-- The bytes RxTake has taken of the current field (41_dispatch_and_mode R151). -/
  got : List Byte
  /-- The model's own: what comes from outside, next first (assumption 2). -/
  inputs : List Stimulus
  /-- The model's own: the target's answers that are given as data, the first sample's first
  (assumption 3). -/
  answers : List Bool
  /-- The model's own: how many samples have been drawn (assumption 3). -/
  draws : Nat
  /-- The model's own: how many device resets there have been (assumption 4). -/
  resets : Nat
  /-- The fixed parameters, the delay table among them (00_scope R7, 10_state R49; assumptions 5 and 14). -/
  params : Params
  deriving DecidableEq, Repr

/-- Why a step faults. No rule of the spec stops this machine with a fault: it has no trap mechanism
(60_exceptions R220), so the type is empty and nothing raises it. Safe. -/
inductive Fault where
  deriving DecidableEq, Repr

/-- Why a step gives no next state. -/
inductive Refusal where
  /-- An instruction whose meaning is not written yet, by its mnemonic. Raised by `exec` alone, by no arm
  of the finished model. Safe. -/
  | notModelled (mnemonic : String)
  /-- `REFUSED` holds `r`: neither the sequencer nor the host has a further step (60_exceptions R226,
  10_state R48). Raised by every step and every meaning in a marked state. Safe. -/
  | marked (r : Reason)
  deriving DecidableEq, Repr

/-- The pins after device reset number `n`: each field a draw (10_state R51; assumption 4). -/
def Pins.drawn (n : Nat) : Pins where
  dat := { dir := if Config.resetBit n 0 then .output else .input, out := Config.resetBit n 1 }
  clk := { dir := if Config.resetBit n 2 then .output else .input, out := Config.resetBit n 3 }
  hven := Config.resetBit n 4
  vdden := Config.resetBit n 5

/-- The state right after the power-on reset (10_state R51, R48; assumptions 2 to 5, 9 and 10). -/
def State.reset : State where
  mode := .disconnected
  pc := none
  ctrl := .idle
  argAddr := none
  argLen := none
  wbuf := []
  pins := Pins.drawn 0
  rxq := []
  txh := []
  events := [.reset]
  refused := none
  shiftReg := 0
  got := []
  inputs := []
  answers := []
  draws := 0
  resets := 1
  params := Config.params

end Sys2Proof.Machine
end

