-- ==== Sys2Proof/Machine/Flags.lean ====
section
/-!
DEFINITION. What this hardware has in the place of flags. It has no status flag, carry or condition code
(10_state R37); a command's outcome is its reply byte (30_encoding R80), and the effect on the mirror `PC`
is the only one like a flag (40_pulse_generator, section 5).
-/

namespace Sys2Proof.Machine

/-- The reply codes (30_encoding R80). -/
inductive Reply where
  | ok
  | argTimeout
  | dataTimeout
  | unknown
  deriving DecidableEq, Repr

/-- The byte of a reply code: 'K', 'A', 'D', 'U' (R80). -/
def Reply.byte : Reply → Byte
  | .ok => 0x4B
  | .argTimeout => 0x41
  | .dataTimeout => 0x44
  | .unknown => 0x55

/-- `PC + 1 mod 2^16`; an increment of `UNSET` leaves `UNSET` (10_state R33). -/
def incMirror (pc : Option Word) : Option Word := pc.map (· + 1)

/-- Whether the mode guard applies to the command: `r`, `w`, `e` and `b` (41_dispatch_and_mode R153). -/
def needsConnection : Command → Bool
  | .s => false
  | .l => false
  | .x => false
  | .r => true
  | .w => true
  | .e => true
  | .b => true
  | .unknown => false

end Sys2Proof.Machine
end

