-- ==== Sys2Proof/Machine/Ops.lean ====
section
/-!
DEFINITION. The named operations over the state: the pin, wire and reset primitives (10_state,
40_pulse_generator R110–R114, 60_exceptions R222, R226, R230), the moves from outside between two events
(10_state R43, 41_dispatch_and_mode R151, R155), and running an event list.
-/

namespace Sys2Proof.Machine

/-! ### Records and pins -/

/-- Appends an event to `EVENTS` (10_state R46). -/
def State.record (s : State) (ev : Event) : State := { s with events := s.events ++ [ev] }

/-- Sets a line's direction and level (R110). -/
def Pins.drive (p : Pins) (l : Line) (v : Bool) : Pins :=
  match l with
  | .dat => { p with dat := { dir := .output, out := v } }
  | .clk => { p with clk := { dir := .output, out := v } }

/-- Sets a pin's level; a line's direction stays (R111). -/
def Pins.setLevel (p : Pins) (q : Pin) (v : Bool) : Pins :=
  match q with
  | .dat => { p with dat := { p.dat with out := v } }
  | .clk => { p with clk := { p.clk with out := v } }
  | .hven => { p with hven := v }
  | .vdden => { p with vdden := v }

/-- Sets a line's direction to `IN`; its level field stays (R112, R39). -/
def Pins.release (p : Pins) (l : Line) : Pins :=
  match l with
  | .dat => { p with dat := { p.dat with dir := .input } }
  | .clk => { p with clk := { p.clk with dir := .input } }

/-- `TxPut(b)`: it never blocks (10_state R44, R45). -/
def State.txPut (s : State) (b : Byte) : State :=
  { s with txh := s.txh ++ [b] }.record (.tx b)

/-- The target's answer to sample number `n`, where `answers` are the ones given as data: any bit
(10_state R47; assumption 3). -/
def targetAnswer (answers : List Bool) (n : Nat) : Bool := (answers[n]?).getD (Config.targetBit n)

/-- The bit the next sample draws. -/
def State.nextBit (s : State) : Bool := targetAnswer s.answers s.draws

/-- `Sample()`, shifted into the word being assembled from its low end, so that the first bit sampled ends
most significant (R114, R117). -/
def State.sample (s : State) : State :=
  { s with shiftReg := s.shiftReg.shiftConcat s.nextBit, draws := s.draws + 1 }.record
    (.sample s.nextBit)

/-- Performs one move of a handler. -/
def Op.perform (op : Op) (s : State) : State :=
  match op with
  | .drive p v => { s with pins := s.pins.drive p v }.record (.drive p v)
  | .level p v => { s with pins := s.pins.setLevel p v }.record (.level p v)
  | .level2 p1 v1 p2 v2 =>
    { s with pins := (s.pins.setLevel p1 v1).setLevel p2 v2 }.record (.level2 p1 v1 p2 v2)
  | .release p => { s with pins := s.pins.release p }.record (.release p)
  | .hold t => s.record (.hold t)
  | .clearWord => { s with shiftReg := 0 }
  | .sample => s.sample
  | .txPut b => s.txPut b
  | .txHi => s.txPut s.shiftReg.hi
  | .txLo => s.txPut s.shiftReg.lo
  | .setMode m => { s with mode := m }
  | .setPc w => { s with pc := some w }
  | .incPc => { s with pc := incMirror s.pc }
  | .unsetPc => { s with pc := none }
  | .clearOperands => { s with argAddr := none, argLen := none, wbuf := [] }
  | .discardRx => { s with rxq := if s.params.xDiscardsRx then [] else s.rxq }

/-! ### What takes the place of exceptions (60_exceptions) -/

/-- `REFUSED <- some r`, and nothing else (R226, 10_state R48). -/
def State.mark (s : State) (r : Reason) : State := { s with refused := some r }

/-- `raise Refused(r)` by a handler: the mark, and the handler is over (R226, 10_state R34; assumption 7). -/
def State.refuse (s : State) (r : Reason) : State := { s.mark r with ctrl := .idle }

/-- Device reset (R230): every field of 10_state R51 takes its reset value, `Reset` is recorded, and what
was sent stays sent. The pins are new draws (assumption 4). -/
def State.deviceReset (s : State) : State :=
  { s with
    mode := .disconnected
    pc := none
    ctrl := .idle
    argAddr := none
    argLen := none
    wbuf := []
    pins := Pins.drawn s.resets
    rxq := []
    events := s.events ++ [.reset]
    shiftReg := 0
    got := []
    resets := s.resets + 1 }

/-- A handler's end: `CTRL <- IDLE` (41_dispatch_and_mode R150). -/
def State.toIdle (s : State) : State := { s with ctrl := .idle }

/-- Whether the machine still has steps: a marked machine has none (R226). Every meaning starts here. -/
def live (s : State) (f : State → State) : Host.Outcome State Fault Refusal :=
  match s.refused with
  | some r => .refused (.marked r)
  | none => .next (f s)

/-! ### Between two events -/

/-- A host step: the byte goes to the tail of `RXQ`, or `RX_OVERFLOW` is refused (10_state R42, R43). The
refusal is the host step's and no handler's end, so `CTRL` keeps its place (assumption 7). -/
def State.hostByte (s : State) (b : Byte) : State :=
  if s.rxq.length < s.params.rxCap then { s with rxq := s.rxq ++ [b] } else s.mark .rxOverflow

/-- What the sequencer's next event needs from the host. -/
inductive Need where
  /-- Nothing: a pin, hold, sample or send event. -/
  | nothing
  /-- A command byte: RxGet, which has no timeout (R150). -/
  | command
  /-- A byte of a field: RxTake, which may time out (R151). -/
  | field
  deriving DecidableEq, Repr

/-- Whether the sequencer can perform its next event now. -/
def State.ready (s : State) (need : Need) : Bool := need == .nothing || !s.rxq.isEmpty

/-- Whether the timeout choice is open: a byte of a field is missing and `RXQ` is empty (R151). -/
def State.mayTimeOut (s : State) (need : Need) : Bool := need == .field && s.rxq.isEmpty

/-- What the moves from outside come to before the sequencer's next event. -/
inductive Turn where
  /-- The sequencer performs its event from here. -/
  | go (s : State)
  /-- The receive window lapsed. -/
  | timeout (s : State)
  /-- The script is over and the sequencer still waits for a byte. -/
  | blocked (s : State)
  /-- A reset ended the handler, or the host overfilled `RXQ`. -/
  | ended (s : State)

/-- Plays the script `q` up to the sequencer's next event: bytes arrive, a reset ends the handler, `run`
lets the sequencer move if it can and wait if it cannot, and a lapse of the receive window counts only
where R151 leaves it open (assumptions 2 and 16). -/
def attend (need : Need) : List Stimulus → State → Turn
  | [], s =>
    if s.ready need then .go { s with inputs := [] } else .blocked { s with inputs := [] }
  | .run :: q, s => if s.ready need then .go { s with inputs := q } else attend need q s
  | .rxTimeout :: q, s =>
    if s.mayTimeOut need then .timeout { s with inputs := q } else attend need q s
  | .hostByte b :: q, s =>
    if s.rxq.length < s.params.rxCap then attend need q (s.hostByte b)
    else .ended ({ s with inputs := q }.hostByte b)
  | .deviceReset :: q, s => .ended { s with inputs := q }.deviceReset

/-! ### Running an event list -/

/-- How a run over an event list ends. -/
inductive Run where
  /-- Every move was performed. -/
  | done (s : State)
  /-- A reset or an overflow cut it short. -/
  | ended (s : State)

/-- `CTRL` with the moves `ops` left of the handler that is under way, if one is (10_state R34). -/
def Ctrl.left (ctrl : Ctrl) (ops : List Op) : Ctrl :=
  match ctrl with
  | .idle => .idle
  | .busy c _ => .busy c (.events ops)

/-- A handler cut short with the moves `ops` left: a reset has already ended it, after an overflow it keeps
its place (assumption 7). -/
def State.left (s : State) (ops : List Op) : State := { s with ctrl := s.ctrl.left ops }

/-- Performs the moves in order, with a turn for the outside before each (41_dispatch_and_mode R155,
60_exceptions R230: a reset may fall between any two events; assumption 1). -/
def runOps : List Op → State → Run
  | [], s => .done s
  | op :: ops, s =>
    match attend .nothing s.inputs s with
    | .go s' => runOps ops (op.perform s')
    | .timeout s' => .ended (s'.left (op :: ops))
    | .blocked s' => .ended (s'.left (op :: ops))
    | .ended s' => .ended (s'.left (op :: ops))

/-- The moves performed in order, with nothing from outside between them. -/
def performAll (ops : List Op) (s : State) : State := ops.foldl (fun s op => op.perform s) s

/-- The state a run ends in. -/
def Run.state : Run → State
  | .done s => s
  | .ended s => s

/-- The state a handler ends in: idle, if its event list was performed whole. -/
def Run.finish : Run → State
  | .done s => s.toIdle
  | .ended s => s

/-- The handler's event list, performed to its end. -/
def emit (ops : List Op) (s : State) : State := (runOps ops s).finish

/-- `abort_with(c)`: one reply byte, and the handler is over (60_exceptions R222). -/
def abortWith (c : Reply) (s : State) : State := emit [.txPut c.byte] s

end Sys2Proof.Machine
end

