-- ==== Sys2Proof/Machine/Operands.lean ====
section
/-!
DEFINITION. Operands: taking the bytes of a field from the receive buffer (41_dispatch_and_mode R151) and
latching them into `ARG_ADDR`, `ARG_LEN` and `WBUF` (R152, 43_write_erase R190).
-/

namespace Sys2Proof.Machine

/-- Takes the head byte of `RXQ` into the current field and records `Rx(b)` (R151). -/
def State.takeByte (s : State) : State :=
  match s.rxq with
  | [] => s
  | b :: q => { s with rxq := q, got := s.got ++ [b] }.record (.rx b)

/-- What RxTake comes to. -/
inductive Recv where
  /-- The field is all there, in `got`. -/
  | complete (s : State)
  /-- `TIMEOUT`: recorded, and the bytes taken are discarded. -/
  | timeout (s : State)
  /-- The script is over; the sequencer waits in RxTake. -/
  | waiting (s : State)
  /-- A reset ended the handler, or the host overfilled `RXQ`. -/
  | ended (s : State)

/-- Records `RxTimeout` and discards the bytes taken, in one move (R151, R222; assumption 24). -/
def State.lapse (s : State) : State := { s with got := [] }.record .rxTimeout

/-- `RxTake(n)`: takes `n` more bytes of the field (R151). -/
def recv : Nat → State → Recv
  | 0, s => .complete s
  | n + 1, s =>
    match attend .field s.inputs s with
    | .go s' => recv n s'.takeByte
    | .timeout s' => .timeout s'.lapse
    | .blocked s' => .waiting s'
    | .ended s' => .ended s'

/-- `ARG_ADDR <- addr` (R152, k = 2: `e` and `b` write only `ARG_ADDR`, 10_state R36). -/
def State.latchAddr (s : State) (addr : Word) : State := { s with argAddr := some addr }

/-- `ARG_ADDR <- addr; ARG_LEN <- len` (R152, k = 4). -/
def State.latchArgs (s : State) (addr len : Word) : State :=
  { s with argAddr := some addr, argLen := some len }

/-- `WBUF <- [ d[2i] ‖ d[2i+1] ]`, from the bytes taken (43_write_erase R190). -/
def State.fillWbuf (s : State) : State := { s with wbuf := wordsOfBytes s.got, got := [] }

/-- How many data bytes of a `w` command are still missing, of `2·len`, which never wraps
(30_encoding R86). -/
def State.dataMissing (s : State) (len : Word) : Nat := 2 * len.toNat - s.got.length

/-- How many argument bytes of the frame that command byte `c` opens are still missing. -/
def State.argsMissing (s : State) (c : Byte) : Nat :=
  (Command.ofByte c).argBytes - s.got.length

end Sys2Proof.Machine
end

