-- ==== Sys2Proof/Machine/Icsp.lean ====
section
/-!
DEFINITION. The timed pulse generator and the seven ICSP commands with the LVP key
(40_pulse_generator R115–R136): each an event list, and its meaning, the list performed.
The preconditions of R116 and R117 on pin directions hold wherever a handler uses the primitives (R119);
the meanings perform the same events from any pin state (assumption 15).
-/

namespace Sys2Proof.Machine

/-! ### Bit cells and shifting (R115–R117) -/

/-- `BitOut(b)` (R115). -/
def bitOut (b : Bool) : List Op :=
  [.level .dat b, .level .clk true, .hold .clkHi, .level .clk false, .hold .clkLo]

/-- `ShiftOut(v, n)`: the `n` low bits of `v`, most significant first (R116). -/
def shiftOut {k : Nat} (v : BitVec k) : Nat → List Op
  | 0 => []
  | n + 1 => bitOut (v.getLsbD n) ++ shiftOut v n

/-- One clock with nothing sampled (R117). -/
def clockCell : List Op :=
  [.level .clk true, .hold .clkHi, .level .clk false, .hold .clkLo]

/-- `ClockIn(k)` (R117). -/
def clockIn : Nat → List Op
  | 0 => []
  | k + 1 => clockCell ++ clockIn k

/-- One clock with a sample after the rising edge and its hold (R117). -/
def sampleCell : List Op :=
  [.level .clk true, .hold .clkHi, .sample, .level .clk false, .hold .clkLo]

/-- `n` sampling clocks. -/
def sampleCells : Nat → List Op
  | 0 => []
  | n + 1 => sampleCell ++ sampleCells n

/-- `ShiftIn(n)` (R117). -/
def shiftIn (n : Nat) : List Op := .clearWord :: sampleCells n

/-! ### Fields (R120–R123) -/

/-- `SendCmd(op)` (R120). -/
def sendCmd (op : Byte) : List Op := shiftOut op 8

/-- `SendPayload(w)` (R121). -/
def sendPayload (w : Word) : List Op := shiftOut (payload w) 24 ++ [.hold .dly]

/-- `RecvPayload()`: it leaves `DAT` released (R122). -/
def recvPayload : List Op := .release .dat :: (clockIn 7 ++ shiftIn 16 ++ clockIn 1)

/-- `SendKey()` (R123). -/
def sendKey : List Op := shiftOut lvpKeyValue 32

/-! ### ICSP command primitives (R130–R136) -/

/-- `ICSP_LOAD_PC(w)` (R130). -/
def loadPcOps (w : Word) : List Op :=
  sendCmd 0x80 ++ [.hold .dly] ++ sendPayload w ++ [.setPc w]

/-- `ICSP_READ_DATA_INC()` (R131). -/
def readDataIncOps : List Op :=
  sendCmd 0xFE ++ [.hold .dly] ++ recvPayload ++ [.incPc]

/-- `ICSP_LOAD_DATA_INC(w)` (R132). -/
def loadDataIncOps (w : Word) : List Op :=
  sendCmd 0x02 ++ [.hold .dly] ++ sendPayload w ++ [.incPc]

/-- `ICSP_LOAD_DATA(w)` (R133). -/
def loadDataOps (w : Word) : List Op :=
  sendCmd 0x00 ++ [.hold .dly] ++ sendPayload w

/-- `ICSP_BEGIN_PROG` (R134). -/
def beginProgOps : List Op := sendCmd 0xE0 ++ [.hold .write]

/-- `ICSP_ROW_ERASE` (R135). -/
def rowEraseOps : List Op := sendCmd 0xF0 ++ [.hold .erase]

/-- `ICSP_BULK_ERASE` (R136). -/
def bulkEraseOps : List Op := sendCmd 0x18 ++ [.hold .erase]

/-! ### Meanings -/

/-- Row `ICSP_LOAD_PC` (R130). -/
def execIcspLoadPc (w : Word) (s : State) : Host.Outcome State Fault Refusal :=
  live s fun s => (runOps (loadPcOps w) s).state

/-- Row `ICSP_READ_DATA_INC` (R131): the word read is left in `shiftReg`. -/
def execIcspReadDataInc (s : State) : Host.Outcome State Fault Refusal :=
  live s fun s => (runOps readDataIncOps s).state

/-- Row `ICSP_LOAD_DATA_INC` (R132). -/
def execIcspLoadDataInc (w : Word) (s : State) : Host.Outcome State Fault Refusal :=
  live s fun s => (runOps (loadDataIncOps w) s).state

/-- Row `ICSP_LOAD_DATA` (R133). -/
def execIcspLoadData (w : Word) (s : State) : Host.Outcome State Fault Refusal :=
  live s fun s => (runOps (loadDataOps w) s).state

/-- Row `ICSP_BEGIN_PROG` (R134). -/
def execIcspBeginProg (s : State) : Host.Outcome State Fault Refusal :=
  live s fun s => (runOps beginProgOps s).state

/-- Row `ICSP_ROW_ERASE` (R135). -/
def execIcspRowErase (s : State) : Host.Outcome State Fault Refusal :=
  live s fun s => (runOps rowEraseOps s).state

/-- Row `ICSP_BULK_ERASE` (R136). -/
def execIcspBulkErase (s : State) : Host.Outcome State Fault Refusal :=
  live s fun s => (runOps bulkEraseOps s).state

/-- Row `LVP_KEY` (R123). -/
def execLvpKey (s : State) : Host.Outcome State Fault Refusal :=
  live s fun s => (runOps sendKey s).state

end Sys2Proof.Machine
end

