-- ==== Sys2Proof/Machine/Handler.lean ====
section
/-!
DEFINITION. Handlers (41_dispatch_and_mode R154): entering one, the mode guard (R153), and carrying one on
from the place `CTRL` names to its end, or to where it waits for the host.
-/

namespace Sys2Proof.Machine

/-- Enters the handler for command byte `c` with its event list. -/
def State.enter (s : State) (c : Byte) (ops : List Op) : State :=
  { s with ctrl := .busy c (.events ops) }

/-- The mode guard of `r`, `w`, `e` and `b` (R153). -/
def guarded (s : State) (f : State → State) : State :=
  if s.mode = .disconnected then s.refuse .cmdWhileDisconnected else f s

/-- The latch loads of a `w` command: all but the last word with increment (43_write_erase R190). -/
def loadWords : List Word → List Op
  | [] => []
  | [w] => loadDataOps w
  | w :: ws => loadDataIncOps w ++ loadWords ws

/-- The ICSP events of a `w` command and its reply (R190). -/
def writeOps (addr : Word) (words : List Word) : List Op :=
  loadPcOps addr ++ rowEraseOps ++ loadWords words ++ beginProgOps ++ [.txPut Reply.ok.byte]

/-- A `w` command from its data reception on (R190, R198). `WBUF` is filled in the same move as the last data
byte is taken (assumption 24). -/
def writeData (addr len : Word) (s : State) : State :=
  match recv (s.dataMissing len) s with
  | .complete s' => emit (writeOps addr s'.fillWbuf.wbuf) s'.fillWbuf
  | .timeout s' => abortWith .dataTimeout s'
  | .waiting s' => s'
  | .ended s' => s'

/-- Carries the handler on from where it stands. Argument reception is the dispatcher's
(Machine/Fetch.lean). -/
def settle (s : State) : State :=
  match s.ctrl with
  | .idle => s
  | .busy _ .args => s
  | .busy _ (.data addr len) => writeData addr len s
  | .busy _ (.events ops) => emit ops s

end Sys2Proof.Machine
end

