-- ==== Sys2Proof/Machine/ModeEntry.lean ====
section
/-!
DEFINITION. Mode entry, mode exit and the unknown byte (41_dispatch_and_mode R160–R166).
-/

namespace Sys2Proof.Machine

/-- EnterHV (R160): its pin order is part of the rule (70_reset_and_hazards R256). -/
def enterHvOps : List Op :=
  [.drive .dat false, .drive .clk false, .hold .entry, .level .hven false, .hold .entry,
    .level .vdden true, .setMode .progHv, .txPut Reply.ok.byte]

/-- EnterLVP (R162). -/
def enterLvpOps : List Op :=
  [.drive .dat false, .drive .clk false, .hold .entry, .level2 .hven true .vdden true, .hold .lvp]
    ++ sendKey ++ [.setMode .progLvp, .txPut Reply.ok.byte]

/-- Exit (R164), with the operands left as R52 says (assumption 17). -/
def exitOps : List Op :=
  [.level .hven true, .hold .exit, .level .vdden false, .release .dat, .release .clk,
    .setMode .disconnected, .unsetPc, .clearOperands, .discardRx]

/-- Unknown (R166). -/
def unknownOps : List Op := [.txPut Reply.unknown.byte]

/-- The handler of `s`, entered. -/
def startEnterHv (s : State) : State := s.enter 0x73 enterHvOps

/-- The handler of `l`, entered. -/
def startEnterLvp (s : State) : State := s.enter 0x6C enterLvpOps

/-- The handler of `x`, entered. -/
def startExit (s : State) : State := s.enter 0x78 exitOps

/-- The path of an unknown byte, entered. -/
def startUnknown (c : Byte) (s : State) : State := s.enter c unknownOps

/-- Row `s` (R160). -/
def execEnterHv (s : State) : Host.Outcome State Fault Refusal :=
  live s fun s => settle (startEnterHv s)

/-- Row `l` (R162). -/
def execEnterLvp (s : State) : Host.Outcome State Fault Refusal :=
  live s fun s => settle (startEnterLvp s)

/-- Row `x` (R164). -/
def execExit (s : State) : Host.Outcome State Fault Refusal :=
  live s fun s => settle (startExit s)

/-- Row `unknown` (R166). -/
def execUnknown (c : Byte) (s : State) : Host.Outcome State Fault Refusal :=
  live s fun s => settle (startUnknown c s)

end Sys2Proof.Machine
end

