-- ==== Sys2Proof/Machine/ReadBlock.lean ====
section
/-!
DEFINITION. The read block command (42_read R180–R186).
-/

namespace Sys2Proof.Machine

/-- One word of a read, in the order of R184: the command, the input payload, the two bytes, then the data
line driven again. -/
def readWordOps : List Op :=
  readDataIncOps ++ [.txHi, .txLo, .drive .dat false, .hold .dly]

/-- The loop over `n` words. -/
def readLoop : Nat → List Op
  | 0 => []
  | n + 1 => readWordOps ++ readLoop n

/-- Read (R180). -/
def readOps (addr len : Word) : List Op := loadPcOps addr ++ readLoop len.toNat

/-- The handler of `r`, entered in the move of its last argument byte (assumption 24). -/
def startRead (addr len : Word) (s : State) : State :=
  guarded s fun s => (s.latchArgs addr len).enter 0x72 (readOps addr len)

/-- Row `r` (R180). -/
def execRead (addr len : Word) (s : State) : Host.Outcome State Fault Refusal :=
  live s fun s => settle (startRead addr len s)

end Sys2Proof.Machine
end

