-- ==== Sys2Proof/Machine/WriteErase.lean ====
section
/-!
DEFINITION. Write block, row erase and bulk erase (43_write_erase R190–R199).
-/

namespace Sys2Proof.Machine

/-- EraseRow (R192). -/
def eraseRowOps (addr : Word) : List Op :=
  loadPcOps addr ++ rowEraseOps ++ [.txPut Reply.ok.byte]

/-- BulkErase (R194). -/
def bulkEraseBlockOps (addr : Word) : List Op :=
  loadPcOps addr ++ bulkEraseOps ++ [.txPut Reply.ok.byte]

/-- The handler of `w`, entered after its arguments: the length refusals, then data reception
(R190, R191; the order of 60_exceptions R228). Latching the operands and a length refusal belong to the same
move as the last argument byte, so no reset and no host byte falls between (assumption 24). -/
def startWrite (addr len : Word) (s : State) : State :=
  guarded s fun s =>
    let s := s.latchArgs addr len
    if len = 0 then s.refuse .writeLenZero
    else if s.params.wbufWords < len.toNat then s.refuse .writeTooLong
    else { s with got := [], ctrl := .busy 0x77 (.data addr len) }

/-- The handler of `e`, entered in the move of its last argument byte (assumption 24). -/
def startEraseRow (addr : Word) (s : State) : State :=
  guarded s fun s => (s.latchAddr addr).enter 0x65 (eraseRowOps addr)

/-- The handler of `b`, entered in the move of its last argument byte (assumption 24). -/
def startBulkErase (addr : Word) (s : State) : State :=
  guarded s fun s => (s.latchAddr addr).enter 0x62 (bulkEraseBlockOps addr)

/-- Row `w` (R190). -/
def execWrite (addr len : Word) (s : State) : Host.Outcome State Fault Refusal :=
  live s fun s => settle (startWrite addr len s)

/-- Row `e` (R192). -/
def execEraseRow (addr : Word) (s : State) : Host.Outcome State Fault Refusal :=
  live s fun s => settle (startEraseRow addr s)

/-- Row `b` (R194). -/
def execBulkErase (addr : Word) (s : State) : Host.Outcome State Fault Refusal :=
  live s fun s => settle (startBulkErase addr s)

end Sys2Proof.Machine
end

