-- ==== Sys2Proof/Machine/Dispatch.lean ====
section
/-!
DEFINITION. Handler selection (41_dispatch_and_mode R154) and the ICSP commands: one arm per constructor.
-/

namespace Sys2Proof.Machine

/-- What an instruction does, its operands already received. -/
def exec (i : Instr) (s : State) : Host.Outcome State Fault Refusal :=
  match i with
  -- wire commands
  | .enterHv => Sys2Proof.Machine.execEnterHv s
  | .enterLvp => Sys2Proof.Machine.execEnterLvp s
  | .exit => Sys2Proof.Machine.execExit s
  | .read addr len => Sys2Proof.Machine.execRead addr len s
  | .write addr len => Sys2Proof.Machine.execWrite addr len s
  | .eraseRow addr => Sys2Proof.Machine.execEraseRow addr s
  | .bulkErase addr => Sys2Proof.Machine.execBulkErase addr s
  | .unknown c => Sys2Proof.Machine.execUnknown c s
  -- ICSP commands
  | .icspLoadPc w => Sys2Proof.Machine.execIcspLoadPc w s
  | .icspReadDataInc => Sys2Proof.Machine.execIcspReadDataInc s
  | .icspLoadDataInc w => Sys2Proof.Machine.execIcspLoadDataInc w s
  | .icspLoadData w => Sys2Proof.Machine.execIcspLoadData w s
  | .icspBeginProg => Sys2Proof.Machine.execIcspBeginProg s
  | .icspRowErase => Sys2Proof.Machine.execIcspRowErase s
  | .icspBulkErase => Sys2Proof.Machine.execIcspBulkErase s
  | .lvpKey => Sys2Proof.Machine.execLvpKey s

end Sys2Proof.Machine
end

