-- ==== Sys2Proof/Machine/Fetch.lean ====
section
/-!
DEFINITION. The dispatcher (41_dispatch_and_mode R150–R153): taking a command byte, the mode guard,
argument reception; what a step does when no instruction comes of it; and where an instruction is placed
to be the next one fetched.
-/

namespace Sys2Proof.Machine

/-- What fetching comes to. -/
inductive Fetch where
  /-- The machine is marked: no step (60_exceptions R226). -/
  | stopped (r : Refusal)
  /-- The step ends here: waiting, timed out, reset, refused, or a handler carried on. -/
  | settled (s : State)
  /-- An instruction with its operands, to be executed from this state. -/
  | instr (i : Instr) (s : State)

/-- RecvArgs and the assembly of the operands (R152, 30_encoding R84, R85); the instruction is entered in the
move of the last argument byte (assumption 24). -/
def fetchArgs (c : Byte) (s : State) : Fetch :=
  match recv (s.argsMissing c) s with
  | .complete s' =>
    match decodeFrame (c :: s'.got) with
    | .ok (i, _) => .instr i { s' with got := [] }
    | .error _ => .settled s'
  | .timeout s' => .settled (abortWith .argTimeout s')
  | .waiting s' => .settled s'
  | .ended s' => .settled s'

/-- The dispatcher's taking of the head byte of `RXQ`: `Rx(c)`, `CTRL <- BUSY(c)`, the mode guard
and its refusal (R150, R153), all in one move (assumption 24). -/
def State.takeCommand (s : State) : State :=
  match s.rxq with
  | [] => s
  | c :: q =>
    let s := { s with rxq := q, got := [], ctrl := .busy c .args }.record (.rx c)
    if needsConnection (Command.ofByte c) then guarded s id else s

/-- Fetches the next instruction from where `CTRL` stands. -/
def fetch (s : State) : Fetch :=
  match s.refused with
  | some r => .stopped (.marked r)
  | none =>
    match s.ctrl with
    | .idle =>
      match attend .command s.inputs s with
      | .go s' =>
        match s'.takeCommand.ctrl with
        | .busy c .args => fetchArgs c s'.takeCommand
        | _ => .settled s'.takeCommand
      | .timeout s' => .settled s'
      | .blocked s' => .settled s'
      | .ended s' => .settled s'
    | .busy c .args => fetchArgs c s
    | .busy _ (.data _ _) => .settled (settle s)
    | .busy _ (.events _) => .settled (settle s)

/-- The command byte of a handler that issues the ICSP command, and the command's event list. -/
def icspPlace : Instr → Option (Byte × List Op)
  | .enterHv => none
  | .enterLvp => none
  | .exit => none
  | .read _ _ => none
  | .write _ _ => none
  | .eraseRow _ => none
  | .bulkErase _ => none
  | .unknown _ => none
  | .icspLoadPc w => some (0x72, loadPcOps w)
  | .icspReadDataInc => some (0x72, readDataIncOps)
  | .icspLoadDataInc w => some (0x77, loadDataIncOps w)
  | .icspLoadData w => some (0x77, loadDataOps w)
  | .icspBeginProg => some (0x77, beginProgOps)
  | .icspRowErase => some (0x65, rowEraseOps)
  | .icspBulkErase => some (0x62, bulkEraseOps)
  | .lvpKey => some (0x6C, sendKey)

/-- The state with the instruction where the next step takes it: a wire command's frame in the receive
buffer of an idle sequencer, an ICSP command as what is left of a handler that issues it; nothing comes
from outside meanwhile (assumption 13). -/
def State.place (s : State) (i : Instr) : State :=
  match icspPlace i with
  | none => { s with rxq := frameOf i, ctrl := .idle, inputs := [] }
  | some (c, ops) => { s.enter c ops with inputs := [] }

/-- `place` for the instruction a table word decodes to. -/
def State.placeTableWord (s : State) (nbits w : Nat) : State :=
  match decodeTableWord nbits w with
  | some i => s.place i
  | none => s

end Sys2Proof.Machine
end

