-- ==== Sys2Proof/Machine/Step.lean ====
section
/-!
DEFINITION. One step: a command from its first byte to its end, or to where it waits for the host, is reset
or is refused; the outside may move before every event of it (41_dispatch_and_mode R150, R155; assumption 1).
-/

namespace Sys2Proof.Machine

/-- One step of the machine. -/
def step (s : State) : Host.Outcome State Fault Refusal :=
  match fetch s with
  | .stopped r => .refused r
  | .settled s' => .next s'
  | .instr i s' => exec i s'

/-- `s` with the instruction of a table word where `step` takes its next one (assumption 13). -/
def State.withFetchWord (s : State) (nbits w : Nat) : State := s.placeTableWord nbits w

end Sys2Proof.Machine
end

