-- ==== Sys2Proof/Machine/HostSide.lean ====
section
/-!
DEFINITION. The host's side of the interface, beside the machine: the host operations and the frames they
expand to (30_encoding R104), and what the host makes of the reply (60_exceptions R238, 90_conflicts C7).
Nothing the sequencer does depends on this file.
-/

namespace Sys2Proof.Machine

/-- The host operations (R104). -/
inductive HostOp where
  | connect
  | disconnect
  | writeBlock (addr : Word) (words : List Word)
  | readBlock (addr len : Word)
  | eraseRow (addr : Word)
  | bulkErase (addr : Word)
  deriving DecidableEq, Repr

/-- The bytes a host operation sends (R82, R104); `connect` never sends 'l'. A list of more than 65535 words
does not fit the 16-bit `len`, and the spec says nothing of it: the model sends its length modulo 2^16 and
all of its words, so that frame alone does not carry `2·len` data bytes (assumption 23). -/
def HostOp.frame : HostOp → List Byte
  | .connect => frameOf .enterHv
  | .disconnect => frameOf .exit
  | .writeBlock addr words =>
    frameOf (.write addr (BitVec.ofNat 16 words.length)) ++ bytesOfWords words
  | .readBlock addr len => frameOf (.read addr len)
  | .eraseRow addr => frameOf (.eraseRow addr)
  | .bulkErase addr => frameOf (.bulkErase addr)

/-- How many reply bytes the host waits for (R104). -/
def HostOp.replyBytes : HostOp → Nat
  | .connect => 1
  | .disconnect => 0
  | .writeBlock _ _ => 1
  | .readBlock _ len => 2 * len.toNat
  | .eraseRow _ => 1
  | .bulkErase _ => 1

/-! ### The host's script (70_reset_and_hazards R264) -/

/-- A frame of the host's script, and how many reply bytes the host expects of it. -/
structure HostFrame where
  bytes : List Byte
  replyBytes : Nat
  deriving DecidableEq, Repr

/-- The one frame a host operation expands to (R104). -/
def HostOp.hostFrame (op : HostOp) : HostFrame := { bytes := op.frame, replyBytes := op.replyBytes }

/-- How far the host has come in its script. -/
structure HostRun where
  /-- The frames of the script, the first to be sent first. -/
  frames : List HostFrame
  /-- The bytes it has sent. -/
  sent : List Byte
  /-- The bytes it has read of `TXH`, from the head on (10_state R44). -/
  read : List Byte
  deriving DecidableEq, Repr

/-- All bytes of the script. -/
def HostRun.scriptBytes (h : HostRun) : List Byte := h.frames.flatMap HostFrame.bytes

/-- How many reply bytes the script expects. -/
def HostRun.expected (h : HostRun) : Nat := (h.frames.map HostFrame.replyBytes).sum

/-- The host has sent every frame of its script and read every reply it expected of `txh` (R264). -/
def HostRun.Finished (h : HostRun) (txh : List Byte) : Prop :=
  h.sent = h.scriptBytes ∧ h.read <+: txh ∧ h.read.length = h.expected

/-- The host after one more frame, the bytes `reply` read in answer to it. -/
def HostRun.exchange (h : HostRun) (f : HostFrame) (reply : List Byte) : HostRun :=
  { frames := h.frames ++ [f], sent := h.sent ++ f.bytes, read := h.read ++ reply }

/-! ### Replies (60_exceptions R238) -/

/-- The transport's reading of the bytes that came within the host's timeout (R238, C7). -/
inductive TransportResult where
  | complete (bytes : List Byte)
  | timeoutError
  | shortReadError (count : Nat)
  deriving DecidableEq, Repr

/-- Silence, a short read, or the bytes awaited (R238). The spec does not say what the host makes of more bytes
than it awaits: the model reads the first awaited and leaves the rest unread (assumption 25). -/
def transportRead (want : Nat) (bytes : List Byte) : TransportResult :=
  if want ≤ bytes.length then .complete (bytes.take want)
  else if bytes = [] then .timeoutError
  else .shortReadError bytes.length

/-- What the host makes of the reply to an operation (R104, R238). -/
inductive HostVerdict where
  | success (words : List Word)
  | handshakeError
  | writeRejected (reply : Byte)
  /-- Fewer than `2·len` bytes: none is no response, some is a lost frame boundary. -/
  | readFailure (count : Nat)
  | transportError (t : TransportResult)
  deriving DecidableEq, Repr

/-- The host's verdict on the bytes that came (R238). A reply to `e` or `b` other than 'K' has no error
name of its own in the spec; it is reported as a rejected write is (assumption 19). -/
def HostOp.verdict (op : HostOp) (bytes : List Byte) : HostVerdict :=
  match op, transportRead op.replyBytes bytes with
  | .connect, .complete [c] => if c = 0x4B then .success [] else .handshakeError
  | .connect, _ => .handshakeError
  | .disconnect, _ => .success []
  | .readBlock _ _, .complete bs => .success (wordsOfBytes bs)
  | .readBlock _ _, .timeoutError => .readFailure 0
  | .readBlock _ _, .shortReadError n => .readFailure n
  | .writeBlock _ _, .complete [c] => if c = 0x4B then .success [] else .writeRejected c
  | .writeBlock _ _, t => .transportError t
  | .eraseRow _, .complete [c] => if c = 0x4B then .success [] else .writeRejected c
  | .eraseRow _, t => .transportError t
  | .bulkErase _, .complete [c] => if c = 0x4B then .success [] else .writeRejected c
  | .bulkErase _, t => .transportError t

end Sys2Proof.Machine
end

