-- ==== Sys2Proof/Machine/EventStep.lean ====
section
/-!
DEFINITION. The machine at the grain of single events (41_dispatch_and_mode R155: each event of a handler is
a separate step): one move of the host, of the reset, of the receive window or of the sequencer. `step` runs
these moves up to the end of a command, or to where it waits (assumption 1).
-/

namespace Sys2Proof.Machine

/-- The handler of an instruction, entered after its operands are in. -/
def start (i : Instr) (s : State) : State :=
  match i with
  | .enterHv => startEnterHv s
  | .enterLvp => startEnterLvp s
  | .exit => startExit s
  | .read addr len => startRead addr len s
  | .write addr len => startWrite addr len s
  | .eraseRow addr => startEraseRow addr s
  | .bulkErase addr => startBulkErase addr s
  | .unknown c => startUnknown c s
  | .icspLoadPc w => s.enter 0x72 (loadPcOps w)
  | .icspReadDataInc => s.enter 0x72 readDataIncOps
  | .icspLoadDataInc w => s.enter 0x77 (loadDataIncOps w)
  | .icspLoadData w => s.enter 0x77 (loadDataOps w)
  | .icspBeginProg => s.enter 0x77 beginProgOps
  | .icspRowErase => s.enter 0x65 rowEraseOps
  | .icspBulkErase => s.enter 0x62 bulkEraseOps
  | .lvpKey => s.enter 0x6C sendKey

/-- Once the last argument byte is in, the handler is entered, with its length refusals for `w`, in that same
move (R152, R154, 43_write_erase R191; assumption 24). -/
def afterArgs (c : Byte) (s : State) : State :=
  if s.argsMissing c = 0 then
    match decodeFrame (c :: s.got) with
    | .ok (i, _) => start i { s with got := [] }
    | .error _ => s
  else s

/-- Once the last data byte is in, `WBUF` is filled in that same move (assumption 24), and the ICSP events come
next (43_write_erase R190). -/
def afterData (c : Byte) (addr len : Word) (s : State) : State :=
  if s.dataMissing len = 0 then s.fillWbuf.enter c (writeOps addr s.fillWbuf.wbuf) else s

/-- After the last event of a list the handler is over, in that same move (R150; assumption 24). -/
def afterEvent (c : Byte) (ops : List Op) (s : State) : State :=
  match ops with
  | [] => s.toIdle
  | _ :: _ => s.enter c ops

/-- What the sequencer's next event needs. -/
def State.need (s : State) : Need :=
  match s.ctrl with
  | .idle => .command
  | .busy c .args => if s.argsMissing c = 0 then .nothing else .field
  | .busy _ (.data _ len) => if s.dataMissing len = 0 then .nothing else .field
  | .busy _ (.events _) => .nothing

/-- The sequencer's next event, when it has what it needs. -/
def advance (s : State) : State :=
  match s.ctrl with
  | .idle =>
    match s.takeCommand.ctrl with
    | .busy c .args => afterArgs c s.takeCommand
    | _ => s.takeCommand
  | .busy c .args =>
    if s.argsMissing c = 0 then afterArgs c s else afterArgs c s.takeByte
  | .busy c (.data addr len) =>
    if s.dataMissing len = 0 then afterData c addr len s else afterData c addr len s.takeByte
  | .busy _ (.events []) => s.toIdle
  | .busy c (.events (op :: ops)) => afterEvent c ops (op.perform s)

/-- The receive window lapses: `RxTimeout`, and what is left is the reply of R222. -/
def lapseField (s : State) : State :=
  match s.ctrl with
  | .idle => s
  | .busy c .args => s.lapse.enter c [.txPut Reply.argTimeout.byte]
  | .busy c (.data _ _) => s.lapse.enter c [.txPut Reply.dataTimeout.byte]
  | .busy _ (.events _) => s

/-- One move of one agent. -/
def move (s : State) : State :=
  match s.inputs with
  | [] => if s.ready s.need then advance s else s
  | .run :: q =>
    if s.ready s.need then advance { s with inputs := q } else { s with inputs := q }
  | .rxTimeout :: q =>
    if s.mayTimeOut s.need then lapseField { s with inputs := q } else { s with inputs := q }
  | .hostByte b :: q => { s with inputs := q }.hostByte b
  | .deviceReset :: q => { s with inputs := q }.deviceReset

/-- One move as a step: a marked machine has none (60_exceptions R226). -/
def eventStep (s : State) : Host.Outcome State Fault Refusal := live s move

/-- `n` moves, ending at a mark. -/
def eventSteps : Nat → State → State
  | 0, s => s
  | n + 1, s =>
    match s.refused with
    | some _ => s
    | none => eventSteps n (move s)

end Sys2Proof.Machine
end

