-- ==== Sys2Proof/Safety.lean ====
section
/-!
DEFINITION. The terms claims use: undisturbed states, waveforms and what is read off a history
(40_pulse_generator R115–R127), the end of a run (70_reset_and_hazards R264), and the invariant.
-/

namespace Sys2Proof.Machine

/-! ### Undisturbed states -/

/-- The machine has steps and nothing comes from outside. -/
def State.Quiet (s : State) : Prop := s.refused = none ∧ s.inputs = []

/-- Whether a stimulus is the device reset. -/
def Stimulus.isReset : Stimulus → Bool
  | .deviceReset => true
  | .hostByte _ => false
  | .rxTimeout => false
  | .run => false

/-- The bytes the host sends in a script, in order. -/
def scriptBytes : List Stimulus → List Byte
  | [] => []
  | .hostByte b :: q => b :: scriptBytes q
  | .deviceReset :: q => scriptBytes q
  | .rxTimeout :: q => scriptBytes q
  | .run :: q => scriptBytes q

/-! ### Waveforms, by the bits they carry -/

/-- An output bit cell (R115). -/
def bitCell (b : Bool) : List Event :=
  [.level .dat b, .level .clk true, .hold .clkHi, .level .clk false, .hold .clkLo]

/-- A field clocked out, its bits in order (R116). -/
def wave (bits : List Bool) : List Event := bits.flatMap bitCell

/-- An input clock with nothing sampled (R117). -/
def inClock : List Event :=
  [.level .clk true, .hold .clkHi, .level .clk false, .hold .clkLo]

/-- An input clock with a sample (R117). -/
def inCell (b : Bool) : List Event :=
  [.level .clk true, .hold .clkHi, .sample b, .level .clk false, .hold .clkLo]

/-- An input payload: data released, 7 clocks, 16 samples, 1 clock (R122, 30_encoding R99). -/
def readWave (bits : List Bool) : List Event :=
  .release .dat :: ((List.replicate 7 inClock).flatten ++ bits.flatMap inCell ++ inClock)

/-- The bits of an output payload: 7 zeros, the word, a zero (30_encoding R97). -/
def payloadBitsOf (w : Word) : List Bool := List.replicate 7 false ++ bitsMsb w 16 ++ [false]

/-- A command with an output payload, and its two holds (R118, R121). -/
def payloadWave (op : Byte) (w : Word) : List Event :=
  wave (bitsMsb op 8) ++ [.hold .dly] ++ wave (payloadBitsOf w) ++ [.hold .dly]

/-- A command without payload, and its own hold (R134 to R136). -/
def commandWave (op : Byte) (t : HoldName) : List Event := wave (bitsMsb op 8) ++ [.hold t]

/-- The target's answers to the `n` samples from number `k` on, in order. -/
def answersFrom (answers : List Bool) (k : Nat) : Nat → List Bool
  | 0 => []
  | n + 1 => targetAnswer answers k :: answersFrom answers (k + 1) n

/-- The word that the 16 samples from number `k` on make, the first most significant (R99, R117). -/
def wordFrom (answers : List Bool) (k : Nat) : Word := ofBitsMsb 16 (answersFrom answers k 16)

/-- The words of a read of `n` words whose first sample is number `k`. -/
def wordsFrom (answers : List Bool) (k : Nat) : Nat → List Word
  | 0 => []
  | n + 1 => wordFrom answers k :: wordsFrom answers (k + 16) n

/-- The events of one word of a read, in the order of 42_read R184. -/
def readWordWave (answers : List Bool) (k : Nat) : List Event :=
  wave (bitsMsb (0xFE : Byte) 8) ++ [.hold .dly] ++ readWave (answersFrom answers k 16)
    ++ [.tx (wordFrom answers k).hi, .tx (wordFrom answers k).lo, .drive .dat false, .hold .dly]

/-- The events of the loop of a read over `n` words. -/
def readLoopWave (answers : List Bool) (k : Nat) : Nat → List Event
  | 0 => []
  | n + 1 => readWordWave answers k ++ readLoopWave answers (k + 16) n

/-- The events of the latch loads of a write: all but the last word with increment (R190). -/
def loadWave : List Word → List Event
  | [] => []
  | [w] => payloadWave 0x00 w
  | w :: ws => payloadWave 0x02 w ++ loadWave ws

/-! ### What is read off a history -/

/-- How many clock pulses a history holds: rising levels of `CLK` (R126). -/
def clocks (es : List Event) : Nat := es.countP (· == .level .clk true)

/-- Whether an event is a sample of the data line. -/
def Event.isSample : Event → Bool
  | .sample _ => true
  | .drive _ _ => false
  | .level _ _ => false
  | .level2 _ _ _ _ => false
  | .release _ => false
  | .hold _ => false
  | .tx _ => false
  | .rx _ => false
  | .rxTimeout => false
  | .reset => false

/-- How many samples a history holds (R126). -/
def samples (es : List Event) : Nat := es.countP Event.isSample

/-- The bytes sent in a history. -/
def sentBytes (es : List Event) : List Byte :=
  es.filterMap fun ev => match ev with
    | .tx b => some b
    | .drive _ _ => none
    | .level _ _ => none
    | .level2 _ _ _ _ => none
    | .release _ => none
    | .hold _ => none
    | .sample _ => none
    | .rx _ => none
    | .rxTimeout => none
    | .reset => none

/-- The bytes consumed in a history. -/
def takenBytes (es : List Event) : List Byte :=
  es.filterMap fun ev => match ev with
    | .rx b => some b
    | .drive _ _ => none
    | .level _ _ => none
    | .level2 _ _ _ _ => none
    | .release _ => none
    | .hold _ => none
    | .sample _ => none
    | .tx _ => none
    | .rxTimeout => none
    | .reset => none

/-- The bits the sequencer puts out in a history: the level it sets on `DAT` just before each rising level
of `CLK` (R115). -/
def outBits : List Event → List Bool
  | .level .dat b :: .level .clk true :: es => b :: outBits es
  | _ :: es => outBits es
  | [] => []

/-- The least time a hold takes under the delay table `d`, in microseconds (R125). -/
def holdMicros (d : Timing) : HoldName → Nat
  | .entry => d.tEntry
  | .lvp => d.tLvp
  | .exit => d.tExit
  | .write => d.tWrite
  | .erase => d.tErase
  | .dly => d.tDly
  | .clkHi => d.tClkHi
  | .clkLo => d.tClkLo

/-- The least time a history takes under the delay table `d`: the sum of its holds (R263). -/
def leastMicros (d : Timing) : List Event → Nat
  | [] => 0
  | .hold t :: es => holdMicros d t + leastMicros d es
  | .drive _ _ :: es => leastMicros d es
  | .level _ _ :: es => leastMicros d es
  | .level2 _ _ _ _ :: es => leastMicros d es
  | .release _ :: es => leastMicros d es
  | .sample _ :: es => leastMicros d es
  | .tx _ :: es => leastMicros d es
  | .rx _ :: es => leastMicros d es
  | .rxTimeout :: es => leastMicros d es
  | .reset :: es => leastMicros d es

/-! ### Modes -/

/-- `MODE` after a wire command that is not refused, by the mode before it (41_dispatch_and_mode R168);
the ICSP commands leave it. -/
def modeAfter (i : Instr) (m : Mode) : Mode :=
  match i with
  | .enterHv => .progHv
  | .enterLvp => .progLvp
  | .exit => .disconnected
  | .read _ _ => m
  | .write _ _ => m
  | .eraseRow _ => m
  | .bulkErase _ => m
  | .unknown _ => m
  | .icspLoadPc _ => m
  | .icspReadDataInc => m
  | .icspLoadDataInc _ => m
  | .icspLoadData _ => m
  | .icspBeginProg => m
  | .icspRowErase => m
  | .icspBulkErase => m
  | .lvpKey => m

/-- The instructions the mode guard applies to: `r`, `w`, `e` and `b` (R153). -/
def isGuarded (i : Instr) : Bool :=
  match i with
  | .enterHv => false
  | .enterLvp => false
  | .exit => false
  | .read _ _ => true
  | .write _ _ => true
  | .eraseRow _ => true
  | .bulkErase _ => true
  | .unknown _ => false
  | .icspLoadPc _ => false
  | .icspReadDataInc => false
  | .icspLoadDataInc _ => false
  | .icspLoadData _ => false
  | .icspBeginProg => false
  | .icspRowErase => false
  | .icspBulkErase => false
  | .lvpKey => false

/-! ### The end of a run, and the invariant -/

/-- A run that ends well (70_reset_and_hazards R264), in the state `s` and with the host at `h`: nothing the
host sends is still to arrive, and it has read every reply it expected. -/
def State.EndsWell (s : State) (h : HostRun) : Prop :=
  s.ctrl = .idle ∧ s.rxq = [] ∧ s.refused = none ∧ scriptBytes s.inputs = [] ∧ h.Finished s.txh

/-- The observation of a run (R264). -/
structure Observation where
  txh : List Byte
  events : List Event
  mode : Mode
  pc : Option Word
  deriving DecidableEq, Repr

/-- What is observed of a run that ends in `s` (R264). -/
def State.observation (s : State) : Observation :=
  { txh := s.txh, events := s.events, mode := s.mode, pc := s.pc }

/-- Data and clock are driven, and the clock rests low (40_pulse_generator R119, R115). -/
def Pins.Driven (p : Pins) : Prop :=
  p.dat.dir = .output ∧ p.clk.dir = .output ∧ p.clk.out = false

/-- No move of an event list lies behind: between commands, or in the reception of a field. -/
def Ctrl.BeforeEvents (ctrl : Ctrl) : Prop :=
  match ctrl with
  | .idle => True
  | .busy _ .args => True
  | .busy _ (.data _ _) => True
  | .busy _ (.events _) => False

/-- Where a handler stands after a step: in a field, past the guard, with what it holds fitting; or part way
through its events, if the host overfilled `RXQ` there (10_state R42). -/
def State.FieldOk (s : State) : Prop :=
  match s.ctrl with
  | .idle => True
  | .busy c .args => s.got.length < (Command.ofByte c).argBytes ∧ s.mode ≠ .disconnected
  | .busy c (.data addr len) =>
    c = 0x77 ∧ len ≠ 0 ∧ len.toNat ≤ s.params.wbufWords ∧ s.got.length < 2 * len.toNat
      ∧ s.argAddr = some addr ∧ s.argLen = some len ∧ s.mode ≠ .disconnected
  | .busy _ (.events _) => s.refused = some .rxOverflow

/-- A handler under way has something left to do: a byte of a field is missing, or a move is left
(assumptions 20 and 24). -/
def State.PlaceOk (s : State) : Prop :=
  match s.ctrl with
  | .idle => True
  | .busy c .args => s.argsMissing c ≠ 0
  | .busy _ (.data _ len) => s.dataMissing len ≠ 0
  | .busy _ (.events ops) => ops ≠ []

/-- The invariant of `step`: the buffers fit (10_state R40, R42), data and clock are driven whenever the
machine, marked or not, is in a programming mode with `CTRL = IDLE` (R119, R115) and no less while it receives
a field, and a command under way waits for a field's bytes or was stopped by an overflow. -/
structure State.Inv (s : State) : Prop where
  rxFits : s.rxq.length ≤ s.params.rxCap
  wbufFits : s.wbuf.length ≤ s.params.wbufWords
  driven : s.ctrl.BeforeEvents → s.mode ≠ .disconnected → s.pins.Driven
  field : s.FieldOk

end Sys2Proof.Machine
end

