-- ==== Sys2Proof/Certificates/Slice0/Obligations.lean ====
section
/-!
DEFINITION. The statements about the machine, from the numbered rules of spec/.
`s.Quiet` says that the machine is not marked and that nothing comes from outside; statements without it hold
whatever the script brings.
-/

open Sys2Proof Sys2Proof.Machine

/-! ### Reset -/

/-- 10_state R51, R48: the fields the spec gives a value at reset hold it at power-on, and no mark is set.
The pins are draws (assumption 4), so nothing is said of them. -/
def Obligations.PowerOnResetState : Prop :=
  State.reset.mode = .disconnected ∧ State.reset.pc = none ∧ State.reset.ctrl = .idle
    ∧ State.reset.argAddr = none ∧ State.reset.argLen = none ∧ State.reset.wbuf = []
    ∧ State.reset.rxq = [] ∧ State.reset.refused = none

/-- 10_state R51, 60_exceptions R230: a device reset, enabled in every place of every handler and in IDLE,
gives every field its reset value; what was sent stays sent, the events so far stand and `Reset` is recorded.
The pins are unspecified, so nothing is said of them. -/
def Obligations.DeviceResetGivesResetValues : Prop :=
  ∀ (s : State) (q : List Stimulus), s.refused = none → s.inputs = .deviceReset :: q →
    ∃ t, eventStep s = .next t ∧ t.mode = .disconnected ∧ t.pc = none ∧ t.ctrl = .idle
      ∧ t.argAddr = none ∧ t.argLen = none ∧ t.wbuf = [] ∧ t.rxq = [] ∧ t.txh = s.txh
      ∧ t.events = s.events ++ [.reset] ∧ t.refused = none ∧ t.inputs = q

/-- 60_exceptions R230, 41_dispatch_and_mode R155: a reset after the first `k` moves of what is left of a
handler abandons it; the moves so far stand. That a handler's writes that are no events count as moves too is the
model's reading (assumption 20). -/
def Obligations.ResetAbandonsHandler : Prop :=
  ∀ (s : State) (c : Byte) (ops : List Op) (k : Nat) (q : List Stimulus),
    s.refused = none → s.ctrl = .busy c (.events ops) → k < ops.length →
    s.inputs = List.replicate k .run ++ .deviceReset :: q →
    step s = .next { performAll (ops.take k) s with inputs := q }.deviceReset

/-! ### The dispatcher -/

/-- A step runs the decoded instruction (R150, R152, R154). In IDLE a frame at the head of `RXQ` is taken, its
bytes recorded in order, and the instruction executed from there. A handler already waiting in its arguments,
with some bytes held in `got`, goes on in the same way with the bytes that were missing. -/
def Obligations.StepRunsDecodedFrame : Prop :=
  (∀ (s : State) (c : Byte) (q : List Byte) (i : Instr) (rest : List Byte),
    s.Quiet → s.ctrl = .idle → s.rxq = c :: q → decodeFrame s.rxq = .ok (i, rest) →
    (needsConnection (Command.ofByte c) = true → s.mode ≠ .disconnected) →
    step s = exec i
      { s with
        rxq := rest
        got := []
        ctrl := .busy c .args
        events := s.events ++ (s.rxq.take (s.rxq.length - rest.length)).map .rx })
  ∧ (∀ (s : State) (c : Byte) (i : Instr) (rest : List Byte),
    s.Quiet → s.ctrl = .busy c .args → s.got.length ≤ (Command.ofByte c).argBytes →
    decodeFrame (c :: (s.got ++ s.rxq)) = .ok (i, rest) →
    step s = exec i
      { s with
        rxq := rest
        got := []
        events := s.events ++ (s.rxq.take (s.rxq.length - rest.length)).map .rx })

/-- A step in the place of an ICSP command runs it (assumption 13), whatever comes from outside; all the step
adds is the end of the handler, `CTRL <- IDLE` (R150), where the host did not overfill `RXQ`. That
`CTRL` keeps its place after an overflow is the model's reading (assumption 7). -/
def Obligations.StepRunsIcspCommand : Prop :=
  ∀ (s : State) (i : Instr) (c h : Byte) (ops : List Op),
    s.refused = none → icspPlace i = some (c, ops) → s.ctrl = .busy h (.events ops) →
    ∃ t, exec i s = .next t ∧ step s = .next (if t.refused = none then t.toIdle else t)

/-- R150 and choice (a) of R151: with nothing from outside, a sequencer in IDLE with `RXQ` empty waits and
nothing changes, and one whose command byte or field comes with too few bytes takes those there are, holds them
and waits for the rest; with `RXQ` empty nothing changes in a field either. That waiting is a step that answers
a next state is the model's choice (assumption 8). -/
def Obligations.SequencerWaitsForBytes : Prop :=
  (∀ s : State, s.Quiet → s.ctrl = .idle → s.rxq = [] → step s = .next s)
  ∧ (∀ (s : State) (c : Byte) (q : List Byte), s.Quiet → s.ctrl = .idle → s.mode ≠ .disconnected →
      s.rxq = c :: q → q.length < (Command.ofByte c).argBytes →
      step s = .next
        { s with
          ctrl := .busy c .args
          got := q
          rxq := []
          events := s.events ++ (c :: q).map .rx })
  ∧ (∀ (s : State) (c : Byte), s.Quiet → s.ctrl = .busy c .args →
      s.got.length + s.rxq.length < (Command.ofByte c).argBytes →
      step s = .next
        { s with got := s.got ++ s.rxq, rxq := [], events := s.events ++ s.rxq.map .rx })
  ∧ (∀ (s : State) (c : Byte) (addr len : Word), s.Quiet → s.ctrl = .busy c (.data addr len) →
      s.got.length + s.rxq.length < 2 * len.toNat →
      step s = .next
        { s with got := s.got ++ s.rxq, rxq := [], events := s.events ++ s.rxq.map .rx })

/-- R153: `r`, `w`, `e` and `b` taken in `DISCONNECTED` are refused before any argument byte is received;
every other byte, and every byte in the other modes, comes past the guard. -/
def Obligations.ModeGuardRefuses : Prop :=
  (∀ (s : State) (c : Byte) (q : List Byte), s.Quiet → s.ctrl = .idle → s.rxq = c :: q →
      s.mode = .disconnected → c ∈ [(0x72 : Byte), 0x77, 0x65, 0x62] →
      step s = .next
        { s with
          rxq := q
          got := []
          events := s.events ++ [.rx c]
          refused := some .cmdWhileDisconnected })
  ∧ (∀ (s : State) (c : Byte) (q : List Byte), s.Quiet → s.ctrl = .idle → s.rxq = c :: q →
      (s.mode ≠ .disconnected ∨ c ∉ [(0x72 : Byte), 0x77, 0x65, 0x62]) →
      ∃ t, step s = .next t ∧ t.refused ≠ some .cmdWhileDisconnected)

/-- 10_state R48: no mark in the initial state; raising one sets it, by a handler or by the host's step; a marked machine has no step of the
sequencer and none of the host or the reset, so the mark is never cleared. -/
def Obligations.MarkedMachineHasNoStep : Prop :=
  State.reset.refused = none ∧ (∀ (s : State) (r : Reason), (s.refuse r).refused = some r)
    ∧ (∀ (s : State) (r : Reason), (s.mark r).refused = some r)
    ∧ ∀ (s : State) (r : Reason) (i : Instr), s.refused = some r →
      step s = .refused (.marked r) ∧ exec i s = .refused (.marked r)
        ∧ eventStep s = .refused (.marked r)

/-- An unmarked machine answers a next state to every instruction and to every step, whatever the script.
60_exceptions R220 and R226 give the sequencer no trap and no end but a mark. That it answers next also while it
waits for a byte, where R150 gives it no step, is the model's choice (assumption 8), and so is that raising a
refusal is itself a next state (assumption 6). -/
def Obligations.UnmarkedMachineAnswers : Prop :=
  ∀ s : State, s.refused = none →
    (∃ t, step s = .next t) ∧ (∃ t, eventStep s = .next t) ∧ ∀ i, ∃ t, exec i s = .next t

/-- 10_state R42, R43: a host byte goes to the tail of `RXQ`; into a full `RXQ` it is refused. The refusal sets
the mark and nothing else; that `CTRL` keeps its place is the model's reading (assumption 7). -/
def Obligations.HostByteIsQueuedOrRefused : Prop :=
  ∀ (s : State) (b : Byte) (q : List Stimulus), s.refused = none → s.inputs = .hostByte b :: q →
    (s.rxq.length < s.params.rxCap →
      eventStep s = .next { s with inputs := q, rxq := s.rxq ++ [b] })
    ∧ (s.params.rxCap ≤ s.rxq.length →
      eventStep s = .next { s with inputs := q, refused := some .rxOverflow })

/-! ### Receive timeouts -/

/-- R151: the timeout is never taken, and nothing waits, while the field's bytes are there, whatever the
script. -/
def Obligations.BytesPresentNeverTimeOut : Prop :=
  ∀ (n : Nat) (s t : State), n ≤ s.rxq.length → recv n s ≠ .timeout t ∧ recv n s ≠ .waiting t

/-- 60_exceptions R223, R222: an argument timeout sends 'A' and ends the handler; the bytes taken are
consumed and discarded, no ICSP event occurs and nothing else changes. The same of a handler already waiting in
its arguments with some bytes held. -/
def Obligations.ArgTimeoutReplies : Prop :=
  (∀ (s : State) (c : Byte) (q : List Byte),
    s.refused = none → s.ctrl = .idle → s.mode ≠ .disconnected → s.rxq = c :: q →
    q.length < (Command.ofByte c).argBytes →
    s.inputs = List.replicate (q.length + 1) .run ++ [.rxTimeout] →
    step s = .next
      { s with
        rxq := []
        got := []
        inputs := []
        txh := s.txh ++ [0x41]
        events := s.events ++ (c :: q).map .rx ++ [.rxTimeout, .tx 0x41] })
  ∧ (∀ (s : State) (c : Byte),
    s.refused = none → s.ctrl = .busy c .args →
    s.got.length + s.rxq.length < (Command.ofByte c).argBytes →
    s.inputs = List.replicate s.rxq.length .run ++ [.rxTimeout] →
    step s = .next
      { s with
        ctrl := .idle
        rxq := []
        got := []
        inputs := []
        txh := s.txh ++ [0x41]
        events := s.events ++ s.rxq.map .rx ++ [.rxTimeout, .tx 0x41] })

/-- 60_exceptions R224, 43_write_erase R198: a data timeout of `w` sends 'D' before any ICSP event; no pin,
`PC` or `MODE` changes and the data bytes taken are discarded. The same of a handler already waiting in its data
with some bytes held. -/
def Obligations.DataTimeoutReplies : Prop :=
  (∀ (s : State) (addr len : Word),
    s.refused = none → s.mode ≠ .disconnected → len ≠ 0 → len.toNat ≤ s.params.wbufWords →
    s.rxq.length < 2 * len.toNat →
    s.inputs = List.replicate s.rxq.length .run ++ [.rxTimeout] →
    exec (.write addr len) s = .next
      { s with
        ctrl := .idle
        argAddr := some addr
        argLen := some len
        rxq := []
        got := []
        inputs := []
        txh := s.txh ++ [0x44]
        events := s.events ++ s.rxq.map .rx ++ [.rxTimeout, .tx 0x44] })
  ∧ (∀ (s : State) (c : Byte) (addr len : Word),
    s.refused = none → s.ctrl = .busy c (.data addr len) →
    s.got.length + s.rxq.length < 2 * len.toNat →
    s.inputs = List.replicate s.rxq.length .run ++ [.rxTimeout] →
    step s = .next
      { s with
        ctrl := .idle
        rxq := []
        got := []
        inputs := []
        txh := s.txh ++ [0x44]
        events := s.events ++ s.rxq.map .rx ++ [.rxTimeout, .tx 0x44] })

/-! ### Mode entry, exit, unknown -/

/-- R160: `s`, byte 0x73, runs the high-voltage entry sequence from every mode and replies 'K'. -/
def Obligations.EnterHvEffect : Prop :=
  frameOf .enterHv = [0x73] ∧ ∀ s : State, s.Quiet →
    exec .enterHv s = .next
      { s with
        mode := .progHv
        ctrl := .idle
        pins :=
          { dat := { dir := .output, out := false }
            clk := { dir := .output, out := false }
            hven := false
            vdden := true }
        txh := s.txh ++ [0x4B]
        events := s.events ++
          [.drive .dat false, .drive .clk false, .hold .entry, .level .hven false, .hold .entry,
            .level .vdden true, .tx 0x4B] }

/-- R162, 30_encoding R98: `l`, byte 0x6C, runs the low-voltage entry sequence from every mode, clocks out 'M', 'C', 'H',
'P', each most significant bit first, and replies 'K'. -/
def Obligations.EnterLvpEffect : Prop :=
  frameOf .enterLvp = [0x6C] ∧ ∀ s : State, s.Quiet →
    exec .enterLvp s = .next
      { s with
        mode := .progLvp
        ctrl := .idle
        pins :=
          { dat := { dir := .output, out := false }
            clk := { dir := .output, out := false }
            hven := true
            vdden := true }
        txh := s.txh ++ [0x4B]
        events := s.events ++
          [.drive .dat false, .drive .clk false, .hold .entry, .level2 .hven true .vdden true,
            .hold .lvp]
          ++ wave (bitsMsb (0x4D : Byte) 8 ++ bitsMsb (0x43 : Byte) 8 ++ bitsMsb (0x48 : Byte) 8
            ++ bitsMsb (0x50 : Byte) 8)
          ++ [.tx 0x4B] }

/-- R164: `x`, byte 0x78, runs the exit sequence from every mode, sends nothing, and leaves `DISCONNECTED` and `UNSET`. -/
def Obligations.ExitEffect : Prop :=
  frameOf .exit = [0x78] ∧ ∀ s : State, s.Quiet →
    ∃ t, exec .exit s = .next t ∧ t.mode = .disconnected ∧ t.pc = none ∧ t.ctrl = .idle
      ∧ t.pins =
        { dat := { dir := .input, out := s.pins.dat.out }
          clk := { dir := .input, out := s.pins.clk.out }
          hven := true
          vdden := false }
      ∧ t.rxq = (if s.params.xDiscardsRx then [] else s.rxq)
      ∧ t.txh = s.txh
      ∧ t.events = s.events ++
        [.level .hven true, .hold .exit, .level .vdden false, .release .dat, .release .clk]

/-- 10_state R52: what `x` leaves in every field of the machine. That it also leaves the operands unset is
the model's reading of R52 beside R164 (assumption 17). -/
def Obligations.ExitLeavesResetRecord : Prop :=
  ∀ s : State, s.Quiet →
    exec .exit s = .next
      { s with
        mode := .disconnected
        pc := none
        ctrl := .idle
        argAddr := none
        argLen := none
        wbuf := []
        pins :=
          { dat := { s.pins.dat with dir := .input }
            clk := { s.pins.clk with dir := .input }
            hven := true
            vdden := false }
        rxq := if s.params.xDiscardsRx then [] else s.rxq
        events := s.events ++
          [.level .hven true, .hold .exit, .level .vdden false, .release .dat, .release .clk] }

/-- R166, 60_exceptions R225: an unknown byte, one byte long, replies 'U' and changes nothing else, in every mode. -/
def Obligations.UnknownByteReplies : Prop :=
  ∀ (s : State) (c : Byte), frameOf (.unknown c) = [c] ∧ (s.Quiet →
    exec (.unknown c) s = .next
      { s with ctrl := .idle, txh := s.txh ++ [0x55], events := s.events ++ [.tx 0x55] })

/-- R168: `MODE` after each command by the mode before it, whatever the host sends meanwhile, unless the host
overfills `RXQ`; `r`, `w`, `e` and `b` in `DISCONNECTED` are refused. That they are so marked whatever the host
sends meanwhile, no host byte falling before the guard's refusal, is the model's choice (assumption 24). -/
def Obligations.ModeAfterEachCommand : Prop :=
  ∀ (i : Instr) (s t : State), .deviceReset ∉ s.inputs → exec i s = .next t →
    (t.mode = modeAfter i s.mode ∨ t.refused = some .rxOverflow)
    ∧ (isGuarded i = true → s.mode = .disconnected →
        t.refused = some .cmdWhileDisconnected ∧ t.mode = .disconnected)

/-! ### ICSP commands -/

/-- R130: ICSP_LOAD_PC clocks `0x80`, the gap, the payload of `w`, the gap, and sets the mirror to `w`. -/
def Obligations.LoadPcEffect : Prop :=
  ∀ (s : State) (w : Word), s.Quiet →
    exec (.icspLoadPc w) s = .next
      { s with
        pc := some w
        pins :=
          { s.pins with
            dat := { s.pins.dat with out := false }
            clk := { s.pins.clk with out := false } }
        events := s.events ++ wave (bitsMsb (0x80 : Byte) 8) ++ [.hold .dly]
          ++ wave (List.replicate 7 false ++ bitsMsb w 16 ++ [false]) ++ [.hold .dly] }

/-- R131, 10_state R33: ICSP_READ_DATA_INC clocks `0xFE`, releases the data line, takes 16 samples between 7
and 1 unsampled clocks, and increments the mirror, `UNSET` staying `UNSET`; the word is the 16 samples. -/
def Obligations.ReadDataIncEffect : Prop :=
  ∀ s : State, s.Quiet →
    exec .icspReadDataInc s = .next
      { s with
        pc := match s.pc with
          | some p => some (p + 1)
          | none => none
        pins :=
          { s.pins with
            dat := { dir := .input, out := false }
            clk := { s.pins.clk with out := false } }
        shiftReg := wordFrom s.answers s.draws
        draws := s.draws + 16
        events := s.events ++ wave (bitsMsb (0xFE : Byte) 8) ++ [.hold .dly, .release .dat]
          ++ (List.replicate 7 inClock).flatten ++ (answersFrom s.answers s.draws 16).flatMap inCell
          ++ inClock }

/-- R132, 10_state R33: ICSP_LOAD_DATA_INC clocks `0x02` and the payload of all 16 bits of `w`, and increments
the mirror modulo 2^16, `UNSET` staying `UNSET`. -/
def Obligations.LoadDataIncEffect : Prop :=
  ∀ (s : State) (w : Word), s.Quiet →
    exec (.icspLoadDataInc w) s = .next
      { s with
        pc := match s.pc with
          | some p => some (p + 1)
          | none => none
        pins :=
          { s.pins with
            dat := { s.pins.dat with out := false }
            clk := { s.pins.clk with out := false } }
        events := s.events ++ wave (bitsMsb (0x02 : Byte) 8) ++ [.hold .dly]
          ++ wave (List.replicate 7 false ++ bitsMsb w 16 ++ [false]) ++ [.hold .dly] }

/-- R133: ICSP_LOAD_DATA clocks `0x00` and the payload of `w`, and leaves the mirror. -/
def Obligations.LoadDataEffect : Prop :=
  ∀ (s : State) (w : Word), s.Quiet →
    exec (.icspLoadData w) s = .next
      { s with
        pins :=
          { s.pins with
            dat := { s.pins.dat with out := false }
            clk := { s.pins.clk with out := false } }
        events := s.events ++ wave (bitsMsb (0x00 : Byte) 8) ++ [.hold .dly]
          ++ wave (List.replicate 7 false ++ bitsMsb w 16 ++ [false]) ++ [.hold .dly] }

/-- R134: ICSP_BEGIN_PROG clocks `0xE0` and holds `T_WRITE`; the mirror stays. -/
def Obligations.BeginProgEffect : Prop :=
  ∀ s : State, s.Quiet →
    exec .icspBeginProg s = .next
      { s with
        pins :=
          { s.pins with
            dat := { s.pins.dat with out := false }
            clk := { s.pins.clk with out := false } }
        events := s.events ++ wave [true, true, true, false, false, false, false, false]
          ++ [.hold .write] }

/-- R135: ICSP_ROW_ERASE clocks `0xF0` and holds `T_ERASE`; the mirror stays. -/
def Obligations.RowEraseEffect : Prop :=
  ∀ s : State, s.Quiet →
    exec .icspRowErase s = .next
      { s with
        pins :=
          { s.pins with
            dat := { s.pins.dat with out := false }
            clk := { s.pins.clk with out := false } }
        events := s.events ++ wave [true, true, true, true, false, false, false, false]
          ++ [.hold .erase] }

/-- R136: ICSP_BULK_ERASE clocks `0x18` and holds `T_ERASE`; the mirror stays. -/
def Obligations.BulkEraseEffect : Prop :=
  ∀ s : State, s.Quiet →
    exec .icspBulkErase s = .next
      { s with
        pins :=
          { s.pins with
            dat := { s.pins.dat with out := false }
            clk := { s.pins.clk with out := false } }
        events := s.events ++ wave [false, false, false, true, true, false, false, false]
          ++ [.hold .erase] }

/-- R123, 30_encoding R98: the key is 32 clocks, 'M' first, each byte most significant bit first, with no
framing bits and no hold. -/
def Obligations.LvpKeyEffect : Prop :=
  ∀ s : State, s.Quiet →
    exec .lvpKey s = .next
      { s with
        pins :=
          { s.pins with
            dat := { s.pins.dat with out := false }
            clk := { s.pins.clk with out := false } }
        events := s.events ++ wave (bitsMsb (0x4D : Byte) 8 ++ bitsMsb (0x43 : Byte) 8
          ++ bitsMsb (0x48 : Byte) 8 ++ bitsMsb (0x50 : Byte) 8) }

/-- 30_encoding R95 to R98: the bits an ICSP command puts on the data line, one a clock, are its encoded
field. -/
def Obligations.IcspWaveCarriesField : Prop :=
  ∀ (s : State) (i : Instr), s.Quiet → i.isWire = false →
    ∃ t es, exec i s = .next t ∧ t.events = s.events ++ es ∧ outBits es = fieldOf i

/-! ### Read block -/

/-- R180, R182, R184, 30_encoding R87: `r` loads the PC, reads `len` words, sends the two bytes of each,
high byte first, before the data line is driven again, and leaves `PC = addr + len` modulo 2^16; no 'K'. -/
def Obligations.ReadBlockEffect : Prop :=
  ∀ (s : State) (addr len : Word), s.Quiet → s.mode ≠ .disconnected →
    exec (.read addr len) s = .next
      { s with
        ctrl := .idle
        argAddr := some addr
        argLen := some len
        pc := some (addr + len)
        pins :=
          { s.pins with
            dat := { dir := if len = 0 then s.pins.dat.dir else .output, out := false }
            clk := { s.pins.clk with out := false } }
        shiftReg := (wordsFrom s.answers s.draws len.toNat).getLastD s.shiftReg
        draws := s.draws + 16 * len.toNat
        txh := s.txh ++ bytesOfWords (wordsFrom s.answers s.draws len.toNat)
        events := s.events ++ payloadWave 0x80 addr
          ++ readLoopWave s.answers s.draws len.toNat }

/-- R181: an `r` with `len = 0` loads the PC, 32 clocks, and sends no byte at all. -/
def Obligations.ReadOfNoWords : Prop :=
  ∀ (s : State) (addr : Word), s.Quiet → s.mode ≠ .disconnected →
    ∃ t es, exec (.read addr 0) s = .next t ∧ t.events = s.events ++ es
      ∧ es = payloadWave 0x80 addr ∧ clocks es = 32 ∧ t.txh = s.txh ∧ t.pc = some addr
      ∧ t.ctrl = .idle

/-- 30_encoding R99, 42_read R186: bit `15 - k` of the word that ICSP_READ_DATA_INC leaves is the target's answer
to sample `k` of its sixteen, and so is bit `15 - k` of each word that `r` sends, with no mask and no inversion:
the answer given as data where there is one, else the free value (assumption 3). -/
def Obligations.SampledBitsAreTheWord : Prop :=
  (∀ (s : State) (k : Nat), s.Quiet → k < 16 →
    ∃ t, exec .icspReadDataInc s = .next t
      ∧ t.shiftReg.getLsbD (15 - k)
        = (s.answers[s.draws + k]?).getD (Config.targetBit (s.draws + k)))
  ∧ (∀ (s : State) (addr len : Word) (n k : Nat), s.Quiet → s.mode ≠ .disconnected →
    n < len.toNat → k < 16 →
    ∃ t bytes w, exec (.read addr len) s = .next t ∧ t.txh = s.txh ++ bytes
      ∧ bytes.length = 2 * len.toNat ∧ (wordsOfBytes bytes)[n]? = some w
      ∧ w.getLsbD (15 - k)
        = (s.answers[s.draws + 16 * n + k]?).getD (Config.targetBit (s.draws + 16 * n + k)))

/-! ### Write block and erases -/

/-- R190, R195: `w` with its data at hand takes `2·len` bytes, fills `WBUF`, loads the PC, erases the row,
loads every word but the last with increment, starts the timed write and replies 'K'; `PC` ends at
`addr + len - 1` modulo 2^16. A step that finds `w` waiting in its data, with some bytes held and the missing
ones at hand, does the same with the held bytes first. -/
def Obligations.WriteBlockEffect : Prop :=
  (∀ (s : State) (addr len : Word), s.Quiet → s.mode ≠ .disconnected → len ≠ 0 →
    len.toNat ≤ s.params.wbufWords → 2 * len.toNat ≤ s.rxq.length →
    exec (.write addr len) s = .next
      { s with
        ctrl := .idle
        argAddr := some addr
        argLen := some len
        wbuf := wordsOfBytes (s.rxq.take (2 * len.toNat))
        got := []
        rxq := s.rxq.drop (2 * len.toNat)
        pc := some (addr + len - 1)
        pins :=
          { s.pins with
            dat := { s.pins.dat with out := false }
            clk := { s.pins.clk with out := false } }
        txh := s.txh ++ [0x4B]
        events := s.events ++ (s.rxq.take (2 * len.toNat)).map .rx ++ payloadWave 0x80 addr
          ++ commandWave 0xF0 .erase ++ loadWave (wordsOfBytes (s.rxq.take (2 * len.toNat)))
          ++ commandWave 0xE0 .write ++ [.tx 0x4B] })
  ∧ (∀ (s : State) (c : Byte) (addr len : Word) (need : Nat), s.Quiet →
    s.ctrl = .busy c (.data addr len) → len ≠ 0 → s.got.length + need = 2 * len.toNat →
    need ≤ s.rxq.length →
    step s = .next
      { s with
        ctrl := .idle
        wbuf := wordsOfBytes (s.got ++ s.rxq.take need)
        got := []
        rxq := s.rxq.drop need
        pc := some (addr + len - 1)
        pins :=
          { s.pins with
            dat := { s.pins.dat with out := false }
            clk := { s.pins.clk with out := false } }
        txh := s.txh ++ [0x4B]
        events := s.events ++ (s.rxq.take need).map .rx ++ payloadWave 0x80 addr
          ++ commandWave 0xF0 .erase ++ loadWave (wordsOfBytes (s.got ++ s.rxq.take need))
          ++ commandWave 0xE0 .write ++ [.tx 0x4B] })

/-- R196: a `w` of one word loads the PC, erases the row, loads the word without increment and starts the
write; `PC = addr` after. -/
def Obligations.WriteOfOneWord : Prop :=
  ∀ (s : State) (addr : Word) (d0 d1 : Byte) (q : List Byte), s.Quiet → s.mode ≠ .disconnected →
    1 ≤ s.params.wbufWords → s.rxq = d0 :: d1 :: q →
    ∃ t, exec (.write addr 1) s = .next t ∧ t.pc = some addr ∧ t.rxq = q
      ∧ t.events = s.events ++ [.rx d0, .rx d1] ++ payloadWave 0x80 addr
        ++ commandWave 0xF0 .erase ++ payloadWave 0x00 (d0 ++ d1) ++ commandWave 0xE0 .write
        ++ [.tx 0x4B]

/-- R190: with nothing from outside, a `w` whose data bytes are not all there takes those that are and waits
for the rest, with no ICSP event. -/
def Obligations.WriteWaitsForItsData : Prop :=
  ∀ (s : State) (addr len : Word), s.Quiet → s.mode ≠ .disconnected →
    len.toNat ≤ s.params.wbufWords → s.rxq.length < 2 * len.toNat →
    exec (.write addr len) s = .next
      { s with
        ctrl := .busy 0x77 (.data addr len)
        argAddr := some addr
        argLen := some len
        got := s.rxq
        rxq := []
        events := s.events ++ s.rxq.map .rx }

/-- R191, R190, 60_exceptions R228: a `w` of no words and a `w` longer than the write buffer are refused
after the arguments and before any data byte. That this holds whatever the script, nothing from outside falling
between the last argument byte and the refusal, is the model's choice (assumption 24). -/
def Obligations.WriteLengthRefusals : Prop :=
  ∀ (s : State) (addr len : Word), s.refused = none → s.mode ≠ .disconnected →
    (len = 0 → exec (.write addr len) s = .next
      { s with
        ctrl := .idle, argAddr := some addr, argLen := some len, refused := some .writeLenZero })
    ∧ (s.params.wbufWords < len.toNat → len ≠ 0 → exec (.write addr len) s = .next
      { s with
        ctrl := .idle, argAddr := some addr, argLen := some len, refused := some .writeTooLong })

/-- R192, R199: `e` loads the PC with the address as given, erases the row, waits, and replies 'K';
`PC = addr` after, and only `ARG_ADDR` is latched. -/
def Obligations.EraseRowEffect : Prop :=
  ∀ (s : State) (addr : Word), s.Quiet → s.mode ≠ .disconnected →
    exec (.eraseRow addr) s = .next
      { s with
        ctrl := .idle
        argAddr := some addr
        pc := some addr
        pins :=
          { s.pins with
            dat := { s.pins.dat with out := false }
            clk := { s.pins.clk with out := false } }
        txh := s.txh ++ [0x4B]
        events := s.events ++ payloadWave 0x80 addr ++ commandWave 0xF0 .erase ++ [.tx 0x4B] }

/-- R194, R199: `b` loads the PC with the address as given, bulk-erases, waits, and replies 'K';
`PC = addr` after, and only `ARG_ADDR` is latched. -/
def Obligations.BulkEraseBlockEffect : Prop :=
  ∀ (s : State) (addr : Word), s.Quiet → s.mode ≠ .disconnected →
    exec (.bulkErase addr) s = .next
      { s with
        ctrl := .idle
        argAddr := some addr
        pc := some addr
        pins :=
          { s.pins with
            dat := { s.pins.dat with out := false }
            clk := { s.pins.clk with out := false } }
        txh := s.txh ++ [0x4B]
        events := s.events ++ payloadWave 0x80 addr ++ commandWave 0x18 .erase ++ [.tx 0x4B] }

/-! ### Frames and whole-machine rules -/

/-- What each instruction leaves unchanged, whatever comes from outside but a reset: the parameters, `MODE`,
`HVEN`, `VDDEN`, `PC` (10_state R32), the operands (R36), `WBUF` (R40), the reply stream. -/
def Obligations.FrameOfEachInstruction : Prop :=
  ∀ (i : Instr) (s t : State), .deviceReset ∉ s.inputs → exec i s = .next t →
    t.params = s.params ∧ t.answers = s.answers ∧ t.resets = s.resets
    ∧ (i ≠ .enterHv → i ≠ .enterLvp → i ≠ .exit →
        t.mode = s.mode ∧ t.pins.hven = s.pins.hven ∧ t.pins.vdden = s.pins.vdden)
    ∧ (i = .enterHv ∨ i = .enterLvp ∨ (∃ c, i = .unknown c) ∨ (∃ w, i = .icspLoadData w)
        ∨ i = .icspBeginProg ∨ i = .icspRowErase ∨ i = .icspBulkErase ∨ i = .lvpKey → t.pc = s.pc)
    ∧ (isGuarded i = false → i ≠ .exit → t.argAddr = s.argAddr ∧ t.argLen = s.argLen)
    ∧ ((∃ a, i = .eraseRow a) ∨ (∃ a, i = .bulkErase a) → t.argLen = s.argLen)
    ∧ ((∀ a n, i ≠ .write a n) → t.got = s.got ∧ (i ≠ .exit → t.wbuf = s.wbuf))
    ∧ ((∀ a n, i ≠ .read a n) → i ≠ .icspReadDataInc →
        t.shiftReg = s.shiftReg ∧ t.draws = s.draws)
    ∧ (i.isWire = false → t.txh = s.txh)
    ∧ ((∃ c, i = .unknown c) → t.pins = s.pins)

/-- 10_state R49: no step, and no reset, changes the parameters. -/
def Obligations.StepKeepsParameters : Prop :=
  ∀ s t : State, (step s = .next t ∨ eventStep s = .next t) → t.params = s.params

/-- 10_state R44, R46, 60_exceptions R230: bytes sent and events recorded are never taken back, not even by a
reset. -/
def Obligations.HistoriesOnlyGrow : Prop :=
  ∀ s t : State, (step s = .next t ∨ eventStep s = .next t) →
    s.txh <+: t.txh ∧ s.events <+: t.events

/-- 10_state R44, R46: every byte sent is recorded as sent: `TXH` is the `Tx` events of `EVENTS`, an invariant
of every step. -/
def Obligations.StepKeepsSentHistory : Prop :=
  ∀ s t : State, s.txh = sentBytes s.events → (step s = .next t ∨ eventStep s = .next t) →
    t.txh = sentBytes t.events

/-- The invariant of 10_state R40, R42 and 40_pulse_generator R119, R115 (see `State.Inv`) is kept by every
step, whatever comes from outside. That an overflow leaves `CTRL` in its place is the model's reading
(assumption 7). -/
def Obligations.StepKeepsInvariant : Prop :=
  ∀ s t : State, s.Inv → step s = .next t → t.Inv

/-- The invariants hold right after reset. -/
def Obligations.ResetMeetsInvariants : Prop :=
  State.reset.Inv ∧ State.reset.PlaceOk ∧ State.reset.txh = sentBytes State.reset.events

/-- 10_state R41, 20_memory R73: `RXQ` is a FIFO: what was queued and what the host sends is, in order, what
is taken and recorded, what is left queued and what the host has still to send. A reset, an overflow and a
discarding `x` are left out: those drop bytes. -/
def Obligations.ReceiveQueueIsFifo : Prop :=
  ∀ s t : State, .deviceReset ∉ s.inputs → s.params.xDiscardsRx = false → step s = .next t →
    t.refused ≠ some .rxOverflow →
    ∃ es, t.events = s.events ++ es
      ∧ s.rxq ++ scriptBytes s.inputs = takenBytes es ++ t.rxq ++ scriptBytes t.inputs

/-- In the sense of 10_state R34, a handler under way always has a move left or a byte of a field missing
(`State.PlaceOk`): every step and every single move keeps it. It rests on the model's choice that
`CTRL <- IDLE` is bound to the last move, and entering the handler and filling `WBUF` to the last byte
(assumption 24), and on its reading that the writes of a handler that are no events count as moves
(assumption 20). -/
def Obligations.BusyHandlerHasWorkLeft : Prop :=
  ∀ s t : State, s.PlaceOk → (step s = .next t ∨ eventStep s = .next t) → t.PlaceOk

/-- 41_dispatch_and_mode R155, D36: a step is a run of single events: what `step` answers is reached by moves of
one agent each, so a reset and the host can fall between any two. The grain of a step is the model's choice
(assumption 1); which changes are moves of their own is the model's too (assumptions 20 and 24). The premise is the
invariant of `BusyHandlerHasWorkLeft`. -/
def Obligations.StepIsARunOfEvents : Prop :=
  ∀ s : State, s.refused = none → s.PlaceOk → ∃ n, step s = .next (eventSteps n s)

/-- 10_state R43: the sequencer's events do not depend on when the host's bytes arrive, only on their order:
two scripts of the same bytes, with room for them and no timeout, lead to the same state, but for which bytes
have already been queued. (With `X_DISCARDS_RX` an `x` would tell the scripts apart.) -/
def Obligations.HostTimingIsInvisible : Prop :=
  ∀ (s tA tB : State) (A B : List Stimulus),
    (∀ st ∈ A ++ B, st = .run ∨ ∃ b, st = .hostByte b) → scriptBytes A = scriptBytes B →
    s.rxq.length + (scriptBytes A).length ≤ s.params.rxCap → s.params.xDiscardsRx = false →
    step { s with inputs := A } = .next tA → step { s with inputs := B } = .next tB →
    { tA with rxq := tA.rxq ++ scriptBytes tA.inputs, inputs := [] }
      = { tB with rxq := tB.rxq ++ scriptBytes tB.inputs, inputs := [] }

/-- 30_encoding R80, 60_exceptions R228: an instruction other than `r` sends at most one byte, and that byte
is 'K', 'D' or 'U' ('A' is the dispatcher's), whatever comes from outside. -/
def Obligations.AtMostOneReplyCode : Prop :=
  ∀ (i : Instr) (s t : State), (∀ a n, i ≠ .read a n) → exec i s = .next t →
    t.txh = s.txh ∨ ∃ b ∈ [(0x4B : Byte), 0x44, 0x55], t.txh = s.txh ++ [b]

/-! ### Counts and times -/

/-- 40_pulse_generator R127: the clocks of each ICSP command and of each handler, and the 16 samples of
ICSP_READ_DATA_INC. -/
def Obligations.ClockTotals : Prop :=
  ∀ (s t : State) (i : Instr) (es : List Event), s.Quiet →
    (isGuarded i = true → s.mode ≠ .disconnected) →
    (∀ a n, i = .write a n → n ≠ 0 ∧ n.toNat ≤ s.params.wbufWords ∧ 2 * n.toNat ≤ s.rxq.length) →
    exec i s = .next t → t.events = s.events ++ es →
    (i = .icspReadDataInc → samples es = 16) ∧ clocks es = match i with
      | .enterHv => 0
      | .enterLvp => 32
      | .exit => 0
      | .read _ n => 32 + 32 * n.toNat
      | .write _ n => 48 + 32 * n.toNat
      | .eraseRow _ => 40
      | .bulkErase _ => 40
      | .unknown _ => 0
      | .icspLoadPc _ => 32
      | .icspReadDataInc => 32
      | .icspLoadDataInc _ => 32
      | .icspLoadData _ => 32
      | .icspBeginProg => 8
      | .icspRowErase => 8
      | .icspBulkErase => 8
      | .lvpKey => 32

/-- 70_reset_and_hazards R263, 40_pulse_generator R125: the least time to the reply of `s`, `l`, `e`, `b` and `w`,
and of `x`, which replies nothing, under any delay table; the table's times in microseconds for every delay table
that meets the document's minima; and the machine that `State.reset` describes has the document's values. -/
def Obligations.LeastTimesToReply : Prop :=
  (∀ (s t : State) (i : Instr) (es : List Event), s.Quiet →
    (isGuarded i = true → s.mode ≠ .disconnected) →
    exec i s = .next t → t.events = s.events ++ es →
    (i = .enterHv → 2 * s.params.timing.tEntry ≤ leastMicros s.params.timing es
      ∧ (s.params.timing.MeetsGiven → 520 ≤ leastMicros s.params.timing es))
    ∧ (i = .enterLvp →
      s.params.timing.tEntry + s.params.timing.tLvp ≤ leastMicros s.params.timing es
      ∧ (s.params.timing.MeetsGiven → 1260 ≤ leastMicros s.params.timing es))
    ∧ (i = .exit → s.params.timing.tExit ≤ leastMicros s.params.timing es)
    ∧ ((∃ a, i = .eraseRow a) ∨ (∃ a, i = .bulkErase a) →
      s.params.timing.tErase ≤ leastMicros s.params.timing es
      ∧ (s.params.timing.MeetsGiven → 3000 ≤ leastMicros s.params.timing es))
    ∧ (∀ a n, i = .write a n → n ≠ 0 → n.toNat ≤ s.params.wbufWords →
        2 * n.toNat ≤ s.rxq.length →
      s.params.timing.tErase + s.params.timing.tWrite ≤ leastMicros s.params.timing es
      ∧ (s.params.timing.MeetsGiven → 8000 ≤ leastMicros s.params.timing es)))
  ∧ State.reset.params.timing.tEntry = 260 ∧ State.reset.params.timing.tLvp = 1000
  ∧ State.reset.params.timing.tExit = 260 ∧ State.reset.params.timing.tWrite = 5000
  ∧ State.reset.params.timing.tErase = 3000

/-! ### Encodings -/

/-- 30_encoding R82 to R85: decoding an encoded wire command gives it back, with every operand value, and
leaves the bytes after it. -/
def Obligations.FrameDecodesToItsInstruction : Prop :=
  ∀ (i : Instr) (rest : List Byte), i.isWire = true → i.wellFormed = true →
    decodeFrame (frameOf i ++ rest) = .ok (i, rest)

/-- 30_encoding R95 to R98: decoding an encoded ICSP command gives it back, with every data value, and leaves
the bits after it. -/
def Obligations.FieldDecodesToItsInstruction : Prop :=
  ∀ (i : Instr) (rest : List Bool), i.isWire = false →
    decodeField (fieldOf i ++ rest) = .ok (i, rest)

/-- 30_encoding R82, R90: each frame has one meaning: bytes that decode to an instruction are its encoding,
and the instruction is a well-formed wire command. -/
def Obligations.DecodedFrameIsItsEncoding : Prop :=
  ∀ (bs rest : List Byte) (i : Instr), decodeFrame bs = .ok (i, rest) →
    bs = frameOf i ++ rest ∧ i.isWire = true ∧ i.wellFormed = true

/-- 30_encoding R95 to R98, R100: each ICSP field has one meaning: bits that decode to a command are its
encoding; no other opcode and no other framing decodes. -/
def Obligations.DecodedFieldIsItsEncoding : Prop :=
  ∀ (bits rest : List Bool) (i : Instr), decodeField bits = .ok (i, rest) →
    bits = fieldOf i ++ rest ∧ i.isWire = false

/-- 30_encoding R93: wire decoding is total: every command byte followed by four bytes decodes. -/
def Obligations.FrameDecodingIsTotal : Prop :=
  ∀ bs : List Byte, 5 ≤ bs.length → ∃ i rest, decodeFrame bs = .ok (i, rest)

/-- 30_encoding R90: every byte but the seven of R81 is unknown, is one byte long, and as the next byte gets
'U' with the state otherwise unchanged. -/
def Obligations.OtherBytesAreUnknown : Prop :=
  ∀ (s : State) (c : Byte) (q : List Byte), c ∉ [(0x73 : Byte), 0x6C, 0x78, 0x72, 0x77, 0x65, 0x62] →
    decodeFrame (c :: q) = .ok (.unknown c, q)
    ∧ (s.Quiet → s.ctrl = .idle → s.rxq = c :: q →
      step s = .next
        { s with
          rxq := q
          got := []
          txh := s.txh ++ [0x55]
          events := s.events ++ [.rx c, .tx 0x55] })

/-- 30_encoding R86, 20_memory R64: `2·len` data bytes assemble into `len` words, word `i` from bytes `2i` and
`2i + 1`, and sending the words gives the bytes back. -/
def Obligations.DataBytesAssembleBigEndian : Prop :=
  (∀ (bs : List Byte) (n i : Nat), bs.length = 2 * n → i < n →
    (wordsOfBytes bs)[i]? = some (bs.getD (2 * i) 0 ++ bs.getD (2 * i + 1) 0))
  ∧ (∀ bs : List Byte, bs.length % 2 = 0 → bytesOfWords (wordsOfBytes bs) = bs)
  ∧ (∀ ws : List Word, wordsOfBytes (bytesOfWords ws) = ws)

/-- Words written out from the tables of 30_encoding (R81, R84, R95 to R98) decode to their instructions. -/
def Obligations.WrittenOutWordsDecode : Prop :=
  decodeFrame [0x73] = .ok (.enterHv, []) ∧ decodeFrame [0x6C] = .ok (.enterLvp, [])
  ∧ decodeFrame [0x78] = .ok (.exit, [])
  ∧ decodeFrame [0x72, 0x12, 0x34, 0x00, 0x05] = .ok (.read 0x1234 5, [])
  ∧ decodeFrame [0x77, 0x80, 0x00, 0xFF, 0xFF, 0xAA] = .ok (.write 0x8000 0xFFFF, [0xAA])
  ∧ decodeFrame [0x62, 0x80, 0xFF] = .ok (.bulkErase 0x80FF, [])
  ∧ decodeField [true, true, true, true, true, true, true, false] = .ok (.icspReadDataInc, [])

/-- 30_encoding R104: the frame a host operation expands to decodes to the command it stands for, with the
data words of a write after it. For more than 65535 words the count modulo 2^16 is the model's choice
(assumption 23). -/
def Obligations.HostOperationsExpandToFrames : Prop :=
  decodeFrame HostOp.connect.frame = .ok (.enterHv, [])
  ∧ decodeFrame HostOp.disconnect.frame = .ok (.exit, [])
  ∧ (∀ a n, decodeFrame (HostOp.readBlock a n).frame = .ok (.read a n, []))
  ∧ (∀ a, decodeFrame (HostOp.eraseRow a).frame = .ok (.eraseRow a, []))
  ∧ (∀ a, decodeFrame (HostOp.bulkErase a).frame = .ok (.bulkErase a, []))
  ∧ (∀ a ws, decodeFrame (HostOp.writeBlock a ws).frame
      = .ok (.write a (BitVec.ofNat 16 ws.length), bytesOfWords ws))

/-! ### The end of a run -/

/-- 70_reset_and_hazards R264, 30_encoding R104, 60_exceptions R238: a host operation whose frame is queued in a
run that had ended well, the host having read all of `TXH`, ends well again: the host accepts the reply. Its
duties (R262) are premises: connected before `r`, `w`, `e` and `b`, and 1 to `WBUF_WORDS` words in a write. -/
def Obligations.HostOperationsEndWell : Prop :=
  ∀ (s : State) (h : HostRun) (op : HostOp), s.EndsWell h → h.read = s.txh → s.inputs = [] →
    (op = .connect ∨ op = .disconnect ∨ s.mode ≠ .disconnected) →
    (∀ a ws, op = .writeBlock a ws →
      ws ≠ [] ∧ ws.length ≤ s.params.wbufWords ∧ ws.length < 65536) →
    ∃ t reply ws, step { s with rxq := op.frame } = .next t ∧ t.txh = s.txh ++ reply
      ∧ op.verdict reply = .success ws ∧ t.EndsWell (h.exchange op.hostFrame reply)
end

