-- ==== Sys2Proof/Laws/State.lean ====
section
/-!
SUPPORT. What each named update leaves in each field: one lemma per field per update.
-/

namespace Sys2Proof.Machine

variable (s : State)

/-! ### `record` -/

@[simp] theorem State.record_mode (ev : Event) : (s.record ev).mode = s.mode := rfl

@[simp] theorem State.record_pc (ev : Event) : (s.record ev).pc = s.pc := rfl

@[simp] theorem State.record_ctrl (ev : Event) : (s.record ev).ctrl = s.ctrl := rfl

@[simp] theorem State.record_argAddr (ev : Event) : (s.record ev).argAddr = s.argAddr := rfl

@[simp] theorem State.record_argLen (ev : Event) : (s.record ev).argLen = s.argLen := rfl

@[simp] theorem State.record_wbuf (ev : Event) : (s.record ev).wbuf = s.wbuf := rfl

@[simp] theorem State.record_pins (ev : Event) : (s.record ev).pins = s.pins := rfl

@[simp] theorem State.record_rxq (ev : Event) : (s.record ev).rxq = s.rxq := rfl

@[simp] theorem State.record_txh (ev : Event) : (s.record ev).txh = s.txh := rfl

@[simp] theorem State.record_events (ev : Event) : (s.record ev).events = s.events ++ [ev] := rfl

@[simp] theorem State.record_refused (ev : Event) : (s.record ev).refused = s.refused := rfl

@[simp] theorem State.record_shiftReg (ev : Event) : (s.record ev).shiftReg = s.shiftReg := rfl

@[simp] theorem State.record_got (ev : Event) : (s.record ev).got = s.got := rfl

@[simp] theorem State.record_inputs (ev : Event) : (s.record ev).inputs = s.inputs := rfl

@[simp] theorem State.record_answers (ev : Event) : (s.record ev).answers = s.answers := rfl

@[simp] theorem State.record_draws (ev : Event) : (s.record ev).draws = s.draws := rfl

@[simp] theorem State.record_resets (ev : Event) : (s.record ev).resets = s.resets := rfl

@[simp] theorem State.record_params (ev : Event) : (s.record ev).params = s.params := rfl

/-! ### `txPut` -/

@[simp] theorem State.txPut_mode (b : Byte) : (s.txPut b).mode = s.mode := rfl

@[simp] theorem State.txPut_pc (b : Byte) : (s.txPut b).pc = s.pc := rfl

@[simp] theorem State.txPut_ctrl (b : Byte) : (s.txPut b).ctrl = s.ctrl := rfl

@[simp] theorem State.txPut_argAddr (b : Byte) : (s.txPut b).argAddr = s.argAddr := rfl

@[simp] theorem State.txPut_argLen (b : Byte) : (s.txPut b).argLen = s.argLen := rfl

@[simp] theorem State.txPut_wbuf (b : Byte) : (s.txPut b).wbuf = s.wbuf := rfl

@[simp] theorem State.txPut_pins (b : Byte) : (s.txPut b).pins = s.pins := rfl

@[simp] theorem State.txPut_rxq (b : Byte) : (s.txPut b).rxq = s.rxq := rfl

@[simp] theorem State.txPut_txh (b : Byte) : (s.txPut b).txh = s.txh ++ [b] := rfl

@[simp] theorem State.txPut_events (b : Byte) : (s.txPut b).events = s.events ++ [.tx b] := rfl

@[simp] theorem State.txPut_refused (b : Byte) : (s.txPut b).refused = s.refused := rfl

@[simp] theorem State.txPut_shiftReg (b : Byte) : (s.txPut b).shiftReg = s.shiftReg := rfl

@[simp] theorem State.txPut_got (b : Byte) : (s.txPut b).got = s.got := rfl

@[simp] theorem State.txPut_inputs (b : Byte) : (s.txPut b).inputs = s.inputs := rfl

@[simp] theorem State.txPut_answers (b : Byte) : (s.txPut b).answers = s.answers := rfl

@[simp] theorem State.txPut_draws (b : Byte) : (s.txPut b).draws = s.draws := rfl

@[simp] theorem State.txPut_resets (b : Byte) : (s.txPut b).resets = s.resets := rfl

@[simp] theorem State.txPut_params (b : Byte) : (s.txPut b).params = s.params := rfl

/-! ### `sample` -/

@[simp] theorem State.sample_mode : (s.sample).mode = s.mode := rfl

@[simp] theorem State.sample_pc : (s.sample).pc = s.pc := rfl

@[simp] theorem State.sample_ctrl : (s.sample).ctrl = s.ctrl := rfl

@[simp] theorem State.sample_argAddr : (s.sample).argAddr = s.argAddr := rfl

@[simp] theorem State.sample_argLen : (s.sample).argLen = s.argLen := rfl

@[simp] theorem State.sample_wbuf : (s.sample).wbuf = s.wbuf := rfl

@[simp] theorem State.sample_pins : (s.sample).pins = s.pins := rfl

@[simp] theorem State.sample_rxq : (s.sample).rxq = s.rxq := rfl

@[simp] theorem State.sample_txh : (s.sample).txh = s.txh := rfl

@[simp] theorem State.sample_events :
    (s.sample).events = s.events ++ [.sample s.nextBit] := rfl

@[simp] theorem State.sample_refused : (s.sample).refused = s.refused := rfl

@[simp] theorem State.sample_shiftReg :
    (s.sample).shiftReg = s.shiftReg.shiftConcat s.nextBit := rfl

@[simp] theorem State.sample_got : (s.sample).got = s.got := rfl

@[simp] theorem State.sample_inputs : (s.sample).inputs = s.inputs := rfl

@[simp] theorem State.sample_answers : (s.sample).answers = s.answers := rfl

@[simp] theorem State.sample_draws : (s.sample).draws = s.draws + 1 := rfl

@[simp] theorem State.sample_resets : (s.sample).resets = s.resets := rfl

@[simp] theorem State.sample_params : (s.sample).params = s.params := rfl

/-! ### `mark` -/

@[simp] theorem State.mark_mode (r : Reason) : (s.mark r).mode = s.mode := rfl

@[simp] theorem State.mark_pc (r : Reason) : (s.mark r).pc = s.pc := rfl

@[simp] theorem State.mark_ctrl (r : Reason) : (s.mark r).ctrl = s.ctrl := rfl

@[simp] theorem State.mark_argAddr (r : Reason) : (s.mark r).argAddr = s.argAddr := rfl

@[simp] theorem State.mark_argLen (r : Reason) : (s.mark r).argLen = s.argLen := rfl

@[simp] theorem State.mark_wbuf (r : Reason) : (s.mark r).wbuf = s.wbuf := rfl

@[simp] theorem State.mark_pins (r : Reason) : (s.mark r).pins = s.pins := rfl

@[simp] theorem State.mark_rxq (r : Reason) : (s.mark r).rxq = s.rxq := rfl

@[simp] theorem State.mark_txh (r : Reason) : (s.mark r).txh = s.txh := rfl

@[simp] theorem State.mark_events (r : Reason) : (s.mark r).events = s.events := rfl

@[simp] theorem State.mark_refused (r : Reason) : (s.mark r).refused = some r := rfl

@[simp] theorem State.mark_shiftReg (r : Reason) : (s.mark r).shiftReg = s.shiftReg := rfl

@[simp] theorem State.mark_got (r : Reason) : (s.mark r).got = s.got := rfl

@[simp] theorem State.mark_inputs (r : Reason) : (s.mark r).inputs = s.inputs := rfl

@[simp] theorem State.mark_answers (r : Reason) : (s.mark r).answers = s.answers := rfl

@[simp] theorem State.mark_draws (r : Reason) : (s.mark r).draws = s.draws := rfl

@[simp] theorem State.mark_resets (r : Reason) : (s.mark r).resets = s.resets := rfl

@[simp] theorem State.mark_params (r : Reason) : (s.mark r).params = s.params := rfl

/-! ### `refuse` -/

@[simp] theorem State.refuse_mode (r : Reason) : (s.refuse r).mode = s.mode := rfl

@[simp] theorem State.refuse_pc (r : Reason) : (s.refuse r).pc = s.pc := rfl

@[simp] theorem State.refuse_ctrl (r : Reason) : (s.refuse r).ctrl = .idle := rfl

@[simp] theorem State.refuse_argAddr (r : Reason) : (s.refuse r).argAddr = s.argAddr := rfl

@[simp] theorem State.refuse_argLen (r : Reason) : (s.refuse r).argLen = s.argLen := rfl

@[simp] theorem State.refuse_wbuf (r : Reason) : (s.refuse r).wbuf = s.wbuf := rfl

@[simp] theorem State.refuse_pins (r : Reason) : (s.refuse r).pins = s.pins := rfl

@[simp] theorem State.refuse_rxq (r : Reason) : (s.refuse r).rxq = s.rxq := rfl

@[simp] theorem State.refuse_txh (r : Reason) : (s.refuse r).txh = s.txh := rfl

@[simp] theorem State.refuse_events (r : Reason) : (s.refuse r).events = s.events := rfl

@[simp] theorem State.refuse_refused (r : Reason) : (s.refuse r).refused = some r := rfl

@[simp] theorem State.refuse_shiftReg (r : Reason) : (s.refuse r).shiftReg = s.shiftReg := rfl

@[simp] theorem State.refuse_got (r : Reason) : (s.refuse r).got = s.got := rfl

@[simp] theorem State.refuse_inputs (r : Reason) : (s.refuse r).inputs = s.inputs := rfl

@[simp] theorem State.refuse_answers (r : Reason) : (s.refuse r).answers = s.answers := rfl

@[simp] theorem State.refuse_draws (r : Reason) : (s.refuse r).draws = s.draws := rfl

@[simp] theorem State.refuse_resets (r : Reason) : (s.refuse r).resets = s.resets := rfl

@[simp] theorem State.refuse_params (r : Reason) : (s.refuse r).params = s.params := rfl

/-! ### `left` -/

@[simp] theorem State.left_mode (ops : List Op) : (s.left ops).mode = s.mode := rfl

@[simp] theorem State.left_pc (ops : List Op) : (s.left ops).pc = s.pc := rfl

@[simp] theorem State.left_ctrl (ops : List Op) : (s.left ops).ctrl = s.ctrl.left ops := rfl

@[simp] theorem State.left_argAddr (ops : List Op) : (s.left ops).argAddr = s.argAddr := rfl

@[simp] theorem State.left_argLen (ops : List Op) : (s.left ops).argLen = s.argLen := rfl

@[simp] theorem State.left_wbuf (ops : List Op) : (s.left ops).wbuf = s.wbuf := rfl

@[simp] theorem State.left_pins (ops : List Op) : (s.left ops).pins = s.pins := rfl

@[simp] theorem State.left_rxq (ops : List Op) : (s.left ops).rxq = s.rxq := rfl

@[simp] theorem State.left_txh (ops : List Op) : (s.left ops).txh = s.txh := rfl

@[simp] theorem State.left_events (ops : List Op) : (s.left ops).events = s.events := rfl

@[simp] theorem State.left_refused (ops : List Op) : (s.left ops).refused = s.refused := rfl

@[simp] theorem State.left_shiftReg (ops : List Op) : (s.left ops).shiftReg = s.shiftReg := rfl

@[simp] theorem State.left_got (ops : List Op) : (s.left ops).got = s.got := rfl

@[simp] theorem State.left_inputs (ops : List Op) : (s.left ops).inputs = s.inputs := rfl

@[simp] theorem State.left_answers (ops : List Op) : (s.left ops).answers = s.answers := rfl

@[simp] theorem State.left_draws (ops : List Op) : (s.left ops).draws = s.draws := rfl

@[simp] theorem State.left_resets (ops : List Op) : (s.left ops).resets = s.resets := rfl

@[simp] theorem State.left_params (ops : List Op) : (s.left ops).params = s.params := rfl

/-! ### `deviceReset` -/

@[simp] theorem State.deviceReset_mode : (s.deviceReset).mode = .disconnected := rfl

@[simp] theorem State.deviceReset_pc : (s.deviceReset).pc = none := rfl

@[simp] theorem State.deviceReset_ctrl : (s.deviceReset).ctrl = .idle := rfl

@[simp] theorem State.deviceReset_argAddr : (s.deviceReset).argAddr = none := rfl

@[simp] theorem State.deviceReset_argLen : (s.deviceReset).argLen = none := rfl

@[simp] theorem State.deviceReset_wbuf : (s.deviceReset).wbuf = [] := rfl

@[simp] theorem State.deviceReset_pins : (s.deviceReset).pins = Pins.drawn s.resets := rfl

@[simp] theorem State.deviceReset_rxq : (s.deviceReset).rxq = [] := rfl

@[simp] theorem State.deviceReset_txh : (s.deviceReset).txh = s.txh := rfl

@[simp] theorem State.deviceReset_events : (s.deviceReset).events = s.events ++ [.reset] := rfl

@[simp] theorem State.deviceReset_refused : (s.deviceReset).refused = s.refused := rfl

@[simp] theorem State.deviceReset_shiftReg : (s.deviceReset).shiftReg = 0 := rfl

@[simp] theorem State.deviceReset_got : (s.deviceReset).got = [] := rfl

@[simp] theorem State.deviceReset_inputs : (s.deviceReset).inputs = s.inputs := rfl

@[simp] theorem State.deviceReset_answers : (s.deviceReset).answers = s.answers := rfl

@[simp] theorem State.deviceReset_draws : (s.deviceReset).draws = s.draws := rfl

@[simp] theorem State.deviceReset_resets : (s.deviceReset).resets = s.resets + 1 := rfl

@[simp] theorem State.deviceReset_params : (s.deviceReset).params = s.params := rfl

/-! ### `toIdle` -/

@[simp] theorem State.toIdle_mode : (s.toIdle).mode = s.mode := rfl

@[simp] theorem State.toIdle_pc : (s.toIdle).pc = s.pc := rfl

@[simp] theorem State.toIdle_ctrl : (s.toIdle).ctrl = .idle := rfl

@[simp] theorem State.toIdle_argAddr : (s.toIdle).argAddr = s.argAddr := rfl

@[simp] theorem State.toIdle_argLen : (s.toIdle).argLen = s.argLen := rfl

@[simp] theorem State.toIdle_wbuf : (s.toIdle).wbuf = s.wbuf := rfl

@[simp] theorem State.toIdle_pins : (s.toIdle).pins = s.pins := rfl

@[simp] theorem State.toIdle_rxq : (s.toIdle).rxq = s.rxq := rfl

@[simp] theorem State.toIdle_txh : (s.toIdle).txh = s.txh := rfl

@[simp] theorem State.toIdle_events : (s.toIdle).events = s.events := rfl

@[simp] theorem State.toIdle_refused : (s.toIdle).refused = s.refused := rfl

@[simp] theorem State.toIdle_shiftReg : (s.toIdle).shiftReg = s.shiftReg := rfl

@[simp] theorem State.toIdle_got : (s.toIdle).got = s.got := rfl

@[simp] theorem State.toIdle_inputs : (s.toIdle).inputs = s.inputs := rfl

@[simp] theorem State.toIdle_answers : (s.toIdle).answers = s.answers := rfl

@[simp] theorem State.toIdle_draws : (s.toIdle).draws = s.draws := rfl

@[simp] theorem State.toIdle_resets : (s.toIdle).resets = s.resets := rfl

@[simp] theorem State.toIdle_params : (s.toIdle).params = s.params := rfl

/-! ### `lapse` -/

@[simp] theorem State.lapse_mode : (s.lapse).mode = s.mode := rfl

@[simp] theorem State.lapse_pc : (s.lapse).pc = s.pc := rfl

@[simp] theorem State.lapse_ctrl : (s.lapse).ctrl = s.ctrl := rfl

@[simp] theorem State.lapse_argAddr : (s.lapse).argAddr = s.argAddr := rfl

@[simp] theorem State.lapse_argLen : (s.lapse).argLen = s.argLen := rfl

@[simp] theorem State.lapse_wbuf : (s.lapse).wbuf = s.wbuf := rfl

@[simp] theorem State.lapse_pins : (s.lapse).pins = s.pins := rfl

@[simp] theorem State.lapse_rxq : (s.lapse).rxq = s.rxq := rfl

@[simp] theorem State.lapse_txh : (s.lapse).txh = s.txh := rfl

@[simp] theorem State.lapse_events : (s.lapse).events = s.events ++ [.rxTimeout] := rfl

@[simp] theorem State.lapse_refused : (s.lapse).refused = s.refused := rfl

@[simp] theorem State.lapse_shiftReg : (s.lapse).shiftReg = s.shiftReg := rfl

@[simp] theorem State.lapse_got : (s.lapse).got = [] := rfl

@[simp] theorem State.lapse_inputs : (s.lapse).inputs = s.inputs := rfl

@[simp] theorem State.lapse_answers : (s.lapse).answers = s.answers := rfl

@[simp] theorem State.lapse_draws : (s.lapse).draws = s.draws := rfl

@[simp] theorem State.lapse_resets : (s.lapse).resets = s.resets := rfl

@[simp] theorem State.lapse_params : (s.lapse).params = s.params := rfl

/-! ### `latchAddr` -/

@[simp] theorem State.latchAddr_mode (addr : Word) : (s.latchAddr addr).mode = s.mode := rfl

@[simp] theorem State.latchAddr_pc (addr : Word) : (s.latchAddr addr).pc = s.pc := rfl

@[simp] theorem State.latchAddr_ctrl (addr : Word) : (s.latchAddr addr).ctrl = s.ctrl := rfl

@[simp] theorem State.latchAddr_argAddr (addr : Word) :
    (s.latchAddr addr).argAddr = some addr := rfl

@[simp] theorem State.latchAddr_argLen (addr : Word) : (s.latchAddr addr).argLen = s.argLen := rfl

@[simp] theorem State.latchAddr_wbuf (addr : Word) : (s.latchAddr addr).wbuf = s.wbuf := rfl

@[simp] theorem State.latchAddr_pins (addr : Word) : (s.latchAddr addr).pins = s.pins := rfl

@[simp] theorem State.latchAddr_rxq (addr : Word) : (s.latchAddr addr).rxq = s.rxq := rfl

@[simp] theorem State.latchAddr_txh (addr : Word) : (s.latchAddr addr).txh = s.txh := rfl

@[simp] theorem State.latchAddr_events (addr : Word) : (s.latchAddr addr).events = s.events := rfl

@[simp] theorem State.latchAddr_refused (addr : Word) :
    (s.latchAddr addr).refused = s.refused := rfl

@[simp] theorem State.latchAddr_shiftReg (addr : Word) :
    (s.latchAddr addr).shiftReg = s.shiftReg := rfl

@[simp] theorem State.latchAddr_got (addr : Word) : (s.latchAddr addr).got = s.got := rfl

@[simp] theorem State.latchAddr_inputs (addr : Word) : (s.latchAddr addr).inputs = s.inputs := rfl

@[simp] theorem State.latchAddr_answers (addr : Word) :
    (s.latchAddr addr).answers = s.answers := rfl

@[simp] theorem State.latchAddr_draws (addr : Word) : (s.latchAddr addr).draws = s.draws := rfl

@[simp] theorem State.latchAddr_resets (addr : Word) : (s.latchAddr addr).resets = s.resets := rfl

@[simp] theorem State.latchAddr_params (addr : Word) : (s.latchAddr addr).params = s.params := rfl

/-! ### `latchArgs` -/

@[simp] theorem State.latchArgs_mode (addr len : Word) : (s.latchArgs addr len).mode = s.mode := rfl

@[simp] theorem State.latchArgs_pc (addr len : Word) : (s.latchArgs addr len).pc = s.pc := rfl

@[simp] theorem State.latchArgs_ctrl (addr len : Word) : (s.latchArgs addr len).ctrl = s.ctrl := rfl

@[simp] theorem State.latchArgs_argAddr (addr len : Word) :
    (s.latchArgs addr len).argAddr = some addr := rfl

@[simp] theorem State.latchArgs_argLen (addr len : Word) :
    (s.latchArgs addr len).argLen = some len := rfl

@[simp] theorem State.latchArgs_wbuf (addr len : Word) : (s.latchArgs addr len).wbuf = s.wbuf := rfl

@[simp] theorem State.latchArgs_pins (addr len : Word) : (s.latchArgs addr len).pins = s.pins := rfl

@[simp] theorem State.latchArgs_rxq (addr len : Word) : (s.latchArgs addr len).rxq = s.rxq := rfl

@[simp] theorem State.latchArgs_txh (addr len : Word) : (s.latchArgs addr len).txh = s.txh := rfl

@[simp] theorem State.latchArgs_events (addr len : Word) :
    (s.latchArgs addr len).events = s.events := rfl

@[simp] theorem State.latchArgs_refused (addr len : Word) :
    (s.latchArgs addr len).refused = s.refused := rfl

@[simp] theorem State.latchArgs_shiftReg (addr len : Word) :
    (s.latchArgs addr len).shiftReg = s.shiftReg := rfl

@[simp] theorem State.latchArgs_got (addr len : Word) : (s.latchArgs addr len).got = s.got := rfl

@[simp] theorem State.latchArgs_inputs (addr len : Word) :
    (s.latchArgs addr len).inputs = s.inputs := rfl

@[simp] theorem State.latchArgs_answers (addr len : Word) :
    (s.latchArgs addr len).answers = s.answers := rfl

@[simp] theorem State.latchArgs_draws (addr len : Word) :
    (s.latchArgs addr len).draws = s.draws := rfl

@[simp] theorem State.latchArgs_resets (addr len : Word) :
    (s.latchArgs addr len).resets = s.resets := rfl

@[simp] theorem State.latchArgs_params (addr len : Word) :
    (s.latchArgs addr len).params = s.params := rfl

/-! ### `fillWbuf` -/

@[simp] theorem State.fillWbuf_mode : (s.fillWbuf).mode = s.mode := rfl

@[simp] theorem State.fillWbuf_pc : (s.fillWbuf).pc = s.pc := rfl

@[simp] theorem State.fillWbuf_ctrl : (s.fillWbuf).ctrl = s.ctrl := rfl

@[simp] theorem State.fillWbuf_argAddr : (s.fillWbuf).argAddr = s.argAddr := rfl

@[simp] theorem State.fillWbuf_argLen : (s.fillWbuf).argLen = s.argLen := rfl

@[simp] theorem State.fillWbuf_wbuf : (s.fillWbuf).wbuf = wordsOfBytes s.got := rfl

@[simp] theorem State.fillWbuf_pins : (s.fillWbuf).pins = s.pins := rfl

@[simp] theorem State.fillWbuf_rxq : (s.fillWbuf).rxq = s.rxq := rfl

@[simp] theorem State.fillWbuf_txh : (s.fillWbuf).txh = s.txh := rfl

@[simp] theorem State.fillWbuf_events : (s.fillWbuf).events = s.events := rfl

@[simp] theorem State.fillWbuf_refused : (s.fillWbuf).refused = s.refused := rfl

@[simp] theorem State.fillWbuf_shiftReg : (s.fillWbuf).shiftReg = s.shiftReg := rfl

@[simp] theorem State.fillWbuf_got : (s.fillWbuf).got = [] := rfl

@[simp] theorem State.fillWbuf_inputs : (s.fillWbuf).inputs = s.inputs := rfl

@[simp] theorem State.fillWbuf_answers : (s.fillWbuf).answers = s.answers := rfl

@[simp] theorem State.fillWbuf_draws : (s.fillWbuf).draws = s.draws := rfl

@[simp] theorem State.fillWbuf_resets : (s.fillWbuf).resets = s.resets := rfl

@[simp] theorem State.fillWbuf_params : (s.fillWbuf).params = s.params := rfl

/-! ### `enter` -/

@[simp] theorem State.enter_mode (c : Byte) (ops : List Op) : (s.enter c ops).mode = s.mode := rfl

@[simp] theorem State.enter_pc (c : Byte) (ops : List Op) : (s.enter c ops).pc = s.pc := rfl

@[simp] theorem State.enter_ctrl (c : Byte) (ops : List Op) :
    (s.enter c ops).ctrl = .busy c (.events ops) := rfl

@[simp] theorem State.enter_argAddr (c : Byte) (ops : List Op) :
    (s.enter c ops).argAddr = s.argAddr := rfl

@[simp] theorem State.enter_argLen (c : Byte) (ops : List Op) :
    (s.enter c ops).argLen = s.argLen := rfl

@[simp] theorem State.enter_wbuf (c : Byte) (ops : List Op) : (s.enter c ops).wbuf = s.wbuf := rfl

@[simp] theorem State.enter_pins (c : Byte) (ops : List Op) : (s.enter c ops).pins = s.pins := rfl

@[simp] theorem State.enter_rxq (c : Byte) (ops : List Op) : (s.enter c ops).rxq = s.rxq := rfl

@[simp] theorem State.enter_txh (c : Byte) (ops : List Op) : (s.enter c ops).txh = s.txh := rfl

@[simp] theorem State.enter_events (c : Byte) (ops : List Op) :
    (s.enter c ops).events = s.events := rfl

@[simp] theorem State.enter_refused (c : Byte) (ops : List Op) :
    (s.enter c ops).refused = s.refused := rfl

@[simp] theorem State.enter_shiftReg (c : Byte) (ops : List Op) :
    (s.enter c ops).shiftReg = s.shiftReg := rfl

@[simp] theorem State.enter_got (c : Byte) (ops : List Op) : (s.enter c ops).got = s.got := rfl

@[simp] theorem State.enter_inputs (c : Byte) (ops : List Op) :
    (s.enter c ops).inputs = s.inputs := rfl

@[simp] theorem State.enter_answers (c : Byte) (ops : List Op) :
    (s.enter c ops).answers = s.answers := rfl

@[simp] theorem State.enter_draws (c : Byte) (ops : List Op) :
    (s.enter c ops).draws = s.draws := rfl

@[simp] theorem State.enter_resets (c : Byte) (ops : List Op) :
    (s.enter c ops).resets = s.resets := rfl

@[simp] theorem State.enter_params (c : Byte) (ops : List Op) :
    (s.enter c ops).params = s.params := rfl

end Sys2Proof.Machine
end

