-- ==== Sys2Proof/Laws/Ops.lean ====
section
/-!
SUPPORT. What the shared operations can do, said once: a turn of the outside, a run over an event list,
taking a field, and their behaviour when nothing comes from outside.
-/

namespace Sys2Proof.Machine

variable {s t : State} {need : Need} {q : List Stimulus}

/-! ### Moves -/

@[simp] theorem Op.perform_inputs (op : Op) (s : State) : (op.perform s).inputs = s.inputs := by
  cases op <;> rfl

@[simp] theorem Op.perform_refused (op : Op) (s : State) : (op.perform s).refused = s.refused := by
  cases op <;> rfl

@[simp] theorem Op.perform_ctrl (op : Op) (s : State) : (op.perform s).ctrl = s.ctrl := by
  cases op <;> rfl

@[simp] theorem Op.perform_got (op : Op) (s : State) : (op.perform s).got = s.got := by
  cases op <;> rfl

@[simp] theorem Op.perform_params (op : Op) (s : State) : (op.perform s).params = s.params := by
  cases op <;> rfl

@[simp] theorem Op.perform_answers (op : Op) (s : State) : (op.perform s).answers = s.answers := by
  cases op <;> rfl

@[simp] theorem Op.perform_resets (op : Op) (s : State) : (op.perform s).resets = s.resets := by
  cases op <;> rfl

@[simp] theorem performAll_nil (s : State) : performAll [] s = s := rfl

@[simp] theorem performAll_cons (op : Op) (ops : List Op) (s : State) :
    performAll (op :: ops) s = performAll ops (op.perform s) := rfl

theorem performAll_append (a b : List Op) (s : State) :
    performAll (a ++ b) s = performAll b (performAll a s) := by
  simp [performAll]

/-- A field that no move writes is what it was. -/
theorem performAll_field {α : Type} (f : State → α) (h : ∀ op s, f (Op.perform op s) = f s)
    (ops : List Op) (s : State) : f (performAll ops s) = f s := by
  induction ops generalizing s with
  | nil => rfl
  | cons op ops ih => rw [performAll_cons, ih, h]

@[simp] theorem performAll_inputs (ops : List Op) (s : State) :
    (performAll ops s).inputs = s.inputs :=
  performAll_field (·.inputs) Op.perform_inputs ops s

@[simp] theorem performAll_refused (ops : List Op) (s : State) :
    (performAll ops s).refused = s.refused :=
  performAll_field (·.refused) Op.perform_refused ops s

@[simp] theorem performAll_ctrl (ops : List Op) (s : State) :
    (performAll ops s).ctrl = s.ctrl :=
  performAll_field (·.ctrl) Op.perform_ctrl ops s

/-! ### Turns of the outside -/

/-- The state a turn ends in. -/
def Turn.state : Turn → State
  | .go s => s
  | .timeout s => s
  | .blocked s => s
  | .ended s => s

theorem State.inputs_eta {s : State} {q : List Stimulus} (h : s.inputs = q) :
    { s with inputs := q } = s := by
  subst h
  rfl

/-- With nothing from outside, an event that needs nothing is performed from the same state. -/
theorem attend_nothing_quiet (h : s.inputs = []) : attend .nothing s.inputs s = .go s := by
  rw [h]
  simp [attend, State.ready, State.inputs_eta h]

/-- With nothing from outside and a byte at hand, the byte is taken from the same state. -/
theorem attend_quiet_ready (h : s.inputs = []) (hr : s.rxq ≠ []) :
    attend need s.inputs s = .go s := by
  rw [h]
  simp [attend, State.ready, State.inputs_eta h, hr]

/-- With nothing from outside and no byte at hand, a sequencer that needs one waits. -/
theorem attend_quiet_blocked (h : s.inputs = []) (hr : s.rxq = []) (hn : need ≠ .nothing) :
    attend need s.inputs s = .blocked s := by
  rw [h]
  have hs : s.ready need = false := by simp [State.ready, hr, hn]
  simp [attend, hs, State.inputs_eta h]

/-- What a turn can do, as an induction: a property that survives a shorter script, each move of the host
and, where the script holds one, the reset, holds of the state the turn ends in. -/
theorem attend_induct {P : State → Prop} (need : Need) (q : List Stimulus)
    (hin : ∀ s q, P s → P { s with inputs := q })
    (hbyte : ∀ s b, P s → P (s.hostByte b))
    (hreset : .deviceReset ∈ q → ∀ s, P s → P s.deviceReset)
    (s : State) (hs : P s) : P (attend need q s).state := by
  induction q generalizing s with
  | nil =>
    simp only [attend]
    split <;> exact hin _ _ hs
  | cons st q ih =>
    have ih' := fun s hs => ih (fun hm => hreset (List.mem_cons_of_mem _ hm)) s hs
    cases st with
    | run =>
      simp only [attend]
      split
      · exact hin _ _ hs
      · exact ih' s hs
    | rxTimeout =>
      simp only [attend]
      split
      · exact hin _ _ hs
      · exact ih' s hs
    | hostByte b =>
      simp only [attend]
      split
      · exact ih' _ (hbyte _ _ hs)
      · exact hbyte _ _ (hin _ _ hs)
    | deviceReset =>
      simp only [attend]
      exact hreset List.mem_cons_self _ (hin _ _ hs)

/-- A turn only shortens the script. -/
theorem attend_inputs (need : Need) (q : List Stimulus) (s : State) :
    (attend need q s).state.inputs <:+ q := by
  induction q generalizing s with
  | nil =>
    simp only [attend]
    split <;> simp [Turn.state]
  | cons st q ih =>
    have ih' := fun s => (ih s).trans (List.suffix_cons st q)
    cases st with
    | run =>
      simp only [attend]
      split
      · simp [Turn.state]
      · exact ih' s
    | rxTimeout =>
      simp only [attend]
      split
      · simp [Turn.state]
      · exact ih' s
    | hostByte b =>
      simp only [attend]
      split
      · exact ih' _
      · simp only [Turn.state, State.hostByte]
        split <;> simp
    | deviceReset => simp [attend, Turn.state, State.deviceReset]

/-- A turn before an event that needs nothing goes on, or a reset left the machine idle, or the host
overfilled `RXQ`. -/
theorem attend_nothing_cases (q : List Stimulus) (s : State) :
    (∃ t, attend .nothing q s = .go t) ∨
      ∃ t, attend .nothing q s = .ended t ∧ (t.ctrl = .idle ∨ t.refused = some .rxOverflow) := by
  induction q generalizing s with
  | nil => exact .inl ⟨{ s with inputs := [] }, by simp [attend, State.ready]⟩
  | cons st q ih =>
    cases st with
    | run => exact .inl ⟨{ s with inputs := q }, by simp [attend, State.ready]⟩
    | rxTimeout => simpa [attend, State.mayTimeOut] using ih s
    | hostByte b =>
      by_cases hc : s.rxq.length < s.params.rxCap
      · simpa [attend, hc] using ih (s.hostByte b)
      · exact .inr ⟨_, by simp [attend, hc]; rfl, .inr (by simp [State.hostByte, hc])⟩
    | deviceReset => exact .inr ⟨_, by simp [attend]; rfl, .inl rfl⟩

/-- A turn that goes on leaves `CTRL`. -/
theorem attend_nothing_ctrl (q : List Stimulus) (s t : State) (h : attend .nothing q s = .go t) :
    t.ctrl = s.ctrl := by
  induction q generalizing s with
  | nil =>
    simp [attend, State.ready] at h
    rw [← h]
  | cons st q ih =>
    cases st with
    | run =>
      simp [attend, State.ready] at h
      rw [← h]
    | rxTimeout => exact ih _ (by simpa [attend, State.mayTimeOut] using h)
    | hostByte b =>
      by_cases hc : s.rxq.length < s.params.rxCap
      · have := ih _ (by simpa [attend, hc] using h)
        simpa [State.hostByte, hc] using this
      · simp [attend, hc] at h
    | deviceReset => simp [attend] at h

/-! ### Runs over an event list -/

/-- After a reset no handler is under way, so nothing is left of one. -/
@[simp] theorem State.left_deviceReset (s : State) (ops : List Op) :
    s.deviceReset.left ops = s.deviceReset := rfl

/-- With nothing from outside, a run performs its moves and nothing else. -/
theorem runOps_quiet (ops : List Op) (s : State) (h : s.inputs = []) :
    runOps ops s = .done (performAll ops s) := by
  induction ops generalizing s with
  | nil => rfl
  | cons op ops ih =>
    rw [runOps, attend_nothing_quiet h, performAll_cons]
    exact ih _ (by simpa using h)

/-- A run over two lists is a run over the first and, if it was not cut short, over the second. -/
theorem runOps_append_done {a : List Op} (b : List Op) (h : runOps a s = .done t) :
    runOps (a ++ b) s = runOps b t := by
  induction a generalizing s with
  | nil => cases h; rfl
  | cons op a ih =>
    rw [runOps] at h
    rw [List.cons_append, runOps]
    split at h <;> first | exact ih h | cases h

/-- A run over two lists that is cut short in the first leaves the same state, but for the moves left. -/
theorem runOps_append_ended {a : List Op} (b : List Op) (h : runOps a s = .ended t) :
    ∃ c, runOps (a ++ b) s = .ended { t with ctrl := c } := by
  induction a generalizing s with
  | nil => cases h
  | cons op a ih =>
    rw [runOps] at h
    rw [List.cons_append, runOps]
    split at h
    · exact ih h
    all_goals
      cases h
      exact ⟨_, rfl⟩

/-- What a run can do, as an induction (see `attend_induct`): a property that also survives each of its
moves holds of the state the run ends in. -/
theorem runOps_induct {P : State → Prop} (ops : List Op)
    (hop : ∀ op ∈ ops, ∀ s, P s → P (op.perform s))
    (hin : ∀ s q, P s → P { s with inputs := q })
    (hbyte : ∀ s b, P s → P (s.hostByte b))
    (hleft : ∀ s ops, P s → P (s.left ops))
    (s : State) (hreset : .deviceReset ∈ s.inputs → ∀ s, P s → P s.deviceReset)
    (hs : P s) : P (runOps ops s).state := by
  induction ops generalizing s with
  | nil => exact hs
  | cons op ops ih =>
    have ha := attend_induct (P := P) .nothing s.inputs hin hbyte hreset s hs
    have hi := attend_inputs .nothing s.inputs s
    rw [runOps]
    split
    · rename_i t ht
      rw [ht] at ha hi
      refine ih (fun o ho => hop o (List.mem_cons_of_mem _ ho)) _ ?_ (hop op List.mem_cons_self _ ha)
      intro hm
      exact hreset (hi.mem (by simpa [Turn.state] using hm))
    all_goals
      rename_i t ht
      rw [ht] at ha
      exact hleft _ _ ha

/-- A run is done, or a reset left the machine idle, or the host overfilled `RXQ`. -/
theorem runOps_cases (ops : List Op) (s : State) :
    (∃ t, runOps ops s = .done t ∧ t.ctrl = s.ctrl) ∨
      ∃ t, runOps ops s = .ended t ∧ (t.ctrl = .idle ∨ t.refused = some .rxOverflow) := by
  induction ops generalizing s with
  | nil => exact .inl ⟨s, rfl, rfl⟩
  | cons op ops ih =>
    rcases attend_nothing_cases s.inputs s with ⟨t, ht⟩ | ⟨t, ht, hc⟩
    · simp only [runOps, ht]
      have := ih (op.perform t)
      simpa [attend_nothing_ctrl _ _ _ ht] using this
    · refine .inr ⟨t.left (op :: ops), by simp only [runOps, ht], hc.imp (fun h => ?_) id⟩
      rw [State.left_ctrl, h]
      rfl

/-- A handler's event list ends with the machine idle, unless the host overfills `RXQ`. -/
theorem emit_ctrl (ops : List Op) (s : State) :
    (emit ops s).ctrl = .idle ∨ (emit ops s).refused = some .rxOverflow := by
  rcases runOps_cases ops s with ⟨t, ht, _⟩ | ⟨t, ht, hc⟩
  · exact .inl (by rw [emit, ht]; rfl)
  · rw [emit, ht]
    exact hc

/-- With nothing from outside, a handler's event list performs its moves and goes idle. -/
theorem emit_quiet (ops : List Op) (s : State) (h : s.inputs = []) :
    emit ops s = (performAll ops s).toIdle := by
  rw [emit, runOps_quiet ops s h, Run.finish]

/-- `emit` as an induction (see `runOps_induct`). -/
theorem emit_induct {P : State → Prop} (ops : List Op)
    (hop : ∀ op ∈ ops, ∀ s, P s → P (op.perform s))
    (hin : ∀ s q, P s → P { s with inputs := q })
    (hbyte : ∀ s b, P s → P (s.hostByte b))
    (hleft : ∀ s ops, P s → P (s.left ops))
    (hidle : ∀ s, P s → P s.toIdle)
    (s : State) (hreset : .deviceReset ∈ s.inputs → ∀ s, P s → P s.deviceReset)
    (hs : P s) : P (emit ops s) := by
  have h := runOps_induct (P := P) ops hop hin hbyte hleft s hreset hs
  rw [emit]
  cases hr : runOps ops s with
  | done t => rw [hr] at h; exact hidle _ h
  | ended t => rw [hr] at h; exact h

/-! ### Taking a field -/

/-- The state that taking a field ends in. -/
def Recv.state : Recv → State
  | .complete s => s
  | .timeout s => s
  | .waiting s => s
  | .ended s => s

/-- `n` bytes at hand and nothing from outside: all `n` are taken, in order. -/
theorem recv_quiet_complete (n : Nat) (s : State) (h : s.inputs = []) (hn : n ≤ s.rxq.length) :
    recv n s = .complete
      { s with
        rxq := s.rxq.drop n
        got := s.got ++ s.rxq.take n
        events := s.events ++ (s.rxq.take n).map .rx } := by
  induction n generalizing s with
  | zero => simp [recv]
  | succ n ih =>
    cases hq : s.rxq with
    | nil => simp [hq] at hn
    | cons b q =>
      rw [recv, attend_quiet_ready h (by simp [hq])]
      have ht : s.takeByte = { s with
          rxq := q, got := s.got ++ [b], events := s.events ++ [.rx b] } := by
        simp [State.takeByte, hq, State.record]
      have hn' := hn
      simp only [hq, List.length_cons] at hn'
      simp only
      rw [ih s.takeByte (by simp [ht, h]) (by simp only [ht]; omega)]
      simp [ht]

/-- Fewer than `n` bytes at hand and nothing from outside: they are taken, and the sequencer waits. -/
theorem recv_quiet_waiting (n : Nat) (s : State) (h : s.inputs = []) (hn : s.rxq.length < n) :
    recv n s = .waiting
      { s with
        rxq := []
        got := s.got ++ s.rxq
        events := s.events ++ s.rxq.map .rx } := by
  induction n generalizing s with
  | zero => omega
  | succ n ih =>
    cases hq : s.rxq with
    | nil =>
      rw [recv, attend_quiet_blocked h hq (by decide)]
      simp only [List.append_nil, List.map_nil]
      rw [← hq]
    | cons b q =>
      rw [recv, attend_quiet_ready h (by simp [hq])]
      have ht : s.takeByte = { s with
          rxq := q, got := s.got ++ [b], events := s.events ++ [.rx b] } := by
        simp [State.takeByte, hq, State.record]
      have hn' := hn
      simp only [hq, List.length_cons] at hn'
      simp only
      rw [ih s.takeByte (by simp [ht, h]) (by simp only [ht]; omega)]
      simp [ht]

/-- What taking a field can do, as an induction (see `attend_induct`). -/
theorem recv_induct {P : State → Prop} (n : Nat)
    (htake : ∀ s, P s → P s.takeByte)
    (hlapse : ∀ s, P s → P s.lapse)
    (hin : ∀ s q, P s → P { s with inputs := q })
    (hbyte : ∀ s b, P s → P (s.hostByte b))
    (s : State) (hreset : .deviceReset ∈ s.inputs → ∀ s, P s → P s.deviceReset)
    (hs : P s) : P (recv n s).state := by
  induction n generalizing s with
  | zero => exact hs
  | succ n ih =>
    have ha := attend_induct (P := P) .field s.inputs hin hbyte hreset s hs
    have hi := attend_inputs .field s.inputs s
    rw [recv]
    split
    · rename_i t ht
      rw [ht] at ha hi
      refine ih _ ?_ (htake _ ha)
      intro hm
      refine hreset (hi.mem ?_)
      simp only [Turn.state]
      revert hm
      simp only [State.takeByte]
      split <;> exact id
    · rename_i t ht
      rw [ht] at ha
      exact hlapse _ ha
    all_goals
      rename_i t ht
      rw [ht] at ha
      exact ha

/-! ### Marked machines -/

/-- A live machine's meaning answers a next state. -/
theorem live_none (f : State → State) (h : s.refused = none) : live s f = .next (f s) := by
  simp [live, h]

/-- A marked machine has no step. -/
theorem live_some (f : State → State) {r : Reason} (h : s.refused = some r) :
    live s f = .refused (.marked r) := by
  simp [live, h]

end Sys2Proof.Machine
end

