-- ==== Sys2Proof/Laws/Icsp.lean ====
section
/-!
SUPPORT. What each field and each ICSP command of the pulse generator leaves, performed whole with nothing
from outside: the pins it ends with, the waveform it adds, and the mirror.
-/

namespace Sys2Proof.Machine

/-- The pins after a field whose last bit was `b`: `DAT` keeps it, `CLK` rests low (40_pulse_generator R115). -/
def Pins.shifted (p : Pins) (b : Bool) : Pins :=
  { p with dat := { p.dat with out := b }, clk := { p.clk with out := false } }

/-- The pins after clocks that leave `DAT` alone. -/
def Pins.clocked (p : Pins) : Pins := { p with clk := { p.clk with out := false } }

@[simp] theorem Pins.shifted_shifted (p : Pins) (a b : Bool) :
    (p.shifted a).shifted b = p.shifted b := rfl

@[simp] theorem Pins.shifted_clocked (p : Pins) (a : Bool) : (p.shifted a).clocked = p.shifted a := rfl

@[simp] theorem Pins.clocked_clocked (p : Pins) : p.clocked.clocked = p.clocked := rfl

/-! ### Cells and fields -/

theorem wave_cons (b : Bool) (bits : List Bool) : wave (b :: bits) = bitCell b ++ wave bits := by
  simp [wave]

theorem wave_append (a b : List Bool) : wave (a ++ b) = wave a ++ wave b := by
  simp [wave]

theorem performAll_bitOut (b : Bool) (s : State) :
    performAll (bitOut b) s =
      { s with pins := s.pins.shifted b, events := s.events ++ bitCell b } := by
  simp [bitOut, Op.perform, State.record, Pins.setLevel, Pins.shifted, bitCell]

/-- ShiftOut: the field's waveform, and its last bit left on `DAT` (R116). -/
theorem performAll_shiftOut {k : Nat} (v : BitVec k) (n : Nat) (s : State) :
    performAll (shiftOut v (n + 1)) s =
      { s with pins := s.pins.shifted (v.getLsbD 0), events := s.events ++ wave (bitsMsb v (n + 1)) } := by
  induction n generalizing s with
  | zero => simp [shiftOut, performAll_bitOut, bitsMsb, wave]
  | succ n ih =>
    rw [shiftOut, performAll_append, performAll_bitOut, ih, bitsMsb.eq_def v (n + 1 + 1)]
    simp [wave_cons]

theorem performAll_clockCell (s : State) :
    performAll clockCell s = { s with pins := s.pins.clocked, events := s.events ++ inClock } := by
  simp [clockCell, Op.perform, State.record, Pins.setLevel, Pins.clocked, inClock]

/-- ClockIn: clocks without samples (R117). -/
theorem performAll_clockIn (n : Nat) (s : State) :
    performAll (clockIn (n + 1)) s =
      { s with
        pins := s.pins.clocked
        events := s.events ++ (List.replicate (n + 1) inClock).flatten } := by
  induction n generalizing s with
  | zero => simp [clockIn, performAll_clockCell]
  | succ n ih =>
    rw [clockIn, performAll_append, performAll_clockCell, ih]
    simp [List.replicate_succ]

theorem performAll_sampleCell (s : State) :
    performAll sampleCell s =
      { s with
        pins := s.pins.clocked
        shiftReg := s.shiftReg.shiftConcat s.nextBit
        draws := s.draws + 1
        events := s.events ++ inCell s.nextBit } := by
  simp [sampleCell, Op.perform, State.record, State.sample, Pins.setLevel, Pins.clocked, inCell,
    State.nextBit]

/-- ShiftIn: one sample a clock, first sample most significant (R117). -/
theorem performAll_sampleCells (n : Nat) (s : State) :
    performAll (sampleCells (n + 1)) s =
      { s with
        pins := s.pins.clocked
        shiftReg := (answersFrom s.answers s.draws (n + 1)).foldl (fun v b => v.shiftConcat b) s.shiftReg
        draws := s.draws + (n + 1)
        events := s.events ++ (answersFrom s.answers s.draws (n + 1)).flatMap inCell } := by
  induction n generalizing s with
  | zero => simp [sampleCells, performAll_sampleCell, answersFrom, State.nextBit]
  | succ n ih =>
    rw [sampleCells, performAll_append, performAll_sampleCell, ih,
      answersFrom.eq_def s.answers s.draws (n + 1 + 1)]
    simp [Nat.add_assoc, Nat.add_comm 1, State.nextBit]

/-- RecvPayload: data released, 24 clocks, 16 samples into `shiftReg` (R122). -/
theorem performAll_recvPayload (s : State) :
    performAll recvPayload s =
      { s with
        pins := (s.pins.release .dat).clocked
        shiftReg := wordFrom s.answers s.draws
        draws := s.draws + 16
        events := s.events ++ readWave (answersFrom s.answers s.draws 16) } := by
  rw [recvPayload, performAll_cons, performAll_append, performAll_append, shiftIn, performAll_cons,
    performAll_clockIn 6, performAll_sampleCells 15, performAll_clockIn 0]
  simp [Op.perform, State.record, readWave, wordFrom, ofBitsMsb]

/-! ### Payload bits -/

/-- The bits of an output payload are 7 zeros, the word and a zero (30_encoding R97). -/
theorem bitsMsb_payload (w : Word) : bitsMsb (payload w) 24 = payloadBitsOf w := by
  simp [bitsMsb, payload, payloadBitsOf, List.replicate]

theorem performAll_sendCmd (op : Byte) (s : State) :
    performAll (sendCmd op) s =
      { s with pins := s.pins.shifted (op.getLsbD 0), events := s.events ++ wave (bitsMsb op 8) } :=
  performAll_shiftOut op 7 s

theorem performAll_sendPayload (w : Word) (s : State) :
    performAll (sendPayload w) s =
      { s with
        pins := s.pins.shifted false
        events := s.events ++ wave (payloadBitsOf w) ++ [.hold .dly] } := by
  rw [sendPayload, performAll_append, performAll_shiftOut _ 23, bitsMsb_payload]
  simp [Op.perform, State.record, payload]

/-! ### Commands -/

/-- ICSP_LOAD_PC (R130). -/
theorem performAll_loadPc (w : Word) (s : State) :
    performAll (loadPcOps w) s =
      { s with
        pc := some w
        pins := s.pins.shifted false
        events := s.events ++ payloadWave 0x80 w } := by
  simp [loadPcOps, performAll_append, performAll_sendCmd, performAll_sendPayload, Op.perform,
    State.record, payloadWave]

/-- ICSP_READ_DATA_INC (R131). -/
theorem performAll_readDataInc (s : State) :
    performAll readDataIncOps s =
      { s with
        pc := incMirror s.pc
        pins := (s.pins.shifted false).release .dat
        shiftReg := wordFrom s.answers s.draws
        draws := s.draws + 16
        events := s.events ++ wave (bitsMsb (0xFE : Byte) 8) ++ [.hold .dly]
          ++ readWave (answersFrom s.answers s.draws 16) } := by
  simp [readDataIncOps, performAll_append, performAll_sendCmd, performAll_recvPayload, Op.perform,
    State.record, Pins.release, Pins.shifted, Pins.clocked]

/-- ICSP_LOAD_DATA_INC (R132). -/
theorem performAll_loadDataInc (w : Word) (s : State) :
    performAll (loadDataIncOps w) s =
      { s with
        pc := incMirror s.pc
        pins := s.pins.shifted false
        events := s.events ++ payloadWave 0x02 w } := by
  simp [loadDataIncOps, performAll_append, performAll_sendCmd, performAll_sendPayload, Op.perform,
    State.record, payloadWave]

/-- ICSP_LOAD_DATA (R133). -/
theorem performAll_loadData (w : Word) (s : State) :
    performAll (loadDataOps w) s =
      { s with
        pins := s.pins.shifted false
        events := s.events ++ payloadWave 0x00 w } := by
  simp [loadDataOps, performAll_append, performAll_sendCmd, performAll_sendPayload, Op.perform,
    State.record, payloadWave]

/-- ICSP_BEGIN_PROG (R134). -/
theorem performAll_beginProg (s : State) :
    performAll beginProgOps s =
      { s with
        pins := s.pins.shifted false
        events := s.events ++ commandWave 0xE0 .write } := by
  simp [beginProgOps, performAll_append, performAll_sendCmd, Op.perform, State.record, commandWave]

/-- ICSP_ROW_ERASE (R135). -/
theorem performAll_rowErase (s : State) :
    performAll rowEraseOps s =
      { s with
        pins := s.pins.shifted false
        events := s.events ++ commandWave 0xF0 .erase } := by
  simp [rowEraseOps, performAll_append, performAll_sendCmd, Op.perform, State.record, commandWave]

/-- ICSP_BULK_ERASE (R136). -/
theorem performAll_bulkErase (s : State) :
    performAll bulkEraseOps s =
      { s with
        pins := s.pins.shifted false
        events := s.events ++ commandWave 0x18 .erase } := by
  simp [bulkEraseOps, performAll_append, performAll_sendCmd, Op.perform, State.record, commandWave]

/-- The LVP key (R123). -/
theorem performAll_sendKey (s : State) :
    performAll sendKey s =
      { s with
        pins := s.pins.shifted false
        events := s.events ++ wave (bitsMsb lvpKeyValue 32) } := by
  rw [sendKey, performAll_shiftOut _ 31]
  simp [lvpKeyValue]

end Sys2Proof.Machine
end

