-- ==== Sys2Proof/Laws/Blocks.lean ====
section
/-!
SUPPORT. What the loops of the block commands leave, performed whole with nothing from outside.
-/

namespace Sys2Proof.Machine

/-- The pins after a word of a read: `DAT` driven at 0 again, `CLK` low (42_read R180). -/
def Pins.afterWord (p : Pins) : Pins :=
  { p with dat := { dir := .output, out := false }, clk := { p.clk with out := false } }

/-- One word of a read (R180, R184). -/
theorem performAll_readWord (s : State) :
    performAll readWordOps s =
      { s with
        pc := incMirror s.pc
        pins := s.pins.afterWord
        shiftReg := wordFrom s.answers s.draws
        draws := s.draws + 16
        txh := s.txh ++ [(wordFrom s.answers s.draws).hi, (wordFrom s.answers s.draws).lo]
        events := s.events ++ readWordWave s.answers s.draws } := by
  simp [readWordOps, performAll_append, performAll_readDataInc, Op.perform, State.record,
    State.txPut, Pins.drive, Pins.release, Pins.shifted, Pins.afterWord, readWordWave]

theorem incMirror_map (pc : Option Word) (n : Nat) :
    (incMirror pc).map (· + BitVec.ofNat 16 n) = pc.map (· + BitVec.ofNat 16 (n + 1)) := by
  cases pc with
  | none => rfl
  | some p =>
    simp only [incMirror, Option.map_some, Option.some.injEq]
    rw [BitVec.add_assoc, Nat.add_comm n 1, BitVec.ofNat_add]
    rfl

/-- The loop of a read over `n` words (R180). -/
theorem performAll_readLoop (n : Nat) (s : State) :
    performAll (readLoop n) s =
      { s with
        pc := s.pc.map (· + BitVec.ofNat 16 n)
        pins := if n = 0 then s.pins else s.pins.afterWord
        shiftReg := (wordsFrom s.answers s.draws n).getLastD s.shiftReg
        draws := s.draws + 16 * n
        txh := s.txh ++ bytesOfWords (wordsFrom s.answers s.draws n)
        events := s.events ++ readLoopWave s.answers s.draws n } := by
  induction n generalizing s with
  | zero => simp [readLoop, wordsFrom, bytesOfWords, readLoopWave]
  | succ n ih =>
    rw [readLoop, performAll_append, performAll_readWord, ih]
    simp only [incMirror_map]
    have hp : (if n = 0 then s.pins.afterWord else s.pins.afterWord.afterWord)
        = s.pins.afterWord := by split <;> rfl
    simp [wordsFrom, bytesOfWords, readLoopWave, hp, Nat.mul_add, Nat.add_assoc,
      Nat.add_comm 16, List.getLast?_cons]

/-- The latch loads of a write: one increment less than there are words (43_write_erase R190, R195). -/
theorem performAll_loadWords (ws : List Word) (hws : ws ≠ []) (s : State) :
    performAll (loadWords ws) s =
      { s with
        pc := s.pc.map (· + BitVec.ofNat 16 (ws.length - 1))
        pins := s.pins.shifted false
        events := s.events ++ loadWave ws } := by
  induction ws generalizing s with
  | nil => exact absurd rfl hws
  | cons w ws ih =>
    cases ws with
    | nil => simp [loadWords, performAll_loadData, loadWave]
    | cons v vs =>
      rw [loadWords, performAll_append, performAll_loadDataInc, ih (by simp)]
      · simp only [List.length_cons, Nat.add_sub_cancel, incMirror_map]
        simp [loadWave]
      · simp

/-- The words that an even number of bytes assembles into are half as many (30_encoding R86). -/
theorem wordsOfBytes_length (n : Nat) (bs : List Byte) (h : bs.length = 2 * n) :
    (wordsOfBytes bs).length = n := by
  induction n generalizing bs with
  | zero =>
    have : bs = [] := List.eq_nil_of_length_eq_zero (by simpa using h)
    simp [this, wordsOfBytes]
  | succ n ih =>
    match bs, h with
    | b0 :: b1 :: bs, h =>
      simp only [List.length_cons] at h
      simp [wordsOfBytes, ih bs (by omega)]
    | [_], h => simp at h; omega
    | [], h => simp at h

end Sys2Proof.Machine
end

