-- ==== Sys2Proof/Laws/Decode.lean ====
section
/-!
SUPPORT. Byte order and bit order, said once: a word and its two bytes, a value and its bits as clocked, and
what each command byte selects.
-/

namespace Sys2Proof

/-! ### Words and bytes (20_memory R64) -/

theorem Word.getLsbD_ofBytes (b0 b1 : Byte) (i : Nat) :
    (Word.ofBytes b0 b1).getLsbD i = if i < 8 then b1.getLsbD i else b0.getLsbD (i - 8) :=
  (BitVec.getLsbD_append (x := b0) (y := b1) (i := i)).trans (by simp)

@[simp] theorem Word.ofBytes_hi_lo (w : Word) : Word.ofBytes w.hi w.lo = w := by
  apply BitVec.eq_of_getLsbD_eq
  intro i hi
  rw [Word.getLsbD_ofBytes]
  simp only [Word.hi, Word.lo, BitVec.getLsbD_extractLsb']
  split
  · simp [*]
  · rw [show 8 + (i - 8) = i by omega]
    simp
    omega

@[simp] theorem Word.hi_ofBytes (b0 b1 : Byte) : Word.hi (Word.ofBytes b0 b1) = b0 := by
  apply BitVec.eq_of_getLsbD_eq
  intro i hi
  simp only [Word.hi, BitVec.getLsbD_extractLsb', Word.getLsbD_ofBytes]
  simp [hi]

@[simp] theorem Word.lo_ofBytes (b0 b1 : Byte) : Word.lo (Word.ofBytes b0 b1) = b1 := by
  apply BitVec.eq_of_getLsbD_eq
  intro i hi
  simp only [Word.lo, BitVec.getLsbD_extractLsb', Word.getLsbD_ofBytes]
  simp [hi]

/-! ### Values and bits, most significant first (20_memory R65) -/

@[simp] theorem bitsMsb_length {k : Nat} (v : BitVec k) (n : Nat) : (bitsMsb v n).length = n := by
  induction n with
  | zero => rfl
  | succ n ih => simp [bitsMsb, ih]

/-- The bit clocked at place `i` of `n`. -/
theorem bitsMsb_getElem {k : Nat} (v : BitVec k) (n i : Nat) (h : i < n) :
    (bitsMsb v n)[i]'(by simpa using h) = v.getLsbD (n - 1 - i) := by
  induction n generalizing i with
  | zero => omega
  | succ n ih =>
    cases i with
    | zero => simp [bitsMsb]
    | succ i =>
      simp only [bitsMsb, List.getElem_cons_succ]
      rw [ih i (by omega)]
      congr 1
      omega

/-- Shifting bits into `u` from the low end. -/
theorem foldl_shiftConcat_getLsbD {k : Nat} (bits : List Bool) (u : BitVec k) (i : Nat)
    (h : bits.length ≤ k) :
    (bits.foldl (fun v b => v.shiftConcat b) u).getLsbD i =
      if i < bits.length then bits.getD (bits.length - 1 - i) false
      else decide (i < k) && u.getLsbD (i - bits.length) := by
  induction bits generalizing u with
  | nil =>
    simp
    exact fun h => BitVec.lt_of_getLsbD h
  | cons b bits ih =>
    simp only [List.length_cons] at h
    rw [List.foldl_cons, ih _ (by omega)]
    simp only [List.length_cons, List.getD_eq_getElem?_getD, Nat.add_sub_cancel]
    rcases Nat.lt_trichotomy i bits.length with hi | hi | hi
    · rw [if_pos hi, if_pos (by omega),
        show bits.length - i = (bits.length - 1 - i) + 1 by omega, List.getElem?_cons_succ]
    · subst hi
      have h1 : bits.length < k := by omega
      have h2 : 0 < k := by omega
      simp [h1, h2]
    · have h0 : i - bits.length ≠ 0 := by omega
      rw [if_neg (by omega), if_neg (by omega)]
      by_cases hk : i < k
      · have h1 : i - bits.length < k := by omega
        rw [BitVec.getLsbD_shiftConcat]
        simp [h0, h1, hk, Nat.sub_sub]
      · simp [hk]

/-- Reading the bits of a value back gives the value. -/
@[simp] theorem ofBitsMsb_bitsMsb {k : Nat} (v : BitVec k) : ofBitsMsb k (bitsMsb v k) = v := by
  apply BitVec.eq_of_getLsbD_eq
  intro i hi
  rw [ofBitsMsb, foldl_shiftConcat_getLsbD _ _ _ (by simp), bitsMsb_length, if_pos hi,
    List.getD_eq_getElem _ _ (by simp; omega), bitsMsb_getElem _ _ _ (by omega)]
  congr 1
  omega

/-- Clocking a value read from bits gives the bits. -/
theorem bitsMsb_ofBitsMsb {k : Nat} (bits : List Bool) (h : bits.length = k) :
    bitsMsb (ofBitsMsb k bits) k = bits := by
  apply List.ext_getElem
  · simp [h]
  · intro i h1 h2
    rw [bitsMsb_getElem _ _ _ (by omega), ofBitsMsb, foldl_shiftConcat_getLsbD _ _ _ (by omega),
      if_pos (by omega), List.getD_eq_getElem _ _ (by omega)]
    congr 1
    omega

/-! ### Command bytes -/

/-- What a command byte selects, and from which byte (30_encoding R81, R90). -/
theorem Command.ofByte_cases (c : Byte) :
    (c = 0x73 ∧ Command.ofByte c = .s) ∨ (c = 0x6C ∧ Command.ofByte c = .l)
      ∨ (c = 0x78 ∧ Command.ofByte c = .x) ∨ (c = 0x72 ∧ Command.ofByte c = .r)
      ∨ (c = 0x77 ∧ Command.ofByte c = .w) ∨ (c = 0x65 ∧ Command.ofByte c = .e)
      ∨ (c = 0x62 ∧ Command.ofByte c = .b) ∨ (c ∉ commandBytes ∧ Command.ofByte c = .unknown) := by
  by_cases h : c ∈ commandBytes
  · simp only [commandBytes, List.mem_cons, List.not_mem_nil, or_false] at h
    rcases h with rfl | rfl | rfl | rfl | rfl | rfl | rfl <;> simp [Command.ofByte]
  · have h' := h
    simp only [commandBytes, List.mem_cons, List.not_mem_nil, or_false, not_or] at h'
    have hc : Command.ofByte c = .unknown := by
      obtain ⟨h1, h2, h3, h4, h5, h6, h7⟩ := h'
      rw [Command.ofByte, if_neg h1, if_neg h2, if_neg h3, if_neg h4, if_neg h5, if_neg h6, if_neg h7]
    exact .inr (.inr (.inr (.inr (.inr (.inr (.inr ⟨h, hc⟩))))))

end Sys2Proof
end

