-- ==== Sys2Proof/Laws/Dispatch.lean ====
section
/-!
SUPPORT. Every meaning as one function of the state behind the test for a mark, so that a proof over all
instructions need not unfold sixteen of them.
-/

namespace Sys2Proof.Machine

/-- What an instruction leaves of an unmarked machine: a wire command's handler entered and carried on, or
an ICSP command's event list. -/
def effect (i : Instr) (s : State) : State :=
  match i with
  | .enterHv => settle (startEnterHv s)
  | .enterLvp => settle (startEnterLvp s)
  | .exit => settle (startExit s)
  | .read addr len => settle (startRead addr len s)
  | .write addr len => settle (startWrite addr len s)
  | .eraseRow addr => settle (startEraseRow addr s)
  | .bulkErase addr => settle (startBulkErase addr s)
  | .unknown c => settle (startUnknown c s)
  | .icspLoadPc w => (runOps (loadPcOps w) s).state
  | .icspReadDataInc => (runOps readDataIncOps s).state
  | .icspLoadDataInc w => (runOps (loadDataIncOps w) s).state
  | .icspLoadData w => (runOps (loadDataOps w) s).state
  | .icspBeginProg => (runOps beginProgOps s).state
  | .icspRowErase => (runOps rowEraseOps s).state
  | .icspBulkErase => (runOps bulkEraseOps s).state
  | .lvpKey => (runOps sendKey s).state

/-- Every instruction answers its effect, unless the machine is marked. -/
theorem exec_effect (i : Instr) (s : State) : exec i s = live s (effect i) := by
  cases i <;> rfl

/-- What it means that an instruction answers a next state. -/
theorem exec_next {i : Instr} {s t : State} (h : exec i s = .next t) :
    s.refused = none ∧ t = effect i s := by
  rw [exec_effect, live] at h
  split at h
  · cases h
  · cases h
    exact ⟨‹_›, rfl⟩

/-- A wire command's effect is its handler, entered and carried on. -/
theorem effect_wire {i : Instr} (h : i.isWire = true) (s : State) :
    effect i s = settle (start i s) := by
  cases i <;> first | rfl | cases h

/-- An ICSP command's effect is its event list, run. -/
theorem effect_icsp {i : Instr} {c : Byte} {ops : List Op} (h : icspPlace i = some (c, ops))
    (s : State) : effect i s = (runOps ops s).state := by
  cases i <;> cases h <;> rfl

/-! ### The mode guard, and where a handler stands -/

theorem guarded_disconnected {s : State} (f : State → State) (h : s.mode = .disconnected) :
    guarded s f = s.refuse .cmdWhileDisconnected := by
  simp [guarded, h]

theorem guarded_connected {s : State} (f : State → State) (h : s.mode ≠ .disconnected) :
    guarded s f = f s := by
  simp [guarded, h]

theorem settle_idle {s : State} (h : s.ctrl = .idle) : settle s = s := by
  simp [settle, h]

theorem settle_events {s : State} {c : Byte} {ops : List Op} (h : s.ctrl = .busy c (.events ops)) :
    settle s = emit ops s := by
  simp [settle, h]

theorem settle_data {s : State} {c : Byte} {addr len : Word}
    (h : s.ctrl = .busy c (.data addr len)) : settle s = writeData addr len s := by
  simp [settle, h]

/-- A `w` that passes the checks enters data reception (43_write_erase R190). -/
theorem startWrite_accepted {s : State} {addr len : Word} (hm : s.mode ≠ .disconnected)
    (h0 : len ≠ 0) (hw : len.toNat ≤ s.params.wbufWords) :
    startWrite addr len s =
      { s.latchArgs addr len with got := [], ctrl := .busy 0x77 (.data addr len) } := by
  rw [startWrite, guarded_connected _ hm]
  simp [State.latchArgs, Nat.not_lt.mpr hw, show ¬ len = 0#16 from h0]

end Sys2Proof.Machine
end

