-- ==== Sys2Proof/Laws/Kept.lean ====
section
/-!
SUPPORT. Everything a step can do to a state, packaged as one induction: a property that each elementary
change keeps is kept by every handler, every instruction, every step and every single move.
-/

namespace Sys2Proof.Machine

/-- A property of states that every elementary change of the machine keeps. -/
structure Kept (P : State → Prop) : Prop where
  op : ∀ (op : Op) (s : State), P s → P (op.perform s)
  script : ∀ (s : State) (q : List Stimulus), P s → P { s with inputs := q }
  hostByte : ∀ (s : State) (b : Byte), P s → P (s.hostByte b)
  reset : ∀ s : State, P s → P s.deviceReset
  refuse : ∀ (s : State) (r : Reason), P s → P (s.refuse r)
  rx : ∀ (s : State) (b : Byte) (q : List Byte), s.rxq = b :: q → P s →
    P ({ s with rxq := q }.record (.rx b))
  lapse : ∀ s : State, P s → P (s.record .rxTimeout)
  /-- `CTRL`, the operands, `got` and `WBUF` may take any value. -/
  control : ∀ (s : State) (c : Ctrl) (a l : Option Word) (w : List Word) (g : List Byte), P s →
    P { s with ctrl := c, argAddr := a, argLen := l, wbuf := w, got := g }

variable {P : State → Prop}

namespace Kept

theorem toIdle (k : Kept P) (s : State) (h : P s) : P s.toIdle :=
  k.control s .idle s.argAddr s.argLen s.wbuf s.got h

theorem enter (k : Kept P) (s : State) (c : Byte) (ops : List Op) (h : P s) : P (s.enter c ops) :=
  k.control s _ s.argAddr s.argLen s.wbuf s.got h

theorem left (k : Kept P) (s : State) (ops : List Op) (h : P s) : P (s.left ops) :=
  k.control s _ s.argAddr s.argLen s.wbuf s.got h

theorem latchAddr (k : Kept P) (s : State) (a : Word) (h : P s) : P (s.latchAddr a) :=
  k.control s s.ctrl _ s.argLen s.wbuf s.got h

theorem latchArgs (k : Kept P) (s : State) (a n : Word) (h : P s) : P (s.latchArgs a n) :=
  k.control s s.ctrl _ _ s.wbuf s.got h

theorem fillWbuf (k : Kept P) (s : State) (h : P s) : P s.fillWbuf :=
  k.control s s.ctrl s.argAddr s.argLen _ _ h

theorem clearGot (k : Kept P) (s : State) (h : P s) : P { s with got := [] } :=
  k.control s s.ctrl s.argAddr s.argLen s.wbuf _ h

theorem takeByte (k : Kept P) (s : State) (h : P s) : P s.takeByte := by
  unfold State.takeByte
  split
  · exact h
  · rename_i b q hq
    exact k.control _ s.ctrl s.argAddr s.argLen s.wbuf (s.got ++ [b]) (k.rx s b q hq h)

theorem lapseField (k : Kept P) (s : State) (h : P s) : P s.lapse :=
  k.lapse _ (k.clearGot s h)

theorem guarded (k : Kept P) (s : State) (f : State → State) (h : P s) (hf : P (f s)) :
    P (guarded s f) := by
  unfold Machine.guarded
  split
  · exact k.refuse _ _ h
  · exact hf

theorem takeCommand (k : Kept P) (s : State) (h : P s) : P s.takeCommand := by
  unfold State.takeCommand
  split
  · exact h
  · rename_i b q hq
    have hb := k.control _ (.busy b .args) s.argAddr s.argLen s.wbuf [] (k.rx s b q hq h)
    dsimp only
    split
    · exact k.guarded _ _ hb hb
    · exact hb

theorem attend (k : Kept P) (need : Need) (q : List Stimulus) (s : State) (h : P s) :
    P (attend need q s).state :=
  attend_induct need q k.script k.hostByte (fun _ => k.reset) s h

theorem runOps (k : Kept P) (ops : List Op) (s : State) (h : P s) : P (runOps ops s).state :=
  runOps_induct ops (fun op _ => k.op op) k.script k.hostByte k.left s (fun _ => k.reset) h

theorem emit (k : Kept P) (ops : List Op) (s : State) (h : P s) : P (emit ops s) :=
  emit_induct ops (fun op _ => k.op op) k.script k.hostByte k.left k.toIdle s (fun _ => k.reset) h

theorem recv (k : Kept P) (n : Nat) (s : State) (h : P s) : P (recv n s).state :=
  recv_induct n k.takeByte k.lapseField k.script k.hostByte s (fun _ => k.reset) h

theorem writeData (k : Kept P) (a n : Word) (s : State) (h : P s) : P (writeData a n s) := by
  have hr := k.recv (s.dataMissing n) s h
  unfold Machine.writeData
  split
  · rename_i t ht
    rw [ht] at hr
    exact k.emit _ _ (k.fillWbuf _ hr)
  · rename_i t ht
    rw [ht] at hr
    exact k.emit _ _ hr
  all_goals
    rename_i t ht
    rw [ht] at hr
    exact hr

theorem settle (k : Kept P) (s : State) (h : P s) : P (settle s) := by
  unfold Machine.settle
  split
  · exact h
  · exact h
  · exact k.writeData _ _ s h
  · exact k.emit _ s h

theorem start (k : Kept P) (i : Instr) (s : State) (h : P s) : P (start i s) := by
  cases i with
  | enterHv => exact k.enter _ _ _ h
  | enterLvp => exact k.enter _ _ _ h
  | exit => exact k.enter _ _ _ h
  | read a n =>
    unfold Machine.start startRead
    exact k.guarded _ _ h (k.enter _ _ _ (k.latchArgs _ _ _ h))
  | write a n =>
    unfold Machine.start startWrite
    refine k.guarded _ _ h ?_
    have ha := k.latchArgs s a n h
    dsimp only
    split
    · exact k.refuse _ _ ha
    · split
      · exact k.refuse _ _ ha
      · exact k.control _ (.busy 0x77 (.data a n)) _ _ _ [] ha
  | eraseRow a =>
    unfold Machine.start startEraseRow
    exact k.guarded _ _ h (k.enter _ _ _ (k.latchAddr _ _ h))
  | bulkErase a =>
    unfold Machine.start startBulkErase
    exact k.guarded _ _ h (k.enter _ _ _ (k.latchAddr _ _ h))
  | unknown c => exact k.enter _ _ _ h
  | icspLoadPc w => exact k.enter _ _ _ h
  | icspReadDataInc => exact k.enter _ _ _ h
  | icspLoadDataInc w => exact k.enter _ _ _ h
  | icspLoadData w => exact k.enter _ _ _ h
  | icspBeginProg => exact k.enter _ _ _ h
  | icspRowErase => exact k.enter _ _ _ h
  | icspBulkErase => exact k.enter _ _ _ h
  | lvpKey => exact k.enter _ _ _ h

theorem effect (k : Kept P) (i : Instr) (s : State) (h : P s) : P (effect i s) := by
  cases i with
  | enterHv => exact k.settle _ (k.start .enterHv s h)
  | enterLvp => exact k.settle _ (k.start .enterLvp s h)
  | exit => exact k.settle _ (k.start .exit s h)
  | read a n => exact k.settle _ (k.start (.read a n) s h)
  | write a n => exact k.settle _ (k.start (.write a n) s h)
  | eraseRow a => exact k.settle _ (k.start (.eraseRow a) s h)
  | bulkErase a => exact k.settle _ (k.start (.bulkErase a) s h)
  | unknown c => exact k.settle _ (k.start (.unknown c) s h)
  | icspLoadPc w => exact k.runOps _ s h
  | icspReadDataInc => exact k.runOps _ s h
  | icspLoadDataInc w => exact k.runOps _ s h
  | icspLoadData w => exact k.runOps _ s h
  | icspBeginProg => exact k.runOps _ s h
  | icspRowErase => exact k.runOps _ s h
  | icspBulkErase => exact k.runOps _ s h
  | lvpKey => exact k.runOps _ s h

/-- Every instruction keeps the property. -/
theorem exec (k : Kept P) {i : Instr} {s t : State} (he : exec i s = .next t) (h : P s) : P t := by
  rw [(exec_next he).2]
  exact k.effect i s h

/-- The states fetching can come to keep the property. -/
theorem fetchArgs (k : Kept P) (c : Byte) (s : State) (h : P s) :
    match fetchArgs c s with
    | .stopped _ => True
    | .settled t => P t
    | .instr _ t => P t := by
  have hr := k.recv (s.argsMissing c) s h
  unfold Machine.fetchArgs
  cases hc : Machine.recv (s.argsMissing c) s with
  | complete t =>
    rw [hc] at hr
    dsimp only
    cases hd : decodeFrame (c :: t.got) with
    | ok p => exact k.clearGot _ hr
    | error err => exact hr
  | timeout t => rw [hc] at hr; exact k.emit _ _ hr
  | waiting t => rw [hc] at hr; exact hr
  | ended t => rw [hc] at hr; exact hr

/-- Every step keeps the property. -/
theorem step (k : Kept P) {s t : State} (hs : step s = .next t) (h : P s) : P t := by
  have args : ∀ (c : Byte) (u : State), P u →
      (match Machine.fetchArgs c u with
        | .stopped r => .refused r
        | .settled v => .next v
        | .instr i v => Machine.exec i v) = Host.Outcome.next t → P t := by
    intro c u hu hf
    have ha := k.fetchArgs c u hu
    cases hc : Machine.fetchArgs c u with
    | stopped r => rw [hc] at hf; cases hf
    | settled v => rw [hc] at hf ha; cases hf; exact ha
    | instr i v => rw [hc] at hf ha; exact k.exec hf ha
  unfold Machine.step fetch at hs
  cases hr : s.refused with
  | some r => simp [hr] at hs
  | none =>
    simp only [hr] at hs
    cases hc : s.ctrl with
    | idle =>
      simp only [hc] at hs
      have ha := k.attend .command s.inputs s h
      cases hat : Machine.attend .command s.inputs s with
      | go u =>
        rw [hat] at hs ha
        have hu := k.takeCommand u ha
        cases hcc : u.takeCommand.ctrl with
        | idle => simp only [hcc] at hs; cases hs; exact hu
        | busy c p =>
          cases p with
          | args => simp only [hcc] at hs; exact args c _ hu hs
          | data a n => simp only [hcc] at hs; cases hs; exact hu
          | events ops => simp only [hcc] at hs; cases hs; exact hu
      | timeout u => rw [hat] at hs ha; cases hs; exact ha
      | blocked u => rw [hat] at hs ha; cases hs; exact ha
      | ended u => rw [hat] at hs ha; cases hs; exact ha
    | busy c p =>
      cases p with
      | args => simp only [hc] at hs; exact args c _ h hs
      | data a n => simp only [hc] at hs; cases hs; exact k.settle _ h
      | events ops => simp only [hc] at hs; cases hs; exact k.settle _ h

theorem afterArgs (k : Kept P) (c : Byte) (s : State) (h : P s) : P (afterArgs c s) := by
  unfold Machine.afterArgs
  split
  · split
    · exact k.start _ _ (k.clearGot _ h)
    · exact h
  · exact h

theorem afterData (k : Kept P) (c : Byte) (a n : Word) (s : State) (h : P s) :
    P (afterData c a n s) := by
  unfold Machine.afterData
  split
  · exact k.enter _ _ _ (k.fillWbuf _ h)
  · exact h

theorem advance (k : Kept P) (s : State) (h : P s) : P (advance s) := by
  unfold Machine.advance
  split
  · split
    · exact k.afterArgs _ _ (k.takeCommand _ h)
    · exact k.takeCommand _ h
  · split
    · exact k.afterArgs _ _ h
    · exact k.afterArgs _ _ (k.takeByte _ h)
  · split
    · exact k.afterData _ _ _ _ h
    · exact k.afterData _ _ _ _ (k.takeByte _ h)
  · exact k.toIdle _ h
  · unfold afterEvent
    split
    · exact k.toIdle _ (k.op _ _ h)
    · exact k.enter _ _ _ (k.op _ _ h)

theorem move (k : Kept P) (s : State) (h : P s) : P (move s) := by
  unfold Machine.move
  split
  · split
    · exact k.advance _ h
    · exact h
  · split
    · exact k.advance _ (k.script _ _ h)
    · exact k.script _ _ h
  · split
    · unfold Machine.lapseField
      have hq := k.script s ‹_› h
      split
      · exact hq
      · exact k.enter _ _ _ (k.lapseField _ hq)
      · exact k.enter _ _ _ (k.lapseField _ hq)
      · exact hq
    · exact k.script _ _ h
  · exact k.hostByte _ _ (k.script _ _ h)
  · exact k.reset _ (k.script _ _ h)

/-- Every single move keeps the property. -/
theorem eventStep (k : Kept P) {s t : State} (hs : eventStep s = .next t) (h : P s) : P t := by
  unfold Machine.eventStep live at hs
  split at hs
  · cases hs
  · cases hs
    exact k.move s h

end Kept

end Sys2Proof.Machine
end

