-- ==== Sys2Proof/Laws/Lists.lean ====
section
/-!
SUPPORT. Which moves each event list is made of: a property of moves that the pulses have, and the few other
moves a command uses, holds of every move of the command.
-/

namespace Sys2Proof.Machine

/-- A property that every move of a field clocked out has. -/
structure OnPulses (Q : Op → Prop) : Prop where
  level : ∀ (p : Pin) (v : Bool), Q (.level p v)
  hold : ∀ t : HoldName, Q (.hold t)

theorem forall_mem_append {Q : Op → Prop} {a b : List Op} (ha : ∀ op ∈ a, Q op)
    (hb : ∀ op ∈ b, Q op) : ∀ op ∈ a ++ b, Q op := by
  intro op ho
  rcases List.mem_append.mp ho with h | h
  · exact ha _ h
  · exact hb _ h

variable {Q : Op → Prop}

namespace OnPulses

theorem shiftOut (h : OnPulses Q) {k : Nat} (v : BitVec k) (n : Nat) :
    ∀ op ∈ shiftOut v n, Q op := by
  induction n with
  | zero => simp [Machine.shiftOut]
  | succ n ih =>
    intro op ho
    simp only [Machine.shiftOut, bitOut, List.cons_append, List.nil_append, List.mem_cons] at ho
    rcases ho with rfl | rfl | rfl | rfl | rfl | ho
    all_goals first | exact h.level _ _ | exact h.hold _ | exact ih _ ho

theorem sendPayload (h : OnPulses Q) (w : Word) : ∀ op ∈ sendPayload w, Q op :=
  forall_mem_append (h.shiftOut _ _) (by simpa using h.hold _)

theorem withPayload (h : OnPulses Q) (op : Byte) (w : Word) :
    ∀ o ∈ sendCmd op ++ [.hold .dly] ++ Machine.sendPayload w, Q o :=
  forall_mem_append (forall_mem_append (h.shiftOut _ _) (by simpa using h.hold _))
    (h.sendPayload w)

theorem loadData (h : OnPulses Q) (w : Word) : ∀ op ∈ loadDataOps w, Q op := h.withPayload _ w

theorem loadDataInc (h : OnPulses Q) (hi : Q .incPc) (w : Word) : ∀ op ∈ loadDataIncOps w, Q op :=
  forall_mem_append (h.withPayload _ w) (by simpa using hi)

theorem loadPc (h : OnPulses Q) (w : Word) (hp : Q (.setPc w)) : ∀ op ∈ loadPcOps w, Q op :=
  forall_mem_append (h.withPayload _ w) (by simpa using hp)

theorem beginProg (h : OnPulses Q) : ∀ op ∈ beginProgOps, Q op :=
  forall_mem_append (h.shiftOut _ _) (by simpa using h.hold _)

theorem rowErase (h : OnPulses Q) : ∀ op ∈ rowEraseOps, Q op :=
  forall_mem_append (h.shiftOut _ _) (by simpa using h.hold _)

theorem bulkErase (h : OnPulses Q) : ∀ op ∈ bulkEraseOps, Q op :=
  forall_mem_append (h.shiftOut _ _) (by simpa using h.hold _)

theorem sendKey (h : OnPulses Q) : ∀ op ∈ sendKey, Q op := h.shiftOut _ _

theorem loadWords (h : OnPulses Q) (hi : Q .incPc) (ws : List Word) :
    ∀ op ∈ loadWords ws, Q op := by
  induction ws with
  | nil => simp [Machine.loadWords]
  | cons w ws ih =>
    cases ws with
    | nil => exact h.loadData w
    | cons v vs => exact forall_mem_append (h.loadDataInc hi w) ih

theorem clockIn (h : OnPulses Q) (n : Nat) : ∀ op ∈ clockIn n, Q op := by
  induction n with
  | zero => simp [Machine.clockIn]
  | succ n ih =>
    refine forall_mem_append ?_ ih
    simp only [clockCell, List.mem_cons, List.not_mem_nil, or_false]
    rintro op (rfl | rfl | rfl | rfl)
    all_goals first | exact h.level _ _ | exact h.hold _

theorem sampleCells (h : OnPulses Q) (hs : Q .sample) (n : Nat) : ∀ op ∈ sampleCells n, Q op := by
  induction n with
  | zero => simp [Machine.sampleCells]
  | succ n ih =>
    refine forall_mem_append ?_ ih
    simp only [sampleCell, List.mem_cons, List.not_mem_nil, or_false]
    rintro op (rfl | rfl | rfl | rfl | rfl)
    all_goals first | exact h.level _ _ | exact h.hold _ | exact hs

theorem readDataInc (h : OnPulses Q) (hi : Q .incPc) (hr : Q (.release .dat)) (hc : Q .clearWord)
    (hs : Q .sample) : ∀ op ∈ readDataIncOps, Q op := by
  refine forall_mem_append (forall_mem_append (forall_mem_append (h.shiftOut _ _)
    (by simpa using h.hold _)) ?_) (by simpa using hi)
  intro op ho
  rcases List.mem_cons.mp ho with rfl | ho
  · exact hr
  · refine forall_mem_append (forall_mem_append (h.clockIn 7) ?_) (h.clockIn 1) op ho
    intro op ho
    rcases List.mem_cons.mp ho with rfl | ho
    · exact hc
    · exact h.sampleCells hs 16 op ho

end OnPulses

end Sys2Proof.Machine
end

