-- ==== Sys2Proof/Laws/PerInstr.lean ====
section
/-!
SUPPORT. A statement about every instruction as syntax, one lemma per constructor: the length of its encoding.
-/

namespace Sys2Proof.Laws.CodeLength

/-- The clocks of an ICSP command that carry bits of the sequencer's (40_pulse_generator R126). -/
def ownClocks (i : Instr) : Nat :=
  match i with
  | .enterHv => 0
  | .enterLvp => 0
  | .exit => 0
  | .read _ _ => 0
  | .write _ _ => 0
  | .eraseRow _ => 0
  | .bulkErase _ => 0
  | .unknown _ => 0
  | .icspLoadPc _ => 32
  | .icspReadDataInc => 8
  | .icspLoadDataInc _ => 32
  | .icspLoadData _ => 32
  | .icspBeginProg => 8
  | .icspRowErase => 8
  | .icspBulkErase => 8
  | .lvpKey => 32

/-- A well-formed wire command's frame is its command byte and the argument bytes that byte fixes
(30_encoding R82, R83); an ICSP command's field is one bit for each of its own clocks. -/
def Statement (i : Instr) : Prop :=
  i.wellFormed = true →
    match encode i with
    | .frame bytes =>
      i.isWire = true ∧ bytes.length = 1 + (bytes.head?.map fun c => (Command.ofByte c).argBytes).getD 0
    | .field bits => i.isWire = false ∧ bits.length = ownClocks i

theorem enterHv : Statement .enterHv := fun _ => ⟨rfl, rfl⟩

theorem enterLvp : Statement .enterLvp := fun _ => ⟨rfl, rfl⟩

theorem exit : Statement .exit := fun _ => ⟨rfl, rfl⟩

theorem read (addr len : Word) : Statement (.read addr len) := fun _ => ⟨rfl, rfl⟩

theorem write (addr len : Word) : Statement (.write addr len) := fun _ => ⟨rfl, rfl⟩

theorem eraseRow (addr : Word) : Statement (.eraseRow addr) := fun _ => ⟨rfl, rfl⟩

theorem bulkErase (addr : Word) : Statement (.bulkErase addr) := fun _ => ⟨rfl, rfl⟩

theorem unknown (c : Byte) : Statement (.unknown c) := by
  intro h
  rcases Command.ofByte_cases c with ⟨rfl, -⟩ | ⟨rfl, -⟩ | ⟨rfl, -⟩ | ⟨rfl, -⟩ | ⟨rfl, -⟩ | ⟨rfl, -⟩ |
    ⟨rfl, -⟩ | ⟨-, hc⟩
  all_goals first | exact absurd h (by decide) | exact ⟨rfl, by simp [hc, Command.argBytes]⟩

theorem icspLoadPc (w : Word) : Statement (.icspLoadPc w) := fun _ => ⟨rfl, rfl⟩

theorem icspReadDataInc : Statement .icspReadDataInc := fun _ => ⟨rfl, rfl⟩

theorem icspLoadDataInc (w : Word) : Statement (.icspLoadDataInc w) := fun _ => ⟨rfl, rfl⟩

theorem icspLoadData (w : Word) : Statement (.icspLoadData w) := fun _ => ⟨rfl, rfl⟩

theorem icspBeginProg : Statement .icspBeginProg := fun _ => ⟨rfl, rfl⟩

theorem icspRowErase : Statement .icspRowErase := fun _ => ⟨rfl, rfl⟩

theorem icspBulkErase : Statement .icspBulkErase := fun _ => ⟨rfl, rfl⟩

theorem lvpKey : Statement .lvpKey := fun _ => ⟨rfl, rfl⟩

end Sys2Proof.Laws.CodeLength
end

