-- ==== Sys2Proof/Laws/Script.lean ====
section
/-!
SUPPORT. The script, said once: every outcome of a turn, and what a run over an event list leaves when the host
sends bytes meanwhile.
-/

namespace Sys2Proof.Machine

/-- `s` after the bytes `r` have arrived, the script being at `q`. -/
def State.arrive (s : State) (r : List Byte) (q : List Stimulus) : State :=
  { s with rxq := s.rxq ++ r, inputs := q }

theorem State.arrive_nil (s : State) : s.arrive [] s.inputs = s := by
  simp [State.arrive]

/-- Every outcome of a turn that plays `q` from `s`: the bytes `r` arrive, and the turn stops at `q'`. -/
inductive Turned (need : Need) (q : List Stimulus) (s : State) : Turn → Prop where
  | go (r : List Byte) (q' : List Stimulus) (hq : q' <:+ q)
      (hb : .deviceReset ∉ q → scriptBytes q = r ++ scriptBytes q')
      (hready : (s.arrive r q').ready need = true)
      (hcap : s.rxq.length ≤ s.params.rxCap → (s.rxq ++ r).length ≤ s.params.rxCap) :
      Turned need q s (.go (s.arrive r q'))
  | timeout (r : List Byte) (q' : List Stimulus) (hq : q' <:+ q) (hmem : .rxTimeout ∈ q)
      (hb : .deviceReset ∉ q → scriptBytes q = r ++ scriptBytes q')
      (hneed : need = .field) (hempty : s.rxq ++ r = []) :
      Turned need q s (.timeout (s.arrive r q'))
  | blocked (r : List Byte)
      (hb : .deviceReset ∉ q → scriptBytes q = r)
      (hneed : need ≠ .nothing) (hempty : s.rxq ++ r = []) :
      Turned need q s (.blocked (s.arrive r []))
  | overflow (r : List Byte) (q' : List Stimulus) (hq : q' <:+ q) (hr : r <+: scriptBytes q)
      (hfull : s.params.rxCap ≤ (s.rxq ++ r).length)
      (hlen : r.length < (scriptBytes q).length)
      (hcap : s.rxq.length ≤ s.params.rxCap → (s.rxq ++ r).length ≤ s.params.rxCap) :
      Turned need q s (.ended ((s.arrive r q').mark .rxOverflow))
  | reset (r : List Byte) (q' : List Stimulus) (hq : q' <:+ q) (hmem : .deviceReset ∈ q) :
      Turned need q s (.ended (s.arrive r q').deviceReset)

/-- What a turn can do (10_state R42, R43; 41_dispatch_and_mode R151; 60_exceptions R230). -/
theorem attend_turned (need : Need) (q : List Stimulus) (s : State) :
    Turned need q s (attend need q s) := by
  -- a stimulus that brings no byte, in front of what `ih` says
  have skip : ∀ (st : Stimulus) (q : List Stimulus) (s : State) (o : Turn),
      (∀ b, st ≠ .hostByte b) → Turned need q s o → Turned need (st :: q) s o := by
    intro st q s o hst h
    have hsb : scriptBytes (st :: q) = scriptBytes q := by
      cases st <;> first | rfl | exact absurd rfl (hst _)
    cases h with
    | go r q' hq hb hready hcap =>
      exact .go r q' (hq.trans (List.suffix_cons _ _))
        (fun hn => by rw [hsb]; exact hb (fun hm => hn (List.mem_cons_of_mem _ hm))) hready hcap
    | timeout r q' hq hmem hb hneed hempty =>
      exact .timeout r q' (hq.trans (List.suffix_cons _ _)) (List.mem_cons_of_mem _ hmem)
        (fun hn => by rw [hsb]; exact hb (fun hm => hn (List.mem_cons_of_mem _ hm))) hneed hempty
    | blocked r hb hneed hempty =>
      exact .blocked r
        (fun hn => by rw [hsb]; exact hb (fun hm => hn (List.mem_cons_of_mem _ hm))) hneed hempty
    | overflow r q' hq hr hfull hlen hcap =>
      exact .overflow r q' (hq.trans (List.suffix_cons _ _)) (hsb ▸ hr) hfull (hsb ▸ hlen) hcap
    | reset r q' hq hmem =>
      exact .reset r q' (hq.trans (List.suffix_cons _ _)) (List.mem_cons_of_mem _ hmem)
  induction q generalizing s with
  | nil =>
    simp only [attend]
    have ha : { s with inputs := [] } = s.arrive [] [] := by simp [State.arrive]
    split
    · rename_i h
      rw [ha]
      exact .go [] [] List.nil_suffix (fun _ => rfl)
        (by simpa [State.arrive, State.ready] using h) (by simp)
    · rename_i h
      rw [ha]
      simp only [State.ready, Bool.or_eq_true, beq_iff_eq, Bool.not_eq_eq_eq_not, Bool.not_true,
        List.isEmpty_eq_false_iff, not_or, not_not] at h
      exact .blocked [] (fun _ => rfl) h.1 (by simp [h.2])
  | cons st q ih =>
    cases st with
    | run =>
      simp only [attend]
      split
      · rename_i h
        have ha : { s with inputs := q } = s.arrive [] q := by simp [State.arrive]
        rw [ha]
        exact .go [] q (List.suffix_cons _ _) (fun _ => rfl)
          (by simpa [State.arrive, State.ready] using h) (by simp)
      · exact skip _ _ _ _ (by simp) (ih s)
    | rxTimeout =>
      simp only [attend]
      split
      · rename_i h
        simp only [State.mayTimeOut, Bool.and_eq_true, beq_iff_eq, List.isEmpty_iff] at h
        have ha : { s with inputs := q } = s.arrive [] q := by simp [State.arrive]
        rw [ha]
        exact .timeout [] q (List.suffix_cons _ _) List.mem_cons_self (fun _ => rfl) h.1
          (by simp [h.2])
      · exact skip _ _ _ _ (by simp) (ih s)
    | hostByte b =>
      simp only [attend]
      split
      · rename_i hc
        have hstep : s.hostByte b = { s with rxq := s.rxq ++ [b] } := by
          simp [State.hostByte, hc]
        have harr : ∀ r q', State.arrive { s with rxq := s.rxq ++ [b] } r q'
            = s.arrive (b :: r) q' := by
          intro r q'; simp [State.arrive]
        have h := ih (s.hostByte b)
        rw [hstep] at h ⊢
        have hfit : (s.rxq ++ [b]).length ≤ s.params.rxCap := by simpa using hc
        cases h' : attend need q { s with rxq := s.rxq ++ [b] } with
        | go t =>
          rw [h'] at h
          cases h with
          | go r q' hq hb hready hcap =>
            rw [harr] at hready ⊢
            exact .go (b :: r) q' (hq.trans (List.suffix_cons _ _))
              (fun hn => by
                simp [scriptBytes, hb (fun hm => hn (List.mem_cons_of_mem _ hm))])
              hready (fun _ => by simpa using hcap hfit)
        | timeout t =>
          rw [h'] at h
          cases h with
          | timeout r q' hq hmem hb hneed hempty => simp at hempty
        | blocked t =>
          rw [h'] at h
          cases h with
          | blocked r hb hneed hempty => simp at hempty
        | ended t =>
          rw [h'] at h
          cases h with
          | overflow r q' hq hr hfull hlen hcap =>
            rw [harr]
            exact .overflow (b :: r) q' (hq.trans (List.suffix_cons _ _))
              (by simpa [scriptBytes] using hr) (by simpa using hfull)
              (by simpa [scriptBytes] using hlen) (fun _ => by simpa using hcap hfit)
          | reset r q' hq hmem =>
            rw [harr]
            exact .reset (b :: r) q' (hq.trans (List.suffix_cons _ _))
              (List.mem_cons_of_mem _ hmem)
      · rename_i hc
        have ha : ({ s with inputs := q }).hostByte b = (s.arrive [] q).mark .rxOverflow := by
          simp [State.hostByte, hc, State.arrive]
        rw [ha]
        exact .overflow [] q (List.suffix_cons _ _) List.nil_prefix (by simpa using hc)
          (by simp [scriptBytes]) (by simp)
    | deviceReset =>
      simp only [attend]
      have ha : { s with inputs := q } = s.arrive [] q := by simp [State.arrive]
      rw [ha]
      exact .reset [] q (List.suffix_cons _ _) List.mem_cons_self

/-! ### Moves and the queue -/

/-- Only `discardRx` looks at the queue, and no move looks at the script. -/
theorem Op.perform_arrive (op : Op) (s : State) (x : List Byte) (q : List Stimulus) :
    op.perform { s with rxq := x, inputs := q } =
      { op.perform s with rxq := (op.perform { s with rxq := x }).rxq, inputs := q } := by
  cases op <;> rfl

/-- However the bytes arrive, moves leave every field but the queue and the script as if none had. -/
theorem performAll_arrive (ops : List Op) (s : State) (x : List Byte) (q : List Stimulus) :
    ∃ y, performAll ops { s with rxq := x, inputs := q } =
      { performAll ops s with rxq := y, inputs := q } := by
  induction ops generalizing s x with
  | nil => exact ⟨x, rfl⟩
  | cons op ops ih =>
    rw [performAll_cons, performAll_cons, Op.perform_arrive]
    exact ih (op.perform s) _

/-- A run that is not cut short leaves what its moves leave, but for the queue and the script. -/
theorem runOps_done (ops : List Op) (s t : State) (h : runOps ops s = .done t) :
    ∃ y q, t = { performAll ops s with rxq := y, inputs := q } ∧ q <:+ s.inputs := by
  induction ops generalizing s with
  | nil =>
    cases h
    exact ⟨t.rxq, t.inputs, rfl, List.suffix_rfl⟩
  | cons op ops ih =>
    rw [runOps] at h
    have ht := attend_turned .nothing s.inputs s
    cases h' : attend .nothing s.inputs s with
    | go u =>
      rw [h'] at h ht
      cases ht with
      | go r q' hq hb hready hcap =>
        obtain ⟨y, q, rfl, hs⟩ := ih _ h
        rw [State.arrive, Op.perform_arrive] at hs ⊢
        obtain ⟨z, hz⟩ := performAll_arrive ops (op.perform s) _ q'
        rw [hz]
        exact ⟨y, q, rfl, hs.trans hq⟩
    | timeout u => rw [h'] at h; cases h
    | blocked u => rw [h'] at h; cases h
    | ended u => rw [h'] at h; cases h

end Sys2Proof.Machine
end

