-- ==== Sys2Proof/Laws/Waves.lean ====
section
/-!
SUPPORT. What is read off each waveform: the bits it carries, its clocks, its samples and its least time
(40_pulse_generator R126, R127; 70_reset_and_hazards R263).
-/

namespace Sys2Proof.Machine

/-! ### Bits put out -/

@[simp] theorem outBits_nil : outBits [] = [] := by
  simp [outBits]

@[simp] theorem outBits_hold (t : HoldName) (es : List Event) :
    outBits (.hold t :: es) = outBits es := by
  simp [outBits]

theorem outBits_bitCell (b : Bool) (es : List Event) :
    outBits (bitCell b ++ es) = b :: outBits es := by
  simp [bitCell, outBits]

theorem outBits_wave (bits : List Bool) (es : List Event) :
    outBits (wave bits ++ es) = bits ++ outBits es := by
  induction bits with
  | nil => simp [wave]
  | cons b bits ih =>
    simp only [wave, List.flatMap_cons, List.append_assoc, outBits_bitCell] at ih ⊢
    rw [ih]
    rfl

theorem outBits_payloadWave (op : Byte) (w : Word) :
    outBits (payloadWave op w) = bitsMsb op 8 ++ payloadBitsOf w := by
  simp only [payloadWave, List.append_assoc, outBits_wave, List.cons_append, List.nil_append,
    outBits_hold, outBits_nil, List.append_nil]

theorem outBits_commandWave (op : Byte) (t : HoldName) :
    outBits (commandWave op t) = bitsMsb op 8 := by
  simp only [commandWave, outBits_wave, outBits_hold, outBits_nil, List.append_nil]

/-- An input payload puts out no bit. -/
theorem outBits_readWave (bits : List Bool) : outBits (readWave bits) = [] := by
  have h1 : ∀ es, outBits (inClock ++ es) = outBits es := by
    intro es
    simp [inClock, outBits]
  have h2 : ∀ b es, outBits (inCell b ++ es) = outBits es := by
    intro b es
    simp [inCell, outBits]
  have h3 : outBits (bits.flatMap inCell ++ inClock) = [] := by
    induction bits with
    | nil => simp [inClock, outBits]
    | cons b bits ih => simp only [List.flatMap_cons, List.append_assoc, h2, ih]
  simp only [readWave, List.replicate, List.flatten_cons, List.flatten_nil, List.append_assoc,
    List.nil_append]
  simp only [outBits, h1, h3]

/-! ### Clocks -/

theorem clocks_append (a b : List Event) : clocks (a ++ b) = clocks a + clocks b := by
  simp [clocks]

theorem clocks_wave (bits : List Bool) : clocks (wave bits) = bits.length := by
  induction bits with
  | nil => rfl
  | cons b bits ih =>
    rw [wave, List.flatMap_cons, clocks_append, ← wave, ih]
    cases b <;> simp [bitCell, clocks] <;> omega

theorem clocks_payloadWave (op : Byte) (w : Word) : clocks (payloadWave op w) = 32 := by
  simp only [payloadWave, clocks_append, clocks_wave, bitsMsb_length, payloadBitsOf,
    List.length_append]
  simp [clocks]

theorem clocks_commandWave (op : Byte) (t : HoldName) : clocks (commandWave op t) = 8 := by
  simp only [commandWave, clocks_append, clocks_wave, bitsMsb_length]
  simp [clocks]

theorem clocks_readWave (bits : List Bool) : clocks (readWave bits) = 8 + bits.length := by
  have h : clocks (bits.flatMap inCell) = bits.length := by
    induction bits with
    | nil => rfl
    | cons b bits ih =>
      rw [List.flatMap_cons, clocks_append, ih]
      simp [inCell, clocks]
      omega
  rw [readWave, ← List.singleton_append]
  simp only [clocks_append, h, List.replicate, List.flatten_cons, List.flatten_nil]
  simp [clocks, inClock]
  omega

theorem clocks_readLoopWave (answers : List Bool) (k n : Nat) :
    clocks (readLoopWave answers k n) = 32 * n := by
  induction n generalizing k with
  | zero => rfl
  | succ n ih =>
    simp only [readLoopWave, clocks_append, ih, readWordWave, clocks_wave, clocks_readWave,
      bitsMsb_length]
    simp [clocks, answersFrom]
    omega

theorem clocks_loadWave (ws : List Word) : clocks (loadWave ws) = 32 * ws.length := by
  induction ws with
  | nil => rfl
  | cons w ws ih =>
    cases ws with
    | nil => simp [loadWave, clocks_payloadWave]
    | cons v vs =>
      rw [loadWave, clocks_append, ih, clocks_payloadWave]
      · simp only [List.length_cons]
        omega
      · simp

theorem clocks_rx (bs : List Byte) : clocks (bs.map .rx) = 0 := by
  simp [clocks, List.countP_map, List.countP_eq_zero]

/-! ### Samples -/

theorem samples_append (a b : List Event) : samples (a ++ b) = samples a + samples b := by
  simp [samples]

theorem samples_wave (bits : List Bool) : samples (wave bits) = 0 := by
  induction bits with
  | nil => rfl
  | cons b bits ih =>
    rw [wave, List.flatMap_cons, samples_append, ← wave, ih]
    rfl

theorem samples_readWave (bits : List Bool) : samples (readWave bits) = bits.length := by
  have h : samples (bits.flatMap inCell) = bits.length := by
    induction bits with
    | nil => rfl
    | cons b bits ih =>
      have hb : samples (inCell b) = 1 := rfl
      rw [List.flatMap_cons, samples_append, ih, hb, List.length_cons, Nat.add_comm]
  rw [readWave, ← List.singleton_append]
  simp only [samples_append, h, List.replicate, List.flatten_cons, List.flatten_nil]
  simp [samples, inClock, Event.isSample]

/-! ### Least times -/

theorem leastMicros_append (d : Timing) (a b : List Event) :
    leastMicros d (a ++ b) = leastMicros d a + leastMicros d b := by
  induction a with
  | nil => simp [leastMicros]
  | cons e a ih => cases e <;> simp [leastMicros, ih, Nat.add_assoc]

theorem leastMicros_commandWave (d : Timing) (op : Byte) (t : HoldName) :
    holdMicros d t ≤ leastMicros d (commandWave op t) := by
  simp only [commandWave, leastMicros_append]
  simp [leastMicros]

end Sys2Proof.Machine
end

