-- ==== Sys2Proof/Tests/Slice0.lean ====
section
/-!
SUPPORT. The model's own tests: the well-formedness smoke test, words written out from 30_encoding, the derived
vectors of 95_test_vectors, and a witness for the hypotheses of every statement that has some.
Expected results are the spec's, by hand; a comment names their place.
-/

namespace Sys2Proof.Tests

open Sys2Proof.Machine

/-! ### Well-formedness -/

/-- No command byte of 30_encoding R81 is an unknown byte. -/
theorem test_illFormed_unknown :
    (commandBytes.map fun c => (Instr.unknown c).wellFormed) = List.replicate 7 false := by decide

/-- The bytes 30_encoding R90 names are. -/
theorem test_wellFormed_unknown :
    ([0x00, 0xFF, 0x4B, 0x41, 0x44, 0x55, 0x53].map fun c => (Instr.unknown c).wellFormed)
      = List.replicate 7 true := by decide

/-! ### Decoding wire frames (30_encoding R81, R82, R84; 95_test_vectors §3.2) -/

theorem test_decode_s : decodeFrame [0x73] = .ok (.enterHv, []) := by decide

theorem test_decode_l : decodeFrame [0x6C, 0x73] = .ok (.enterLvp, [0x73]) := by decide

theorem test_decode_x : decodeFrame [0x78] = .ok (.exit, []) := by decide

theorem test_decode_r : decodeFrame [0x72, 0x12, 0x34, 0x00, 0x05] = .ok (.read 0x1234 5, []) := by
  decide

theorem test_decode_w :
    decodeFrame [0x77, 0x80, 0x00, 0xFF, 0xFE, 0x12] = .ok (.write 0x8000 0xFFFE, [0x12]) := by decide

theorem test_decode_e : decodeFrame [0x65, 0x01, 0x07] = .ok (.eraseRow 0x0107, []) := by decide

theorem test_decode_b : decodeFrame [0x62, 0x80, 0xFF] = .ok (.bulkErase 0x80FF, []) := by decide

/-- 'K', 'S', 'L', 0x00 and 0xFF are unknown. -/
theorem test_decode_unknown :
    ([0x4B, 0x53, 0x4C, 0x00, 0xFF].map fun c => decodeFrame [c])
      = ([0x4B, 0x53, 0x4C, 0x00, 0xFF].map fun c => .ok (.unknown c, [])) := by decide

theorem test_decode_short :
    decodeFrame [] = .error .empty ∧ decodeFrame [0x72, 0x00, 0x10, 0x00] = .error .shortFrame
      ∧ decodeFrame [0x65, 0x01] = .error .shortFrame := by decide

/-- The first frame of 95_test_vectors W1. -/
theorem test_encode_w : encode (.write 0x0000 0x0020) = .frame [0x77, 0x00, 0x00, 0x00, 0x20] := by
  decide

theorem test_encode_r : encode (.read 0x1234 5) = .frame [0x72, 0x12, 0x34, 0x00, 0x05] := by decide

/-- The seven command bytes are seven. -/
theorem test_commandBytes_distinct : commandBytes.Nodup := by decide

/-! ### Decoding ICSP fields, bit by bit (30_encoding R95 to R98; 95_test_vectors §3.1) -/

/-- Bits written as digits, in the order they are clocked. -/
def bits (digits : List Nat) : List Bool := digits.map (· == 1)

/-- LOAD_PC(0x1234): 1000 0000, then 0000 0000 0010 0100 0110 1000. -/
theorem test_decode_loadPc :
    decodeField (bits [1,0,0,0, 0,0,0,0, 0,0,0,0, 0,0,0,0, 0,0,1,0, 0,1,0,0, 0,1,1,0, 1,0,0,0])
      = .ok (.icspLoadPc 0x1234, []) := by decide

/-- READ_INC: 1111 1110. -/
theorem test_decode_readDataInc :
    decodeField (bits [1,1,1,1, 1,1,1,0]) = .ok (.icspReadDataInc, []) := by decide

/-- LOAD_INC(0x3FFF): 0000 0010, then 0000 0000 0111 1111 1111 1110. -/
theorem test_decode_loadDataInc :
    decodeField (bits [0,0,0,0, 0,0,1,0, 0,0,0,0, 0,0,0,0, 0,1,1,1, 1,1,1,1, 1,1,1,1, 1,1,1,0])
      = .ok (.icspLoadDataInc 0x3FFF, []) := by decide

/-- LOAD(0xABCD): 0000 0000, then 0000 0001 0101 0111 1001 1010. -/
theorem test_decode_loadData :
    decodeField (bits [0,0,0,0, 0,0,0,0, 0,0,0,0, 0,0,0,1, 0,1,0,1, 0,1,1,1, 1,0,0,1, 1,0,1,0])
      = .ok (.icspLoadData 0xABCD, []) := by decide

/-- BEGIN_PROG: 1110 0000. -/
theorem test_decode_beginProg :
    decodeField (bits [1,1,1,0, 0,0,0,0]) = .ok (.icspBeginProg, []) := by decide

/-- ROW_ERASE: 1111 0000. -/
theorem test_decode_rowErase :
    decodeField (bits [1,1,1,1, 0,0,0,0]) = .ok (.icspRowErase, []) := by decide

/-- BULK_ERASE: 0001 1000. -/
theorem test_decode_bulkErase :
    decodeField (bits [0,0,0,1, 1,0,0,0, 1]) = .ok (.icspBulkErase, [true]) := by decide

/-- KEY: 0100 1101 0100 0011 0100 1000 0101 0000 (95_test_vectors W6). -/
theorem test_decode_lvpKey :
    decodeField (bits [0,1,0,0, 1,1,0,1, 0,1,0,0, 0,0,1,1, 0,1,0,0, 1,0,0,0, 0,1,0,1, 0,0,0,0])
      = .ok (.lvpKey, []) := by decide

/-- No other opcode decodes (30_encoding R100), and no output payload with a start or stop bit of 1 (R97). -/
theorem test_decode_field_refused :
    decodeField (bits [1,0,0,0, 0,0,0,1]) = .error .noIcspOpcode
      ∧ decodeField (bits [0,0,0,0, 0,0,1]) = .error .shortField
      ∧ decodeField (bits [1,0,0,0, 0,0,0,0] ++ List.replicate 23 false ++ [true])
        = .error .badFraming := by decide

/-- The payload column of 95_test_vectors §3.1. -/
theorem test_payload :
    ([0x0000, 0x0001, 0x0040, 0x0100, 0x1234, 0x3FFF, 0x8000, 0x80FF, 0xABCD, 0xFFFF].map payload)
      = [0x000000, 0x000002, 0x000080, 0x000200, 0x002468, 0x007FFE, 0x010000, 0x0101FE, 0x01579A,
        0x01FFFE] := by decide

/-- Data bytes of `w`, big-endian (30_encoding R86). -/
theorem test_wordsOfBytes : wordsOfBytes [0x12, 0x34, 0xAB, 0xCD] = [0x1234, 0xABCD] := by decide

/-! ### The opcode table's numbering, and fetching -/

/-- The rows of spec/opcode_table.json that are wire commands, operands 0 where the table has no bits. -/
theorem test_tableWord_wire :
    decodeTableWord 8 0x73 = some .enterHv ∧ decodeTableWord 8 0x6C = some .enterLvp
      ∧ decodeTableWord 8 0x78 = some .exit ∧ decodeTableWord 8 0x72 = some (.read 0 0)
      ∧ decodeTableWord 8 0x77 = some (.write 0 0) ∧ decodeTableWord 8 0x65 = some (.eraseRow 0)
      ∧ decodeTableWord 8 0x62 = some (.bulkErase 0) ∧ decodeTableWord 0 0 = some (.unknown 0)
      ∧ decodeTableWord 8 0x4B = some (.unknown 0x4B) := by decide

/-- The rows that are ICSP commands. -/
theorem test_tableWord_icsp :
    decodeTableWord 8 0x80 = some (.icspLoadPc 0) ∧ decodeTableWord 8 0xFE = some .icspReadDataInc
      ∧ decodeTableWord 8 0x02 = some (.icspLoadDataInc 0)
      ∧ decodeTableWord 8 0x00 = some (.icspLoadData 0)
      ∧ decodeTableWord 8 0xE0 = some .icspBeginProg ∧ decodeTableWord 8 0xF0 = some .icspRowErase
      ∧ decodeTableWord 8 0x18 = some .icspBulkErase
      ∧ decodeTableWord 32 0x4D434850 = some .lvpKey := by decide

/-- The next state, where there is one. -/
def after (o : Host.Outcome State Fault Refusal) : Option State :=
  match o with
  | .next s => some s
  | .fault _ => none
  | .refused _ => none

/-- A wire command placed after reset is the first to run. -/
theorem test_fetch_wire :
    (after (step (State.reset.withFetchWord 8 0x73))).map (·.txh) = some [0x4B] := by decide

/-- An ICSP command placed after reset is the first to run. -/
theorem test_fetch_icsp :
    (after (step (State.reset.withFetchWord 8 0x80))).map (·.pc) = some (some 0) := by
  decide +kernel

/-! ### Test states -/

/-- The parameter premises of 95_test_vectors, with a receive buffer of `cap` bytes. -/
def testParams (cap : Nat) : Params :=
  { Config.params with wbufWords := 32, rxCap := cap, xDiscardsRx := false }

/-- Right after reset, with the parameter premises of 95_test_vectors. -/
def fresh : State :=
  { State.reset with events := [], params := testParams 80 }

/-- In `PROG_HV`, the pins as `s` leaves them (41_dispatch_and_mode R160). -/
def base : State :=
  { fresh with
    mode := .progHv
    pins :=
      { dat := { dir := .output, out := false }
        clk := { dir := .output, out := false }
        hven := false
        vdden := true } }

/-- `base` with bytes waiting. -/
def holding (bytes : List Byte) : State := { base with rxq := bytes }

/-- `base` with a script. -/
def scripted (q : List Stimulus) : State := { base with inputs := q }

/-- One step from `s`, seen through `f`. -/
def seen {α : Type} (f : State → α) (s : State) : Option α := (after (step s)).map f

/-! ### Mode entry and exit (95_test_vectors §3.3) -/

theorem test_s_from_reset :
    seen (fun t => (t.events, t.txh, t.mode, t.pc)) { fresh with rxq := [0x73] } = some
      ([.rx 0x73, .drive .dat false, .drive .clk false, .hold .entry, .level .hven false,
        .hold .entry, .level .vdden true, .tx 0x4B], [0x4B], .progHv, none) := by decide

theorem test_s_keeps_pc :
    seen (fun t => (t.mode, t.pc, t.pins.hven)) { holding [0x73] with mode := .progLvp, pc := some 0x12 }
      = some (.progHv, some 0x12, false) := by decide

theorem test_l_key :
    seen (fun t => (outBits t.events, t.txh, t.mode, t.pc)) { holding [0x6C] with pc := some 0x12 }
      = some (bits [0,1,0,0, 1,1,0,1, 0,1,0,0, 0,0,1,1, 0,1,0,0, 1,0,0,0, 0,1,0,1, 0,0,0,0],
        [0x4B], .progLvp, some 0x12) := by decide +kernel

theorem test_l_raises_together :
    seen (fun t => (t.events.take 6, t.pins.hven, clocks t.events)) { fresh with rxq := [0x6C] }
      = some ([.rx 0x6C, .drive .dat false, .drive .clk false, .hold .entry,
        .level2 .hven true .vdden true, .hold .lvp], true, 32) := by decide +kernel

theorem test_x_trace :
    seen (fun t => (t.events, t.txh, t.mode, t.pc)) { holding [0x78] with pc := some 0x12 } = some
      ([.rx 0x78, .level .hven true, .hold .exit, .level .vdden false, .release .dat, .release .clk],
        [], .disconnected, none) := by decide

theorem test_x_keeps_levels_and_queue :
    seen (fun t => (t.pins, t.rxq))
      { holding [0x78, 0x51] with
        pins :=
          { dat := { dir := .output, out := true }
            clk := { dir := .output, out := false }
            hven := false
            vdden := true } }
      = some ({ dat := { dir := .input, out := true }
                clk := { dir := .input, out := false }
                hven := true
                vdden := false }, [0x51]) := by decide

theorem test_unknown_replies :
    seen (fun t => (t.events, t.txh, t.mode, t.rxq)) { fresh with rxq := [0x4B, 0x51] }
      = some ([.rx 0x4B, .tx 0x55], [0x55], .disconnected, [0x51]) := by decide

/-! ### Read (95_test_vectors §3.4) -/

theorem test_r_two_words :
    seen (fun t => (t.txh, t.pc, t.pins.dat))
      { holding [0x72, 0x00, 0x10, 0x00, 0x02] with
        answers := bits [0,0,0,1, 0,0,1,0, 0,0,1,1, 0,1,0,0, 0,0,1,1, 1,1,1,1, 1,1,1,1, 1,1,1,1] }
      = some ([0x12, 0x34, 0x3F, 0xFF], some 0x0012, { dir := .output, out := false }) := by
  decide +kernel

theorem test_r_wraps :
    seen (fun t => (t.txh, t.pc))
      { holding [0x72, 0xFF, 0xFF, 0x00, 0x02] with
        answers := bits [0,0,0,0, 0,0,0,0, 0,0,0,0, 0,0,0,1, 0,0,0,0, 0,0,0,0, 0,0,0,0, 0,0,1,0] }
      = some ([0x00, 0x01, 0x00, 0x02], some 0x0001) := by decide +kernel

theorem test_r_no_words :
    seen (fun t => (t.txh, t.pc, clocks t.events)) (holding [0x72, 0x00, 0x00, 0x00, 0x00])
      = some ([], some 0x0000, 32) := by decide +kernel

/-! ### Write (95_test_vectors §3.5) -/

theorem test_w_two_words :
    seen (fun t => (t.txh, t.pc, t.wbuf))
      (holding [0x77, 0x00, 0x40, 0x00, 0x02, 0x12, 0x34, 0xAB, 0xCD])
      = some ([0x4B], some 0x0041, [0x1234, 0xABCD]) := by decide +kernel

theorem test_w_wraps :
    seen (fun t => (t.txh, t.pc))
      (holding [0x77, 0xFF, 0xFE, 0x00, 0x03, 0x00, 0x01, 0x00, 0x02, 0x00, 0x03])
      = some ([0x4B], some 0x0000) := by decide +kernel

/-- A data byte 0x78 is data, not `x` (30_encoding R92); 48 + 32 clocks. -/
theorem test_w_data_is_data :
    seen (fun t => (t.txh, t.mode, t.wbuf, clocks t.events)) (holding [0x77, 0x00, 0x00, 0x00, 0x01, 0x78, 0x78])
      = some ([0x4B], .progHv, [0x7878], 80) := by decide +kernel

/-! ### Erase (95_test_vectors §3.6) -/

theorem test_e_not_aligned :
    seen (fun t => (t.txh, t.pc, clocks t.events)) (holding [0x65, 0x01, 0x07])
      = some ([0x4B], some 0x0107, 40) := by decide +kernel

theorem test_e_bits :
    seen (fun t => outBits t.events) (holding [0x65, 0x01, 0x00])
      = some (bits [1,0,0,0, 0,0,0,0, 0,0,0,0, 0,0,0,0, 0,0,0,0, 0,0,1,0, 0,0,0,0, 0,0,0,0,
        1,1,1,1, 0,0,0,0]) := by decide +kernel

theorem test_b_conventional :
    seen (fun t => (t.txh, t.pc, clocks t.events)) (holding [0x62, 0x80, 0xFF])
      = some ([0x4B], some 0x80FF, 40) := by decide +kernel

theorem test_b_bits :
    seen (fun t => outBits t.events) (holding [0x62, 0x80, 0xFF])
      = some (bits [1,0,0,0, 0,0,0,0, 0,0,0,0, 0,0,0,1, 0,0,0,0, 0,0,0,1, 1,1,1,1, 1,1,1,0,
        0,0,0,1, 1,0,0,0]) := by decide +kernel

/-! ### ICSP commands (the examples of 40_pulse_generator R130 to R136) -/

theorem test_loadPc :
    (after (exec (.icspLoadPc 0x1234) base)).map (fun t => (outBits t.events, t.pc)) = some
      (bits [1,0,0,0, 0,0,0,0, 0,0,0,0, 0,0,0,0, 0,0,1,0, 0,1,0,0, 0,1,1,0, 1,0,0,0],
        some 0x1234) := by decide +kernel

theorem test_readDataInc :
    (after (exec .icspReadDataInc
      { base with
        pc := some 0x0010
        answers := bits [0,0,1,1, 1,1,1,1, 1,1,1,1, 1,1,1,1] })).map
      (fun t => (t.shiftReg, t.pc, t.pins.dat.dir)) = some (0x3FFF, some 0x0011, .input) := by
  decide +kernel

/-- 10_state R33: the increment wraps, and leaves `UNSET`. -/
theorem test_loadDataInc_mirror :
    (after (exec (.icspLoadDataInc 0x3FFF) { base with pc := some 0xFFFF })).map (·.pc)
      = some (some 0x0000)
    ∧ (after (exec (.icspLoadDataInc 0x3FFF) base)).map (·.pc) = some none := by decide +kernel

theorem test_loadDataInc_bits :
    (after (exec (.icspLoadDataInc 0x3FFF) base)).map (fun t => outBits t.events) = some
      (bits [0,0,0,0, 0,0,1,0, 0,0,0,0, 0,0,0,0, 0,1,1,1, 1,1,1,1, 1,1,1,1, 1,1,1,0]) := by
  decide +kernel

theorem test_loadData :
    (after (exec (.icspLoadData 0xABCD) { base with pc := some 5 })).map
      (fun t => (outBits t.events, t.pc)) = some
      (bits [0,0,0,0, 0,0,0,0, 0,0,0,0, 0,0,0,1, 0,1,0,1, 0,1,1,1, 1,0,0,1, 1,0,1,0], some 5) := by
  decide +kernel

theorem test_beginProg :
    (after (exec .icspBeginProg base)).map (fun t => (outBits t.events, t.events.getLast?))
      = some (bits [1,1,1,0, 0,0,0,0], some (.hold .write)) := by decide +kernel

theorem test_rowErase :
    (after (exec .icspRowErase base)).map (fun t => (outBits t.events, t.events.getLast?))
      = some (bits [1,1,1,1, 0,0,0,0], some (.hold .erase)) := by decide +kernel

theorem test_bulkErase :
    (after (exec .icspBulkErase base)).map (fun t => (outBits t.events, t.events.getLast?))
      = some (bits [0,0,0,1, 1,0,0,0], some (.hold .erase)) := by decide +kernel

theorem test_lvpKey :
    (after (exec .lvpKey base)).map (fun t => (outBits t.events, t.events.getLast?)) = some
      (bits [0,1,0,0, 1,1,0,1, 0,1,0,0, 0,0,1,1, 0,1,0,0, 1,0,0,0, 0,1,0,1, 0,0,0,0],
        some (.hold .clkLo)) := by decide +kernel

/-- The first cell of LOAD_PC(0x0000): `DAT:=1 CLK:=1 Hold(T_CLK_HI) CLK:=0 Hold(T_CLK_LO)`
(95_test_vectors §3.1). -/
theorem test_first_cell :
    (after (exec (.icspLoadPc 0) base)).map (fun t => t.events.take 6) = some
      [.level .dat true, .level .clk true, .hold .clkHi, .level .clk false, .hold .clkLo,
        .level .dat false] := by decide +kernel

/-! ### Timeouts, refusals, reset (95_test_vectors §3.4 to §3.7) -/

theorem test_argument_timeout :
    seen (fun t => (t.txh, t.ctrl, t.pc, t.argAddr)) { holding [0x72, 0x00] with
      inputs := [.run, .run, .rxTimeout] } = some ([0x41], .idle, none, none) := by decide

theorem test_data_timeout :
    seen (fun t => (t.txh, t.ctrl, t.pc, clocks t.events))
      { holding [0x77, 0x00, 0x00, 0x00, 0x02, 0x12, 0x34, 0x56] with
        inputs := List.replicate 8 .run ++ [.rxTimeout] } = some ([0x44], .idle, none, 0) := by decide

theorem test_w_no_words :
    seen (·.refused) (holding [0x77, 0x00, 0x00, 0x00, 0x00]) = some (some .writeLenZero) := by decide

/-- `WBUF_WORDS` words are accepted, one more is refused. -/
theorem test_w_too_long :
    seen (·.refused) (holding [0x77, 0x00, 0x00, 0x00, 0x21]) = some (some .writeTooLong)
    ∧ seen (·.refused) (holding [0x77, 0x00, 0x00, 0x00, 0x20]) = some none := by decide

/-- Refused at the `72`; the argument bytes stay (95_test_vectors P4). -/
theorem test_r_disconnected :
    seen (fun t => (t.refused, t.rxq)) { fresh with rxq := [0x72, 0x00, 0x00, 0x00, 0x01] }
      = some (some .cmdWhileDisconnected, [0x00, 0x00, 0x00, 0x01]) := by decide

/-- A byte into a full `RXQ` is refused; into the last free place it is queued. -/
theorem test_overflow :
    (after (eventStep
      { scripted [.hostByte 1] with params := testParams 0 })).map
      (·.refused) = some (some .rxOverflow)
    ∧ (after (eventStep
      { scripted [.hostByte 1] with params := testParams 1 })).map
      (·.rxq) = some [1] := by decide

/-- An overflow in the middle of a handler sets the mark and leaves `CTRL` in its place (10_state R42). -/
theorem test_overflow_in_handler :
    seen (fun t => (t.refused, t.ctrl))
      { scripted [.run, .hostByte 1] with
        ctrl := .busy 0x72 (.events [.hold .dly, .drive .dat false, .hold .dly])
        params := testParams 0 }
      = some (some .rxOverflow, .busy 0x72 (.events [.drive .dat false, .hold .dly])) := by decide

/-- A reset in the middle of the row erase: no 'K', and `Reset` is the last event. -/
theorem test_reset_in_erase :
    seen (fun t => (t.mode, t.pc, t.txh, t.events.getLast?))
      { holding [0x65, 0x01, 0x00] with inputs := List.replicate 200 .run ++ [.deviceReset] }
      = some (.disconnected, none, [], some .reset) := by decide +kernel

/-- The host's verdicts (60_exceptions R238): an 'A' in answer to a read is a partial read. -/
theorem test_host_verdicts :
    HostOp.connect.verdict [0x4B] = .success [] ∧ HostOp.connect.verdict [] = .handshakeError
      ∧ (HostOp.readBlock 0 1).verdict [0x41] = .readFailure 1
      ∧ (HostOp.readBlock 0 1).verdict [0xBE, 0xEF] = .success [0xBEEF]
      ∧ (HostOp.writeBlock 0 [1]).verdict [0x44] = .writeRejected 0x44 := by decide

/-! ### Witnesses: a state and operands that meet the hypotheses of each statement -/

theorem test_witness_DeviceResetGivesResetValues :
    (scripted [.deviceReset, .run]).refused = none
      ∧ (scripted [.deviceReset, .run]).inputs = .deviceReset :: [.run] := by decide

theorem test_witness_ResetAbandonsHandler :
    ({ scripted [.run, .deviceReset] with ctrl := .busy 0x73 (.events enterHvOps) }).refused = none
      ∧ 1 < enterHvOps.length
      ∧ (scripted [.run, .deviceReset]).inputs = List.replicate 1 .run ++ .deviceReset :: [] := by
  decide

theorem test_witness_StepRunsDecodedFrame :
    (holding [0x65, 0x01, 0x07, 0x51]).Quiet ∧ (holding [0x65, 0x01, 0x07, 0x51]).ctrl = .idle
      ∧ decodeFrame (holding [0x65, 0x01, 0x07, 0x51]).rxq = .ok (.eraseRow 0x0107, [0x51])
      ∧ (needsConnection (Command.ofByte 0x65) = true →
        (holding [0x65, 0x01, 0x07, 0x51]).mode ≠ .disconnected) :=
  ⟨⟨rfl, rfl⟩, rfl, by decide, by decide⟩

/-- A handler in its arguments: none of the two is missing, one is, both are. -/
theorem test_witness_StepRunsDecodedFrame_waiting :
    ({ holding [0x07, 0x51] with ctrl := .busy 0x65 .args, got := [0x01] }).Quiet
      ∧ (∀ n ∈ [0, 1, 2], (([0x01, 0x07] : List Byte).take n).length ≤ (Command.ofByte 0x65).argBytes
        ∧ decodeFrame (0x65 :: (([0x01, 0x07] : List Byte).take n ++ (([0x01, 0x07] : List Byte).drop n ++ [0x51])))
          = .ok (.eraseRow 0x0107, [0x51])) :=
  ⟨⟨rfl, rfl⟩, by decide⟩

theorem test_witness_StepRunsIcspCommand :
    base.refused = none ∧ icspPlace .icspRowErase = some (0x65, rowEraseOps)
      ∧ ({ base with ctrl := .busy 0x77 (.events rowEraseOps) }).ctrl
        = .busy 0x77 (.events rowEraseOps) := ⟨rfl, rfl, rfl⟩

theorem test_witness_SequencerWaitsForBytes_command :
    base.Quiet ∧ base.ctrl = .idle ∧ base.rxq = [] := ⟨⟨rfl, rfl⟩, rfl, rfl⟩

/-- A command byte with no argument byte, and with all but one. -/
theorem test_witness_SequencerWaitsForBytes_frame :
    (holding [0x65, 0x01]).Quiet ∧ base.ctrl = .idle ∧ base.mode ≠ .disconnected
      ∧ (holding [0x65, 0x01]).rxq = 0x65 :: [0x01]
      ∧ ([] : List Byte).length < (Command.ofByte 0x65).argBytes
      ∧ ([0x01] : List Byte).length < (Command.ofByte 0x65).argBytes :=
  ⟨⟨rfl, rfl⟩, rfl, by decide, rfl, by decide, by decide⟩

/-- Three of the four argument bytes of `r` are there: in `got`, or one of them still in `RXQ`. -/
theorem test_witness_SequencerWaitsForBytes_argument :
    ({ base with ctrl := .busy 0x72 .args, got := [0, 0x10, 0] }).Quiet
      ∧ ([0, 0x10, 0] : List Byte).length + ([] : List Byte).length < (Command.ofByte 0x72).argBytes
      ∧ ([0, 0x10] : List Byte).length + ([0] : List Byte).length < (Command.ofByte 0x72).argBytes :=
  ⟨⟨rfl, rfl⟩, by decide, by decide⟩

/-- One of the two data bytes of a `w` of one word is there: in `got`, or still in `RXQ`. -/
theorem test_witness_SequencerWaitsForBytes_data :
    ({ base with ctrl := .busy 0x77 (.data 0x40 1), got := [0x12] }).Quiet
      ∧ ([0x12] : List Byte).length + ([] : List Byte).length < 2 * (1 : Word).toNat
      ∧ ([] : List Byte).length + ([0x12] : List Byte).length < 2 * (1 : Word).toNat :=
  ⟨⟨rfl, rfl⟩, by decide, by decide⟩

theorem test_witness_ModeGuardRefuses_refused :
    ({ fresh with rxq := [0x62, 1] }).Quiet ∧ fresh.ctrl = .idle ∧ fresh.mode = .disconnected
      ∧ (0x62 : Byte) ∈ [(0x72 : Byte), 0x77, 0x65, 0x62] := ⟨⟨rfl, rfl⟩, rfl, rfl, by decide⟩

theorem test_witness_ModeGuardRefuses_passed :
    (({ fresh with rxq := [0x6C] }).Quiet ∧ fresh.ctrl = .idle
      ∧ (0x6C : Byte) ∉ [(0x72 : Byte), 0x77, 0x65, 0x62])
    ∧ ((holding [0x72]).Quiet ∧ base.ctrl = .idle ∧ (holding [0x72]).mode ≠ .disconnected) :=
  ⟨⟨⟨rfl, rfl⟩, rfl, by decide⟩, ⟨rfl, rfl⟩, rfl, by decide⟩

theorem test_witness_MarkedMachineHasNoStep :
    (base.refuse .writeLenZero).refused = some .writeLenZero := rfl

theorem test_witness_UnmarkedMachineAnswers : (scripted [.rxTimeout, .deviceReset]).refused = none :=
  rfl

/-- Both clauses at the boundary: the last free place, and none. -/
theorem test_witness_HostByteIsQueuedOrRefused :
    ((scripted [.hostByte 7]).refused = none ∧ (scripted [.hostByte 7]).inputs = .hostByte 7 :: [])
      ∧ (List.replicate 79 (0 : Byte)).length < base.params.rxCap
      ∧ base.params.rxCap ≤ (List.replicate 80 (0 : Byte)).length := by decide

theorem test_witness_BytesPresentNeverTimeOut : 2 ≤ (holding [0x01, 0x07]).rxq.length := by decide

theorem test_witness_ArgTimeoutReplies :
    ({ holding [0x65, 0x01] with inputs := [.run, .run, .rxTimeout] }).refused = none
      ∧ base.ctrl = .idle ∧ base.mode ≠ .disconnected
      ∧ ([0x01] : List Byte).length < (Command.ofByte 0x65).argBytes
      ∧ [Stimulus.run, .run, .rxTimeout] = List.replicate (1 + 1) .run ++ [.rxTimeout] := by decide

/-- A handler in its arguments, one byte held and none or one of the other three at hand. -/
theorem test_witness_ArgTimeoutReplies_waiting :
    ({ scripted [.rxTimeout] with ctrl := .busy 0x72 .args, got := [0x00] }).refused = none
      ∧ ([0x00] : List Byte).length + ([] : List Byte).length < (Command.ofByte 0x72).argBytes
      ∧ ([0x00] : List Byte).length + ([0x10] : List Byte).length < (Command.ofByte 0x72).argBytes
      ∧ [Stimulus.rxTimeout] = List.replicate ([] : List Byte).length .run ++ [.rxTimeout]
      ∧ [Stimulus.run, .rxTimeout] = List.replicate ([0x10] : List Byte).length .run ++ [.rxTimeout] := by
  decide

/-- A `w` of one word in its data, with none and with one of its two bytes held. -/
theorem test_witness_DataTimeoutReplies_waiting :
    ({ scripted [.rxTimeout] with ctrl := .busy 0x77 (.data 0x40 1), got := [0x12] }).refused = none
      ∧ ([] : List Byte).length + ([] : List Byte).length < 2 * (1 : Word).toNat
      ∧ ([0x12] : List Byte).length + ([] : List Byte).length < 2 * (1 : Word).toNat
      ∧ [Stimulus.rxTimeout] = List.replicate ([] : List Byte).length .run ++ [.rxTimeout] := by decide

theorem test_witness_DataTimeoutReplies :
    ({ holding [0x12] with inputs := [.run, .rxTimeout] }).refused = none ∧ base.mode ≠ .disconnected
      ∧ (1 : Word) ≠ 0 ∧ (1 : Word).toNat ≤ base.params.wbufWords
      ∧ (holding [0x12]).rxq.length < 2 * (1 : Word).toNat
      ∧ [Stimulus.run, .rxTimeout]
        = List.replicate (holding [0x12]).rxq.length .run ++ [.rxTimeout] := by decide

/-- For the effects of `s`, `l`, `x`, an unknown byte and the ICSP commands (with `ExitLeavesResetRecord` and
`IcspWaveCarriesField`), of `r`, `e` and `b` (with `ReadOfNoWords`), for `ClockTotals` and
`LeastTimesToReply`: quiet and connected. -/
theorem test_witness_quiet_connected :
    base.Quiet ∧ base.mode ≠ .disconnected ∧ Instr.isWire .lvpKey = false :=
  ⟨⟨rfl, rfl⟩, by decide, rfl⟩

/-- For `ModeAfterEachCommand` and `FrameOfEachInstruction`, in a programming mode; the answer exists. -/
theorem test_witness_ModeAfterEachCommand :
    .deviceReset ∉ (scripted [.run, .hostByte 1]).inputs
      ∧ (after (exec .exit (scripted [.run, .hostByte 1]))).isSome := by decide

/-- ... and for the refused commands of its second clause. -/
theorem test_witness_ModeAfterEachCommand_guard :
    isGuarded (.eraseRow 1) = true ∧ fresh.mode = .disconnected ∧ .deviceReset ∉ fresh.inputs
      ∧ (after (exec (.eraseRow 1) fresh)).isSome := by decide

/-- The first and the last sample of the first and of the last word of two. -/
theorem test_witness_SampledBitsAreTheWord :
    base.Quiet ∧ base.mode ≠ .disconnected ∧ 0 < 16 ∧ 15 < 16 ∧ 0 < (2 : Word).toNat
      ∧ 1 < (2 : Word).toNat :=
  ⟨⟨rfl, rfl⟩, by decide, by decide, by decide, by decide, by decide⟩

/-- The longest `w` that `base` accepts, its data at hand. -/
theorem test_witness_WriteBlockEffect :
    (holding (List.replicate 64 7)).Quiet ∧ (holding (List.replicate 64 7)).mode ≠ .disconnected
      ∧ (32 : Word) ≠ 0 ∧ (32 : Word).toNat ≤ (holding (List.replicate 64 7)).params.wbufWords
      ∧ 2 * (32 : Word).toNat ≤ (holding (List.replicate 64 7)).rxq.length :=
  ⟨⟨rfl, rfl⟩, by decide, by decide, by decide, by decide⟩

/-- A `w` of one word in its data: no byte held, one held, both held. -/
theorem test_witness_WriteBlockEffect_waiting :
    ({ holding [0xFF] with ctrl := .busy 0x77 (.data 0x40 1), got := [0x3F] }).Quiet ∧ (1 : Word) ≠ 0
      ∧ ([] : List Byte).length + 2 = 2 * (1 : Word).toNat
      ∧ 2 ≤ (holding [0x3F, 0xFF]).rxq.length
      ∧ ([0x3F] : List Byte).length + 1 = 2 * (1 : Word).toNat ∧ 1 ≤ (holding [0xFF]).rxq.length
      ∧ ([0x3F, 0xFF] : List Byte).length + 0 = 2 * (1 : Word).toNat ∧ 0 ≤ base.rxq.length :=
  ⟨⟨rfl, rfl⟩, by decide, by decide, by decide, by decide, by decide, by decide, by decide⟩

theorem test_witness_WriteOfOneWord :
    (holding [0x3F, 0xFF]).Quiet ∧ (holding [0x3F, 0xFF]).mode ≠ .disconnected
      ∧ 1 ≤ base.params.wbufWords ∧ (holding [0x3F, 0xFF]).rxq = 0x3F :: 0xFF :: [] :=
  ⟨⟨rfl, rfl⟩, by decide, by decide, rfl⟩

theorem test_witness_WriteWaitsForItsData :
    (holding [0x3F]).Quiet ∧ (holding [0x3F]).mode ≠ .disconnected
      ∧ (1 : Word).toNat ≤ base.params.wbufWords ∧ (holding [0x3F]).rxq.length < 2 * (1 : Word).toNat :=
  ⟨⟨rfl, rfl⟩, by decide, by decide, by decide⟩

theorem test_witness_WriteLengthRefusals :
    base.refused = none ∧ base.mode ≠ .disconnected ∧ base.params.wbufWords < (33 : Word).toNat
      ∧ (33 : Word) ≠ 0 := by decide

/-- For `StepKeepsParameters`, `HistoriesOnlyGrow` and `StepKeepsSentHistory`: both kinds of step answer. -/
theorem test_witness_steps_answer :
    base.txh = sentBytes base.events ∧ (after (step (holding [0x73]))).isSome
      ∧ (after (eventStep (holding [0x73]))).isSome := by decide

/-- In a programming mode, with three argument bytes of `r` in. -/
theorem test_witness_StepKeepsInvariant :
    ({ base with ctrl := .busy 0x72 .args, got := [0, 0x10, 0] }).Inv
      ∧ (after (step { base with ctrl := .busy 0x72 .args, got := [0, 0x10, 0] })).isSome :=
  ⟨⟨by decide, by decide, fun _ _ => ⟨rfl, rfl, rfl⟩, ⟨by decide, by decide⟩⟩, by decide⟩

/-- ... and a machine stopped by an overflow in the middle of a read, the data line released. -/
theorem test_Inv_after_overflow :
    ({ base with
      ctrl := .busy 0x72 (.events [.drive .dat false])
      pins := base.pins.release .dat
      refused := some .rxOverflow }).Inv
    ∧ ¬ ({ base with pins := base.pins.release .dat, refused := some .writeLenZero }).Inv :=
  ⟨⟨by decide, by decide, fun h _ => h.elim, rfl⟩,
    fun h => absurd (h.driven trivial (by decide)).1 (by decide)⟩

theorem test_witness_ReceiveQueueIsFifo :
    .deviceReset ∉ (holding [0x51, 0x52]).inputs ∧ (holding [0x51, 0x52]).params.xDiscardsRx = false
      ∧ seen (·.refused) (holding [0x51, 0x52]) = some none := by decide

/-- For `BusyHandlerHasWorkLeft` and `StepIsARunOfEvents`: part way through the row erase. -/
theorem test_witness_BusyHandlerHasWorkLeft :
    ({ base with ctrl := .busy 0x65 (.events [.hold .erase]) }).PlaceOk
      ∧ ({ base with ctrl := .busy 0x65 (.events [.hold .erase]) }).refused = none
      ∧ (after (step { base with ctrl := .busy 0x65 (.events [.hold .erase]) })).isSome
      ∧ (after (eventStep { base with ctrl := .busy 0x65 (.events [.hold .erase]) })).isSome :=
  ⟨by simp [State.PlaceOk], rfl, by decide, by decide⟩

theorem test_witness_HostTimingIsInvisible :
    (∀ st ∈ [Stimulus.hostByte 0x51, .run] ++ [.run, .hostByte 0x51],
        st = .run ∨ st = .hostByte 0x51)
      ∧ scriptBytes [Stimulus.hostByte 0x51, .run] = scriptBytes [Stimulus.run, .hostByte 0x51]
      ∧ base.rxq.length + (scriptBytes [Stimulus.run, .hostByte 0x51]).length ≤ base.params.rxCap
      ∧ base.params.xDiscardsRx = false
      ∧ (after (step { base with inputs := [.hostByte 0x51, .run] })).isSome
      ∧ (after (step { base with inputs := [.run, .hostByte 0x51] })).isSome := by decide

theorem test_witness_AtMostOneReplyCode :
    (∀ a n, Instr.exit ≠ .read a n) ∧ (after (exec .exit base)).isSome :=
  ⟨by simp, by decide⟩

/-- For the clause of `w` in `ClockTotals` and `LeastTimesToReply`. -/
theorem test_witness_ClockTotals :
    (holding [0x3F, 0xFF]).Quiet ∧ (1 : Word) ≠ 0 ∧ (1 : Word).toNat ≤ base.params.wbufWords
      ∧ 2 * (1 : Word).toNat ≤ (holding [0x3F, 0xFF]).rxq.length
      ∧ (after (exec (.write 0 1) (holding [0x3F, 0xFF]))).isSome :=
  ⟨⟨rfl, rfl⟩, by decide, by decide, by decide, by decide +kernel⟩

/-- For the premise on the delay table in `LeastTimesToReply`: the table at reset, and a slower one. -/
theorem test_witness_LeastTimesToReply :
    base.params.timing.MeetsGiven ∧ ({ base.params.timing with tWrite := 7000 }).MeetsGiven := by
  simp only [Timing.MeetsGiven]
  decide

/-- A delay table with other values than the document's gives other least times. -/
theorem test_holdMicros_table :
    holdMicros base.params.timing .write = 5000
      ∧ holdMicros { base.params.timing with tWrite := 7000 } .write = 7000 := by decide

theorem test_witness_FrameDecodesToItsInstruction :
    Instr.isWire (.unknown 0x51) = true ∧ Instr.wellFormed (.unknown 0x51) = true := by decide

theorem test_witness_FieldDecodesToItsInstruction : Instr.isWire (.icspLoadPc 0xFFFF) = false := rfl

theorem test_witness_DecodedFrameIsItsEncoding :
    decodeFrame [0x62, 0x80, 0xFF] = .ok (.bulkErase 0x80FF, []) := by decide

theorem test_witness_DecodedFieldIsItsEncoding :
    decodeField (bits [1,1,1,0, 0,0,0,0]) = .ok (.icspBeginProg, []) := by decide

theorem test_witness_FrameDecodingIsTotal : 5 ≤ ([0x72, 0, 0, 0, 0] : List Byte).length := by decide

theorem test_witness_OtherBytesAreUnknown :
    (0x53 : Byte) ∉ [(0x73 : Byte), 0x6C, 0x78, 0x72, 0x77, 0x65, 0x62] ∧ (holding [0x53]).Quiet
      ∧ (holding [0x53]).ctrl = .idle ∧ (holding [0x53]).rxq = 0x53 :: [] :=
  ⟨by decide, ⟨rfl, rfl⟩, rfl, rfl⟩

/-- For the clauses of `DataBytesAssembleBigEndian`: the last word of two. -/
theorem test_witness_DataBytesAssembleBigEndian :
    ([0x12, 0x34, 0xAB, 0xCD] : List Byte).length = 2 * 2 ∧ 1 < 2
      ∧ ([0x12, 0x34, 0xAB, 0xCD] : List Byte).length % 2 = 0 := by decide

/-- A host that has sent and read nothing, at a machine that waits in a programming mode. -/
def idleHost : HostRun := { frames := [], sent := [], read := [] }

/-- The shortest and the longest write that `base` accepts, and an operation that needs no connection. -/
theorem test_witness_HostOperationsEndWell :
    base.EndsWell idleHost ∧ idleHost.read = base.txh ∧ base.inputs = [] ∧ base.mode ≠ .disconnected
      ∧ fresh.EndsWell idleHost
      ∧ (∀ n ∈ [1, 32], List.replicate n (0x3FFF : Word) ≠ []
        ∧ (List.replicate n (0x3FFF : Word)).length ≤ base.params.wbufWords
        ∧ (List.replicate n (0x3FFF : Word)).length < 65536) :=
  ⟨⟨rfl, rfl, rfl, rfl, rfl, List.nil_prefix, rfl⟩, rfl, rfl, by decide,
    ⟨rfl, rfl, rfl, rfl, rfl, List.nil_prefix, rfl⟩, by decide⟩

/-- A run does not end well while a byte of the host's is still to come, or a reply is unread (R264). -/
theorem test_EndsWell_needs_the_host :
    ¬ (scripted [.hostByte 0x73]).EndsWell idleHost
      ∧ ¬ base.EndsWell { frames := [HostOp.connect.hostFrame], sent := [0x73], read := [] } :=
  ⟨fun h => absurd h.2.2.2.1 (by decide), fun h => absurd h.2.2.2.2.2.2 (by decide)⟩

end Sys2Proof.Tests
end

/-!
PROOFS for the statements of 10_state. The reset values, the host's byte, the mark and `x`.
-/

namespace Sys2Proof.Machine

/-- Settles O1: each field of `State.reset` is the value the record gives it. -/
theorem powerOnResetState : Obligations.PowerOnResetState :=
  ⟨rfl, rfl, rfl, rfl, rfl, rfl, rfl, rfl⟩

/-- Settles O43: the buffers are empty, the mode is disconnected, no handler is under way, and the
one event recorded is the reset. -/
theorem resetMeetsInvariants : Obligations.ResetMeetsInvariants := by
  have inv : State.reset.Inv :=
    { rxFits := Nat.zero_le _
      wbufFits := Nat.zero_le _
      driven := fun _ hm => absurd rfl hm
      field := trivial }
  exact ⟨inv, trivial, rfl⟩

/-! ### The mark -/

/-- A marked machine has nothing to fetch (60_exceptions R226). -/
theorem step_marked {s : State} {r : Reason} (h : s.refused = some r) :
    step s = .refused (.marked r) := by
  simp [step, fetch, h]

/-- Settles O8: every meaning and both steps ask first whether the machine is marked. -/
theorem markedMachineHasNoStep : Obligations.MarkedMachineHasNoStep := by
  refine ⟨rfl, State.refuse_refused, State.mark_refused, fun s r i h => ⟨step_marked h, ?_, ?_⟩⟩
  · rw [exec_effect, live_some _ h]
  · exact live_some _ h

/-! ### The host's byte -/

theorem State.hostByte_room {s : State} (b : Byte) (h : s.rxq.length < s.params.rxCap) :
    s.hostByte b = { s with rxq := s.rxq ++ [b] } := by
  simp [State.hostByte, h]

theorem State.hostByte_full {s : State} (b : Byte) (h : s.params.rxCap ≤ s.rxq.length) :
    s.hostByte b = s.mark .rxOverflow := by
  simp [State.hostByte, Nat.not_lt.mpr h]

/-- The host's byte is queued or refused: it changes the queue and the mark, and nothing else
(10_state R42, R43). -/
theorem State.hostByte_eq (s : State) (b : Byte) :
    ∃ x r, s.hostByte b = { s with rxq := x, refused := r } := by
  rcases Nat.lt_or_ge s.rxq.length s.params.rxCap with h | h
  · exact ⟨s.rxq ++ [b], s.refused, hostByte_room b h⟩
  · exact ⟨s.rxq, some .rxOverflow, hostByte_full b h⟩

/-- Settles O10: an unmarked machine whose script begins with a host byte makes the host's move,
which asks for room. -/
theorem hostByteIsQueuedOrRefused : Obligations.HostByteIsQueuedOrRefused := by
  intro s b q hr hi
  have hmove : eventStep s = .next ({ s with inputs := q }.hostByte b) := by
    rw [eventStep, live_none _ hr, move, hi]
  refine ⟨fun h => ?_, fun h => ?_⟩
  · rw [hmove, State.hostByte_room (s := { s with inputs := q }) b h]
  · rw [hmove, State.hostByte_full (s := { s with inputs := q }) b h]
    rfl

/-! ### What `x` leaves -/

/-- Settles O17: with nothing from outside, the moves of the exit sequence are performed in order
and leave the record of 10_state R52. -/
theorem exitLeavesResetRecord : Obligations.ExitLeavesResetRecord := by
  rintro s ⟨hr, hi⟩
  rw [exec_effect, live_none _ hr, effect, startExit, settle_events (s.enter_ctrl 0x78 exitOps),
    emit_quiet _ (s.enter 0x78 exitOps) hi]
  simp [exitOps, Op.perform, State.record, State.toIdle, State.enter, Pins.setLevel, Pins.release]

/-! ### Histories -/

/-- The parameters of a run, `p`, survive every elementary change (10_state R49). -/
theorem kept_params (p : Params) : Kept (fun s => s.params = p) where
  op op s h := (op.perform_params s).trans h
  script _ _ h := h
  hostByte s b h := by
    obtain ⟨x, r, e⟩ := s.hostByte_eq b
    rw [e]
    exact h
  reset _ h := h
  refuse _ _ h := h
  rx _ _ _ _ h := h
  lapse _ h := h
  control _ _ _ _ _ _ h := h

/-- Settles O39: no elementary change writes the parameters, so no step does. -/
theorem stepKeepsParameters : Obligations.StepKeepsParameters := by
  rintro s t (h | h)
  · exact (kept_params s.params).step h rfl
  · exact (kept_params s.params).eventStep h rfl

@[simp] theorem sentBytes_append (a b : List Event) :
    sentBytes (a ++ b) = sentBytes a ++ sentBytes b :=
  List.filterMap_append

@[simp] theorem takenBytes_append (a b : List Event) :
    takenBytes (a ++ b) = takenBytes a ++ takenBytes b :=
  List.filterMap_append

/-- `t` has the histories of `s` and more: every event added that sends a byte adds that byte to
`TXH` (10_state R44, R46). -/
def Extends (s t : State) : Prop :=
  ∃ es, t.events = s.events ++ es ∧ t.txh = s.txh ++ sentBytes es

theorem Extends.refl (s : State) : Extends s s := ⟨[], by simp, by simp [sentBytes]⟩

theorem Extends.trans {s t u : State} : Extends s t → Extends t u → Extends s u := by
  rintro ⟨a, he, ht⟩ ⟨b, he', ht'⟩
  exact ⟨a ++ b, by rw [he', he, List.append_assoc],
    by rw [ht', ht, sentBytes_append, List.append_assoc]⟩

/-- A move records what it sends, and takes no byte from the host. -/
theorem Op.perform_histories (op : Op) (s : State) :
    ∃ es, (op.perform s).events = s.events ++ es ∧ (op.perform s).txh = s.txh ++ sentBytes es
      ∧ takenBytes es = [] := by
  cases op with
  | drive p v => exact ⟨[.drive p v], rfl, (List.append_nil _).symm, rfl⟩
  | level p v => exact ⟨[.level p v], rfl, (List.append_nil _).symm, rfl⟩
  | level2 p v q w => exact ⟨[.level2 p v q w], rfl, (List.append_nil _).symm, rfl⟩
  | release p => exact ⟨[.release p], rfl, (List.append_nil _).symm, rfl⟩
  | hold t => exact ⟨[.hold t], rfl, (List.append_nil _).symm, rfl⟩
  | sample => exact ⟨[.sample s.nextBit], rfl, (List.append_nil _).symm, rfl⟩
  | txPut b => exact ⟨[.tx b], rfl, rfl, rfl⟩
  | txHi => exact ⟨[.tx s.shiftReg.hi], rfl, rfl, rfl⟩
  | txLo => exact ⟨[.tx s.shiftReg.lo], rfl, rfl, rfl⟩
  | clearWord | setMode | setPc | incPc | unsetPc | clearOperands | discardRx =>
    exact ⟨[], (List.append_nil _).symm, (List.append_nil _).symm, rfl⟩

/-- Every elementary change extends the histories. -/
theorem kept_extends (s : State) : Kept (Extends s) where
  op op t h := by
    obtain ⟨es, he, ht, -⟩ := op.perform_histories t
    exact h.trans ⟨es, he, ht⟩
  script _ _ h := h
  hostByte t b h := by
    obtain ⟨x, r, e⟩ := t.hostByte_eq b
    rw [e]
    exact h
  reset _ h := h.trans ⟨[.reset], rfl, (List.append_nil _).symm⟩
  refuse _ _ h := h
  rx _ b _ _ h := h.trans ⟨[.rx b], rfl, (List.append_nil _).symm⟩
  lapse _ h := h.trans ⟨[.rxTimeout], rfl, (List.append_nil _).symm⟩
  control _ _ _ _ _ _ h := h

/-- Both steps extend the histories. -/
theorem steps_extend {s t : State} (h : step s = .next t ∨ eventStep s = .next t) :
    Extends s t := by
  rcases h with h | h
  · exact (kept_extends s).step h (.refl s)
  · exact (kept_extends s).eventStep h (.refl s)

/-- Settles O40: what a step leaves of a history begins with what it was. -/
theorem historiesOnlyGrow : Obligations.HistoriesOnlyGrow := by
  intro s t h
  obtain ⟨es, he, ht⟩ := steps_extend h
  exact ⟨⟨sentBytes es, ht.symm⟩, ⟨es, he.symm⟩⟩

/-- Settles O41: what a step adds to `TXH` is what the events it adds have sent. -/
theorem stepKeepsSentHistory : Obligations.StepKeepsSentHistory := by
  intro s t hs h
  obtain ⟨es, he, ht⟩ := steps_extend h
  rw [ht, he, sentBytes_append, hs]

end Sys2Proof.Machine

/-!
PROOFS for the statements of 10_state. What the shared operations can do whatever the script, said
once: taking a field, running an event list, taking a command byte, and a whole step as one function
of an unmarked state.
-/

namespace Sys2Proof.Machine

variable {s t : State}

/-! ### The bytes on their way -/

/-- The bytes queued and then those the host has still to send, in the order they come. -/
def State.pending (s : State) : List Byte := s.rxq ++ scriptBytes s.inputs

/-- A reset-free script stays so as it is played. -/
theorem noReset_of_suffix {q q' : List Stimulus} (h : .deviceReset ∉ q) (hs : q' <:+ q) :
    .deviceReset ∉ q' := fun hm => h (hs.mem hm)

/-! ### Taking a field -/

/-- `s` after the bytes `bs` were taken into the current field and recorded, with `x` queued and the
script at `q`. -/
def State.taken (s : State) (bs x : List Byte) (q : List Stimulus) : State :=
  { s with rxq := x, got := s.got ++ bs, events := s.events ++ bs.map .rx, inputs := q }

theorem State.taken_taken (s : State) (as bs x y : List Byte) (p q : List Stimulus) :
    (s.taken as x p).taken bs y q = s.taken (as ++ bs) y q := by
  simp [taken]

/-- Every outcome of RxTake(n) from `s`, whatever the script: the bytes `bs` are taken. -/
inductive Received (n : Nat) (s : State) : Recv → Prop where
  | complete (bs x : List Byte) (q : List Stimulus) (hq : q <:+ s.inputs) (hn : bs.length = n)
      (hb : .deviceReset ∉ s.inputs → s.pending = bs ++ (x ++ scriptBytes q)) :
      Received n s (.complete (s.taken bs x q))
  | timeout (bs : List Byte) (q : List Stimulus) (hq : q <:+ s.inputs)
      (hmem : .rxTimeout ∈ s.inputs) (hn : bs.length < n)
      (hb : .deviceReset ∉ s.inputs → s.pending = bs ++ scriptBytes q) :
      Received n s (.timeout (s.taken bs [] q).lapse)
  | waiting (bs : List Byte) (hn : bs.length < n)
      (hb : .deviceReset ∉ s.inputs → s.pending = bs) :
      Received n s (.waiting (s.taken bs [] []))
  | overflow (bs x : List Byte) (q : List Stimulus) (hn : bs.length < n)
      (hover : .deviceReset ∉ s.inputs → s.params.rxCap < s.pending.length) :
      Received n s (.ended ((s.taken bs x q).mark .rxOverflow))
  | reset (bs x : List Byte) (q : List Stimulus) (hmem : .deviceReset ∈ s.inputs) :
      Received n s (.ended (s.taken bs x q).deviceReset)

/-- What taking one byte first, and then the rest, comes to. -/
theorem Received.cons {n : Nat} {b : Byte} {x : List Byte} {q : List Stimulus} {o : Recv}
    (hq : q <:+ s.inputs)
    (hb : .deviceReset ∉ s.inputs → s.pending = b :: (x ++ scriptBytes q))
    (h : Received n (s.taken [b] x q) o) : Received (n + 1) s o := by
  have later : .deviceReset ∉ s.inputs → .deviceReset ∉ q := fun h => noReset_of_suffix h hq
  cases h with
  | complete bs y q' hq' hn hb' =>
    rw [State.taken_taken]
    exact .complete _ y q' (hq'.trans hq) (by simp [hn])
      (fun h => by rw [hb h]; exact congrArg (b :: ·) (hb' (later h)))
  | timeout bs q' hq' hmem hn hb' =>
    rw [State.taken_taken]
    exact .timeout _ q' (hq'.trans hq) (hq.mem hmem) (by simpa using hn)
      (fun h => by rw [hb h]; exact congrArg (b :: ·) (hb' (later h)))
  | waiting bs hn hb' =>
    rw [State.taken_taken]
    exact .waiting _ (by simpa using hn)
      (fun h => by rw [hb h]; exact congrArg (b :: ·) (hb' (later h)))
  | overflow bs y q' hn hover =>
    rw [State.taken_taken]
    refine .overflow _ y q' (by simpa using hn) (fun h => ?_)
    rw [hb h]
    exact (hover (later h)).trans (Nat.lt_succ_self _)
  | reset bs y q' hmem =>
    rw [State.taken_taken]
    exact .reset _ y q' (hq.mem hmem)

/-- What taking a field can do (41_dispatch_and_mode R151, 10_state R42, 60_exceptions R230). -/
theorem recv_received (n : Nat) (s : State) : Received n s (recv n s) := by
  induction n generalizing s with
  | zero =>
    have h : Received 0 s (.complete (s.taken [] s.rxq s.inputs)) :=
      .complete [] s.rxq s.inputs List.suffix_rfl rfl (fun _ => rfl)
    simpa [State.taken, recv] using h
  | succ n ih =>
    have ht := attend_turned .field s.inputs s
    rw [recv]
    generalize attend .field s.inputs s = o at ht
    cases ht with
    | go r q hq hb hready _ =>
      cases hx : s.rxq ++ r with
      | nil => simp [State.ready, State.arrive, hx] at hready
      | cons b x =>
        have htake : (s.arrive r q).takeByte = s.taken [b] x q := by
          simp [State.takeByte, State.arrive, State.taken, State.record, hx]
        have hb' : .deviceReset ∉ s.inputs → s.pending = b :: (x ++ scriptBytes q) := fun h => by
          rw [State.pending, hb h, ← List.append_assoc, hx, List.cons_append]
        exact .cons hq hb' (htake ▸ ih _)
    | timeout r q hq hmem hb _ hempty =>
      have h : s.arrive r q = s.taken [] [] q := by simp [State.arrive, State.taken, hempty]
      rw [h]
      refine .timeout [] q hq hmem (Nat.zero_lt_succ n) (fun h => ?_)
      rw [State.pending, hb h, ← List.append_assoc, hempty]
    | blocked r hb _ hempty =>
      have h : s.arrive r [] = s.taken [] [] [] := by simp [State.arrive, State.taken, hempty]
      rw [h]
      exact .waiting [] (Nat.zero_lt_succ n) (fun h => by rw [State.pending, hb h, hempty])
    | overflow r q _ _ hfull hlen _ =>
      have h : s.arrive r q = s.taken [] (s.rxq ++ r) q := by simp [State.arrive, State.taken]
      rw [h]
      refine .overflow [] _ q (Nat.zero_lt_succ n) (fun _ => ?_)
      simp only [State.pending, List.length_append] at hfull ⊢
      omega
    | reset r q _ hmem =>
      have h : s.arrive r q = s.taken [] (s.rxq ++ r) q := by simp [State.arrive, State.taken]
      rw [h]
      exact .reset [] _ q hmem

/-! ### Running an event list -/

/-- `s` after the moves `ops`, with `x` queued and the script at `q`. -/
def State.moved (s : State) (ops : List Op) (x : List Byte) (q : List Stimulus) : State :=
  { performAll ops s with rxq := x, inputs := q }

/-- Every outcome of a run over `ops` from `s`, whatever the script. The bytes on their way are kept
unless `x` discards them. -/
inductive Ran (ops : List Op) (s : State) : Run → Prop where
  | done (x : List Byte) (q : List Stimulus) (hq : q <:+ s.inputs)
      (hb : .deviceReset ∉ s.inputs → s.params.xDiscardsRx = false →
        s.pending = x ++ scriptBytes q) :
      Ran ops s (.done (s.moved ops x q))
  | overflow (as bs : List Op) (x : List Byte) (q : List Stimulus) (hops : as ++ bs = ops)
      (hbs : bs ≠ [])
      (hover : .deviceReset ∉ s.inputs → s.params.xDiscardsRx = false →
        s.params.rxCap < s.pending.length) :
      Ran ops s (.ended (((s.moved as x q).mark .rxOverflow).left bs))
  | reset (u : State) (hmem : .deviceReset ∈ s.inputs) : Ran ops s (.ended u.deviceReset)

/-- A move after which the bytes `r` have arrived, and then the rest: the moves are those of the
whole list. -/
theorem State.moved_cons (s : State) (op : Op) (ops : List Op) (r x : List Byte)
    (q q' : List Stimulus) :
    (op.perform (s.arrive r q)).moved ops x q' = s.moved (op :: ops) x q' := by
  rw [State.arrive, Op.perform_arrive, State.moved]
  have hy := performAll_arrive ops (op.perform s) (op.perform { s with rxq := s.rxq ++ r }).rxq q
  obtain ⟨y, hy⟩ := hy
  rw [hy]
  rfl

/-- Only a discarding `x` takes bytes out of the queue. -/
theorem Op.perform_rxq (op : Op) (s : State) (h : s.params.xDiscardsRx = false) :
    (op.perform s).rxq = s.rxq := by
  cases op with
  | discardRx => simp [Op.perform, h]
  | _ => rfl

/-- What a run over an event list can do. -/
theorem runOps_ran (ops : List Op) (s : State) : Ran ops s (runOps ops s) := by
  induction ops generalizing s with
  | nil => exact .done s.rxq s.inputs List.suffix_rfl (fun _ _ => rfl)
  | cons op ops ih =>
    have ht := attend_turned .nothing s.inputs s
    rw [runOps]
    generalize attend .nothing s.inputs s = o at ht
    cases ht with
    | go r q hq hb _ _ =>
      have hp : .deviceReset ∉ s.inputs → s.params.xDiscardsRx = false →
          (op.perform (s.arrive r q)).pending = s.pending := fun hn hd => by
        rw [State.pending, Op.perform_rxq op (s.arrive r q) hd, Op.perform_inputs, State.pending,
          hb hn]
        exact List.append_assoc _ _ _
      have hi : (op.perform (s.arrive r q)).inputs <:+ s.inputs :=
        (op.perform_inputs (s.arrive r q)).symm ▸ hq
      have hc : (op.perform (s.arrive r q)).params = s.params := op.perform_params _
      have later := fun h => noReset_of_suffix h hi
      have h := ih (op.perform (s.arrive r q))
      simp only
      generalize runOps ops (op.perform (s.arrive r q)) = o at h
      cases h with
      | done x q' hq' hb' =>
        rw [State.moved_cons]
        exact .done x q' (hq'.trans hi)
          (fun hn hd => (hp hn hd).symm.trans (hb' (later hn) (hc ▸ hd)))
      | overflow as bs x q' hops hbs hover =>
        rw [State.moved_cons]
        refine .overflow (op :: as) bs x q' (by rw [← hops, List.cons_append]) hbs (fun hn hd => ?_)
        rw [← hc, ← hp hn hd]
        exact hover (later hn) (hc ▸ hd)
      | reset u hmem => exact .reset u (hi.mem hmem)
    | timeout r q _ _ _ hneed => cases hneed
    | blocked r _ hneed => exact absurd rfl hneed
    | overflow r q _ _ hfull hlen _ =>
      refine .overflow [] (op :: ops) (s.rxq ++ r) q rfl (List.cons_ne_nil _ _) (fun _ _ => ?_)
      simp only [State.pending, List.length_append] at hfull ⊢
      omega
    | reset r q _ hmem => exact .reset _ hmem

/-! ### Taking a command byte -/

/-- `s` with the command byte `c` taken off the queue, which is then `x`, and its handler in its
arguments. -/
def State.opened (s : State) (c : Byte) (x : List Byte) : State :=
  { s with rxq := x, got := [], ctrl := .busy c .args }.record (.rx c)

/-- Taking the command byte `c` opens its handler, behind the mode guard where that applies
(41_dispatch_and_mode R150, R153). -/
theorem State.takeCommand_cons {c : Byte} {x : List Byte} (h : s.rxq = c :: x) :
    s.takeCommand =
      if needsConnection (Command.ofByte c) then guarded (s.opened c x) id else s.opened c x := by
  unfold takeCommand
  rw [h]
  rfl

/-- The dispatcher has no byte to take, or it opens the handler, or the mode guard refuses the
command. -/
theorem State.takeCommand_cases (s : State) :
    (s.rxq = [] ∧ s.takeCommand = s) ∨
      ∃ c x, s.rxq = c :: x ∧ (s.takeCommand = s.opened c x
        ∨ s.takeCommand = (s.opened c x).refuse .cmdWhileDisconnected) := by
  cases hq : s.rxq with
  | nil => exact .inl ⟨rfl, by simp [takeCommand, hq]⟩
  | cons c x =>
    refine .inr ⟨c, x, rfl, ?_⟩
    rw [takeCommand_cons hq]
    split
    · by_cases hm : s.mode = .disconnected
      · exact .inr (guarded_disconnected _ hm)
      · exact .inl (guarded_connected _ hm)
    · exact .inl rfl

/-- A command that opens its handler is not refused. -/
theorem State.takeCommand_refused (h : s.refused = none) (hc : s.takeCommand.ctrl ≠ .idle) :
    s.takeCommand.refused = none := by
  rcases s.takeCommand_cases with ⟨_, e⟩ | ⟨c, x, _, e | e⟩
  · rw [e]
    exact h
  · rw [e]
    exact h
  · rw [e] at hc
    exact absurd rfl hc

/-! ### Instructions and their frames -/

/-- Entering a handler writes its place, its operands and the mark, and nothing else. -/
theorem start_eq (i : Instr) (s : State) :
    ∃ c a n g r, start i s =
      { s with ctrl := c, argAddr := a, argLen := n, got := g, refused := r } := by
  have ofGuarded {f : State → State}
      (hf : ∃ c a n g r, f s =
        { s with ctrl := c, argAddr := a, argLen := n, got := g, refused := r }) :
      ∃ c a n g r, guarded s f =
        { s with ctrl := c, argAddr := a, argLen := n, got := g, refused := r } := by
    by_cases hm : s.mode = .disconnected
    · exact ⟨_, _, _, _, _, guarded_disconnected f hm⟩
    · rwa [guarded_connected f hm]
  cases i with
  | read addr len =>
    unfold start startRead
    exact ofGuarded ⟨_, _, _, _, _, rfl⟩
  | eraseRow addr =>
    unfold start startEraseRow
    exact ofGuarded ⟨_, _, _, _, _, rfl⟩
  | bulkErase addr =>
    unfold start startBulkErase
    exact ofGuarded ⟨_, _, _, _, _, rfl⟩
  | write addr len =>
    unfold start startWrite
    refine ofGuarded ?_
    dsimp only
    split
    · exact ⟨_, _, _, _, _, rfl⟩
    · split <;> exact ⟨_, _, _, _, _, rfl⟩
  | _ => exact ⟨_, _, _, _, _, rfl⟩

/-- An argument frame decodes to a wire command, whatever its bytes (30_encoding R81). -/
theorem decodeFrame_isWire {c : Byte} {bs rest : List Byte} {i : Instr}
    (h : decodeFrame (c :: bs) = .ok (i, rest)) : i.isWire = true := by
  simp only [decodeFrame] at h
  cases hc : Command.ofByte c <;> rw [hc] at h <;> dsimp only at h
  case s | l | x | unknown => cases h; rfl
  case r | w | e | b => split at h <;> cases h; rfl

/-! ### A step of an unmarked machine as a function -/

/-- Argument reception for command byte `c`, and the instruction that comes of it (R152, R154). -/
def runFrame (c : Byte) (s : State) : State :=
  match recv (s.argsMissing c) s with
  | .complete u =>
    match decodeFrame (c :: u.got) with
    | .ok (i, _) => effect i { u with got := [] }
    | .error _ => u
  | .timeout u => abortWith .argTimeout u
  | .waiting u => u
  | .ended u => u

/-- What a step leaves of an unmarked machine. -/
def stepEffect (s : State) : State :=
  match s.ctrl with
  | .idle =>
    match attend .command s.inputs s with
    | .go u =>
      match u.takeCommand.ctrl with
      | .busy c .args => runFrame c u.takeCommand
      | _ => u.takeCommand
    | .timeout u => u
    | .blocked u => u
    | .ended u => u
  | .busy c .args => runFrame c s
  | .busy _ (.data _ _) => settle s
  | .busy _ (.events _) => settle s

/-- Fetching an instruction's frame and executing it is `runFrame`, as taking a field raises no
mark. -/
theorem fetchArgs_run (c : Byte) (h : s.refused = none) :
    (match fetchArgs c s with
      | .stopped r => .refused r
      | .settled u => .next u
      | .instr i u => exec i u) = (.next (runFrame c s) : Host.Outcome State Fault Refusal) := by
  have hr := recv_received (s.argsMissing c) s
  unfold fetchArgs runFrame
  generalize recv (s.argsMissing c) s = o at hr
  cases hr with
  | complete bs x q _ _ _ =>
    dsimp only
    cases decodeFrame (c :: (s.taken bs x q).got) with
    | ok p => exact (exec_effect p.1 _).trans (live_none _ h)
    | error err => rfl
  | timeout | waiting | overflow | reset => rfl

/-- A step of a machine that is not marked (41_dispatch_and_mode R150, R155). -/
theorem step_eq_live (s : State) : step s = live s stepEffect := by
  cases hr : s.refused with
  | some r => rw [step_marked hr, live_some _ hr]
  | none =>
    rw [live_none _ hr]
    unfold step fetch stepEffect
    rw [hr]
    cases hc : s.ctrl with
    | idle =>
      have ht := attend_turned .command s.inputs s
      dsimp only
      generalize attend .command s.inputs s = o at ht
      cases ht with
      | go r q _ _ _ _ =>
        dsimp only
        cases hv : (s.arrive r q).takeCommand.ctrl with
        | idle => rfl
        | busy c p =>
          cases p with
          | args =>
            exact fetchArgs_run c (State.takeCommand_refused (s := s.arrive r q) hr (by simp [hv]))
          | data | events => rfl
      | timeout | blocked | overflow | reset => rfl
    | busy c p =>
      cases p with
      | args => exact fetchArgs_run c hr
      | data | events => rfl

/-- A step that answers a next state was one of an unmarked machine. -/
theorem step_next (h : step s = .next t) : s.refused = none ∧ t = stepEffect s := by
  rw [step_eq_live, live] at h
  split at h
  · cases h
  · cases h
    exact ⟨‹_›, rfl⟩

end Sys2Proof.Machine

/-!
PROOFS for the statements of 10_state. The frame of every instruction: which parts of the record it
may write.
-/

namespace Sys2Proof.Machine

/-! ### The parts of the record, and the parts a move writes -/

/-- The parts of the record that instructions are told apart by. The queue, the mark, `CTRL`, the
script and the events are none of them, for the outside and every handler write those. -/
inductive Part where
  /-- The parameters, the answers given and the reset count. -/
  | fixed
  | mode | pc | argAddr | argLen | wbuf | got
  /-- `DAT` and `CLK`. -/
  | lines
  /-- `HVEN` and `VDDEN`. -/
  | rails
  /-- The sampled word and the count of draws. -/
  | word
  /-- `TXH`. -/
  | reply

/-- The parts a move may write. -/
def Op.writes : Op → List Part
  | .drive _ _ => [.lines]
  | .level .dat _ => [.lines]
  | .level .clk _ => [.lines]
  | .level .hven _ => [.rails]
  | .level .vdden _ => [.rails]
  | .level2 _ _ _ _ => [.lines, .rails]
  | .release _ => [.lines]
  | .hold _ => []
  | .clearWord => [.word]
  | .sample => [.word]
  | .txPut _ => [.reply]
  | .txHi => [.reply]
  | .txLo => [.reply]
  | .setMode _ => [.mode]
  | .setPc _ => [.pc]
  | .incPc => [.pc]
  | .unsetPc => [.pc]
  | .clearOperands => [.argAddr, .argLen, .wbuf]
  | .discardRx => []

/-- The parts an event list may write. -/
def writesOf (ops : List Op) : List Part := ops.flatMap Op.writes

/-- The parts an instruction may write, its operands latched included. -/
def footprint : Instr → List Part
  | .enterHv => [.mode, .lines, .rails, .reply]
  | .enterLvp => [.mode, .lines, .rails, .reply]
  | .exit => [.mode, .pc, .argAddr, .argLen, .wbuf, .lines, .rails]
  | .read _ _ => [.pc, .argAddr, .argLen, .lines, .word, .reply]
  | .write _ _ => [.pc, .argAddr, .argLen, .wbuf, .got, .lines, .reply]
  | .eraseRow _ => [.pc, .argAddr, .lines, .reply]
  | .bulkErase _ => [.pc, .argAddr, .lines, .reply]
  | .unknown _ => [.reply]
  | .icspLoadPc _ => [.pc, .lines]
  | .icspReadDataInc => [.pc, .lines, .word]
  | .icspLoadDataInc _ => [.pc, .lines]
  | .icspLoadData _ => [.lines]
  | .icspBeginProg => [.lines]
  | .icspRowErase => [.lines]
  | .icspBulkErase => [.lines]
  | .lvpKey => [.lines]

/-- What a part holds. -/
def Part.Held : Part → Type
  | .fixed => Params × List Bool × Nat
  | .mode => Mode
  | .pc => Option Word
  | .argAddr => Option Word
  | .argLen => Option Word
  | .wbuf => List Word
  | .got => List Byte
  | .lines => LineState × LineState
  | .rails => Bool × Bool
  | .word => Word × Nat
  | .reply => List Byte

/-- What the part holds in a state. -/
def Part.held (s : State) : (p : Part) → p.Held
  | .fixed => (s.params, s.answers, s.resets)
  | .mode => s.mode
  | .pc => s.pc
  | .argAddr => s.argAddr
  | .argLen => s.argLen
  | .wbuf => s.wbuf
  | .got => s.got
  | .lines => (s.pins.dat, s.pins.clk)
  | .rails => (s.pins.hven, s.pins.vdden)
  | .word => (s.shiftReg, s.draws)
  | .reply => s.txh

/-- `t` differs from `s`, among the parts, only in those of `ps`. -/
def Within (ps : List Part) (s t : State) : Prop := ∀ p ∉ ps, p.held t = p.held s

/-! ### The parts that event lists may write -/

@[simp] theorem writesOf_nil_subset {ps : List Part} : writesOf [] ⊆ ps := List.nil_subset ps

@[simp] theorem writesOf_cons_subset {op : Op} {ops : List Op} {ps : List Part} :
    writesOf (op :: ops) ⊆ ps ↔ op.writes ⊆ ps ∧ writesOf ops ⊆ ps :=
  List.append_subset

@[simp] theorem writesOf_append_subset {a b : List Op} {ps : List Part} :
    writesOf (a ++ b) ⊆ ps ↔ writesOf a ⊆ ps ∧ writesOf b ⊆ ps := by
  rw [writesOf, List.flatMap_append]
  exact List.append_subset

section EventLists

variable {ps : List Part} (hl : .lines ∈ ps)
include hl

@[simp] theorem writesOf_shiftOut_subset {k : Nat} (v : BitVec k) (n : Nat) :
    writesOf (shiftOut v n) ⊆ ps := by
  induction n with
  | zero => exact writesOf_nil_subset
  | succ n ih => simp [shiftOut, bitOut, Op.writes, hl, ih]

@[simp] theorem writesOf_sendCmd_subset (op : Byte) : writesOf (sendCmd op) ⊆ ps :=
  writesOf_shiftOut_subset hl op 8

@[simp] theorem writesOf_sendPayload_subset (w : Word) : writesOf (sendPayload w) ⊆ ps := by
  simp [sendPayload, hl, Op.writes]

@[simp] theorem writesOf_clockIn_subset (n : Nat) : writesOf (clockIn n) ⊆ ps := by
  induction n with
  | zero => exact writesOf_nil_subset
  | succ n ih => simp [clockIn, clockCell, Op.writes, hl, ih]

@[simp] theorem writesOf_sampleCells_subset (hw : .word ∈ ps) (n : Nat) :
    writesOf (sampleCells n) ⊆ ps := by
  induction n with
  | zero => exact writesOf_nil_subset
  | succ n ih => simp [sampleCells, sampleCell, Op.writes, hl, hw, ih]

@[simp] theorem writesOf_loadPcOps_subset (hp : .pc ∈ ps) (w : Word) :
    writesOf (loadPcOps w) ⊆ ps := by
  simp [loadPcOps, Op.writes, hl, hp]

@[simp] theorem writesOf_readDataIncOps_subset (hp : .pc ∈ ps) (hw : .word ∈ ps) :
    writesOf readDataIncOps ⊆ ps := by
  simp [readDataIncOps, recvPayload, shiftIn, Op.writes, hl, hp, hw]

@[simp] theorem writesOf_loadDataIncOps_subset (hp : .pc ∈ ps) (w : Word) :
    writesOf (loadDataIncOps w) ⊆ ps := by
  simp [loadDataIncOps, Op.writes, hl, hp]

@[simp] theorem writesOf_loadDataOps_subset (w : Word) : writesOf (loadDataOps w) ⊆ ps := by
  simp [loadDataOps, Op.writes, hl]

@[simp] theorem writesOf_beginProgOps_subset : writesOf beginProgOps ⊆ ps := by
  simp [beginProgOps, Op.writes, hl]

@[simp] theorem writesOf_rowEraseOps_subset : writesOf rowEraseOps ⊆ ps := by
  simp [rowEraseOps, Op.writes, hl]

@[simp] theorem writesOf_bulkEraseOps_subset : writesOf bulkEraseOps ⊆ ps := by
  simp [bulkEraseOps, Op.writes, hl]

@[simp] theorem writesOf_sendKey_subset : writesOf sendKey ⊆ ps :=
  writesOf_shiftOut_subset hl lvpKeyValue 32

@[simp] theorem writesOf_readLoop_subset (hp : .pc ∈ ps) (hw : .word ∈ ps) (ht : .reply ∈ ps)
    (n : Nat) : writesOf (readLoop n) ⊆ ps := by
  induction n with
  | zero => exact writesOf_nil_subset
  | succ n ih => simp [readLoop, readWordOps, Op.writes, hl, hp, hw, ht, ih]

@[simp] theorem writesOf_loadWords_subset (hp : .pc ∈ ps) (ws : List Word) :
    writesOf (loadWords ws) ⊆ ps := by
  induction ws with
  | nil => exact writesOf_nil_subset
  | cons w ws ih =>
    cases ws with
    | nil => exact writesOf_loadDataOps_subset hl w
    | cons v vs => exact writesOf_append_subset.mpr ⟨writesOf_loadDataIncOps_subset hl hp w, ih⟩

end EventLists

/-! ### What each elementary change stays within -/

namespace Within

variable {ps : List Part} {s t u : State}

theorem refl (ps : List Part) (s : State) : Within ps s s := fun _ _ => rfl

theorem trans (a : Within ps s t) (b : Within ps t u) : Within ps s u :=
  fun p h => (b p h).trans (a p h)

/-- What belongs to no part may take any value. -/
theorem offParts (h : Within ps s t) (c : Ctrl) (x : List Byte) (es : List Event)
    (r : Option Reason) (q : List Stimulus) :
    Within ps s { t with ctrl := c, rxq := x, events := es, refused := r, inputs := q } := by
  intro p hp
  cases p <;> exact h _ hp

theorem inputs (h : Within ps s t) (q : List Stimulus) : Within ps s { t with inputs := q } :=
  h.offParts t.ctrl t.rxq t.events t.refused q

theorem ctrl (h : Within ps s t) (c : Ctrl) : Within ps s { t with ctrl := c } :=
  h.offParts c t.rxq t.events t.refused t.inputs

theorem hostByte (h : Within ps s t) (b : Byte) : Within ps s (t.hostByte b) := by
  obtain ⟨x, r, e⟩ := t.hostByte_eq b
  rw [e]
  exact h.offParts t.ctrl x t.events r t.inputs

theorem refuse (h : Within ps s t) (r : Reason) : Within ps s (t.refuse r) :=
  h.offParts .idle t.rxq t.events (some r) t.inputs

/-- A part that may be written may take any value. -/
theorem setGot (hg : .got ∈ ps) (h : Within ps s t) (g : List Byte) :
    Within ps s { t with got := g } := by
  intro p hp
  cases p with
  | got => exact absurd hg hp
  | _ => exact h _ hp

theorem setWbuf (hw : .wbuf ∈ ps) (h : Within ps s t) (w : List Word) :
    Within ps s { t with wbuf := w } := by
  intro p hp
  cases p with
  | wbuf => exact absurd hw hp
  | _ => exact h _ hp

theorem fillWbuf (hg : .got ∈ ps) (hw : .wbuf ∈ ps) (h : Within ps s t) : Within ps s t.fillWbuf :=
  (h.setWbuf hw (wordsOfBytes t.got)).setGot hg []

theorem latchAddr (ha : .argAddr ∈ ps) (h : Within ps s t) (a : Word) :
    Within ps s (t.latchAddr a) := by
  intro p hp
  cases p with
  | argAddr => exact absurd ha hp
  | _ => exact h _ hp

theorem latchArgs (ha : .argAddr ∈ ps) (hl : .argLen ∈ ps) (h : Within ps s t) (a n : Word) :
    Within ps s (t.latchArgs a n) := by
  intro p hp
  cases p with
  | argAddr => exact absurd ha hp
  | argLen => exact absurd hl hp
  | _ => exact h _ hp

theorem takeByte (hg : .got ∈ ps) (h : Within ps s t) : Within ps s t.takeByte := by
  unfold State.takeByte
  split
  · exact h
  · rename_i b q _
    exact (h.setGot hg (t.got ++ [b])).offParts t.ctrl q (t.events ++ [.rx b]) t.refused t.inputs

theorem lapse (hg : .got ∈ ps) (h : Within ps s t) : Within ps s t.lapse :=
  (h.setGot hg []).offParts t.ctrl t.rxq (t.events ++ [.rxTimeout]) t.refused t.inputs

/-- A move writes no other part than the ones it is said to write. -/
theorem held_perform {p : Part} (op : Op) (s : State) (h : p ∉ op.writes) :
    p.held (op.perform s) = p.held s := by
  cases op with
  | drive l v => cases l <;> cases p <;> first | rfl | simp [Op.writes] at h
  | level q v => cases q <;> cases p <;> first | rfl | simp [Op.writes] at h
  | level2 q v q' v' => cases q <;> cases q' <;> cases p <;> first | rfl | simp [Op.writes] at h
  | release l => cases l <;> cases p <;> first | rfl | simp [Op.writes] at h
  | _ => cases p <;> first | rfl | simp [Op.writes] at h

theorem perform {op : Op} (hw : op.writes ⊆ ps) (h : Within ps s t) : Within ps s (op.perform t) :=
  h.trans fun _ hp => held_perform op t fun hm => hp (hw hm)

/-! ### What each handler stays within, without a reset in the script -/

theorem runOps {ops : List Op} (hr : .deviceReset ∉ t.inputs) (hw : writesOf ops ⊆ ps)
    (h : Within ps s t) : Within ps s (runOps ops t).state :=
  runOps_induct ops
    (fun _ ho _ => perform fun _ hp => hw (List.mem_flatMap.mpr ⟨_, ho, hp⟩))
    (fun _ q h => h.inputs q) (fun _ b h => h.hostByte b) (fun _ _ h => h.ctrl _) t
    (fun hm => absurd hm hr) h

theorem emit {ops : List Op} (hr : .deviceReset ∉ t.inputs) (hw : writesOf ops ⊆ ps)
    (h : Within ps s t) : Within ps s (emit ops t) := by
  have hrun := h.runOps hr hw
  rw [Machine.emit]
  cases hc : Machine.runOps ops t with
  | done u => rw [hc] at hrun; exact hrun.ctrl _
  | ended u => rw [hc] at hrun; exact hrun

theorem recv (n : Nat) (hg : .got ∈ ps) (hr : .deviceReset ∉ t.inputs) (h : Within ps s t) :
    Within ps s (recv n t).state :=
  recv_induct (P := Within ps s) n (fun _ => takeByte hg) (fun _ => lapse hg)
    (fun _ q h => h.inputs q) (fun _ b h => h.hostByte b) t (fun hm => absurd hm hr) h

theorem writeData (hg : .got ∈ ps) (hw : .wbuf ∈ ps) (addr len : Word)
    (hops : ∀ ws, writesOf (writeOps addr ws) ⊆ ps) (ht : .reply ∈ ps)
    (hr : .deviceReset ∉ t.inputs) (h : Within ps s t) : Within ps s (writeData addr len t) := by
  have hrecv := h.recv (t.dataMissing len) hg hr
  have hcases := recv_received (t.dataMissing len) t
  unfold Machine.writeData
  generalize Machine.recv (t.dataMissing len) t = o at hrecv hcases
  cases hcases with
  | complete bs x q hq _ _ =>
    exact (hrecv.fillWbuf hg hw).emit (noReset_of_suffix hr hq) (hops _)
  | timeout bs q hq _ _ _ =>
    exact hrecv.emit (noReset_of_suffix hr hq) (by simpa [Op.writes] using ht)
  | waiting | overflow | reset => exact hrecv

/-- A handler entered and carried on writes what its event list writes. -/
theorem settle_enter {c : Byte} {ops : List Op} (hr : .deviceReset ∉ t.inputs)
    (hw : writesOf ops ⊆ ps) (h : Within ps s t) : Within ps s (settle (t.enter c ops)) := by
  rw [settle_events (t.enter_ctrl c ops)]
  exact (h.ctrl _).emit hr hw

/-- A command the mode guard refuses writes no part. -/
theorem settle_guarded {f : State → State} (h : Within ps s (settle (f s))) :
    Within ps s (settle (guarded s f)) := by
  by_cases hm : s.mode = .disconnected
  · rw [guarded_disconnected f hm, settle_idle (s.refuse_ctrl _)]
    exact (refl ps s).refuse _
  · rwa [guarded_connected f hm]

/-- A `w` latches its operands, and then refuses the length or takes its data and loads it. -/
theorem settle_startWrite (addr len : Word) (hr : .deviceReset ∉ s.inputs) :
    Within (footprint (.write addr len)) s (settle (startWrite addr len s)) := by
  have hl : Within (footprint (.write addr len)) s (s.latchArgs addr len) :=
    (refl _ s).latchArgs (by simp [footprint]) (by simp [footprint]) addr len
  have refused (r : Reason) :
      Within (footprint (.write addr len)) s (settle ((s.latchArgs addr len).refuse r)) := by
    rw [settle_idle (State.refuse_ctrl _ r)]
    exact hl.refuse r
  refine settle_guarded ?_
  dsimp only
  split
  · exact refused _
  · split
    · exact refused _
    · refine writeData (by simp [footprint]) (by simp [footprint]) addr len (fun ws => ?_)
        (by simp [footprint]) hr ((hl.setGot (by simp [footprint]) []).ctrl _)
      simp [footprint, Op.writes, writeOps]

end Within

/-- Without a reset in the script, an instruction writes no part outside its footprint, whatever the
host sends meanwhile. -/
theorem effect_within (i : Instr) (s : State) (hr : .deviceReset ∉ s.inputs) :
    Within (footprint i) s (effect i s) := by
  have h0 := Within.refl (footprint i) s
  cases i with
  | enterHv => exact h0.settle_enter hr (by simp [footprint, enterHvOps, Op.writes])
  | enterLvp => exact h0.settle_enter hr (by simp [footprint, enterLvpOps, Op.writes])
  | exit => exact h0.settle_enter hr (by simp [footprint, exitOps, Op.writes])
  | read addr len =>
    exact Within.settle_guarded ((h0.latchArgs (by simp [footprint]) (by simp [footprint]) addr
      len).settle_enter hr (by simp [footprint, readOps]))
  | write addr len => exact Within.settle_startWrite addr len hr
  | eraseRow addr =>
    exact Within.settle_guarded ((h0.latchAddr (by simp [footprint]) addr).settle_enter hr
      (by simp [footprint, eraseRowOps, Op.writes]))
  | bulkErase addr =>
    exact Within.settle_guarded ((h0.latchAddr (by simp [footprint]) addr).settle_enter hr
      (by simp [footprint, bulkEraseBlockOps, Op.writes]))
  | unknown c => exact h0.settle_enter hr (by simp [footprint, unknownOps, Op.writes])
  | icspLoadPc w => exact h0.runOps hr (by simp [footprint])
  | icspReadDataInc => exact h0.runOps hr (by simp [footprint])
  | icspLoadDataInc w => exact h0.runOps hr (by simp [footprint])
  | icspLoadData w => exact h0.runOps hr (by simp [footprint])
  | icspBeginProg => exact h0.runOps hr (by simp [footprint])
  | icspRowErase => exact h0.runOps hr (by simp [footprint])
  | icspBulkErase => exact h0.runOps hr (by simp [footprint])
  | lvpKey => exact h0.runOps hr (by simp [footprint])

/-- Settles O38: each clause names a part outside the footprint of the instructions it speaks of. -/
theorem frameOfEachInstruction : Obligations.FrameOfEachInstruction := by
  intro i s t hr he
  have fixed : .fixed ∉ footprint i := by cases i <;> simp [footprint]
  have ofMode : i ≠ .enterHv → i ≠ .enterLvp → i ≠ .exit →
      .mode ∉ footprint i ∧ .rails ∉ footprint i := by cases i <;> simp [footprint]
  have ofOperands : isGuarded i = false → i ≠ .exit →
      .argAddr ∉ footprint i ∧ .argLen ∉ footprint i := by cases i <;> simp [footprint, isGuarded]
  have ofField : (∀ a n, i ≠ .write a n) → .got ∉ footprint i := by cases i <;> simp [footprint]
  have ofWbuf : (∀ a n, i ≠ .write a n) → i ≠ .exit → .wbuf ∉ footprint i := by
    cases i <;> simp [footprint]
  have ofWord : (∀ a n, i ≠ .read a n) → i ≠ .icspReadDataInc → .word ∉ footprint i := by
    cases i <;> simp [footprint]
  have ofReply : i.isWire = false → .reply ∉ footprint i := by
    cases i <;> simp [footprint, Instr.isWire]
  have h : Within (footprint i) s t := (exec_next he).2 ▸ effect_within i s hr
  have held {p : Part} (hp : p ∉ footprint i) : p.held t = p.held s := h p hp
  obtain ⟨hparams, hrest⟩ := Prod.mk.inj (held fixed)
  obtain ⟨hanswers, hresets⟩ := Prod.mk.inj hrest
  refine ⟨hparams, hanswers, hresets, fun h1 h2 h3 => ?mode, ?pc,
    fun hg hx => ?operands, ?argLen, fun hw => ⟨held (ofField hw), fun hx => held (ofWbuf hw hx)⟩,
    fun h1 h2 => Prod.mk.inj (held (ofWord h1 h2)), fun hw => held (ofReply hw), ?pins⟩
  case mode =>
    obtain ⟨hm, hrails⟩ := ofMode h1 h2 h3
    exact ⟨held hm, Prod.mk.inj (held hrails)⟩
  case pc =>
    rintro (rfl | rfl | ⟨c, rfl⟩ | ⟨w, rfl⟩ | rfl | rfl | rfl | rfl) <;>
      exact held (p := .pc) (by simp [footprint])
  case operands =>
    obtain ⟨ha, hl⟩ := ofOperands hg hx
    exact ⟨held ha, held hl⟩
  case argLen =>
    rintro (⟨a, rfl⟩ | ⟨a, rfl⟩) <;> exact held (p := .argLen) (by simp [footprint])
  case pins =>
    rintro ⟨c, rfl⟩
    obtain ⟨hdat, hclk⟩ := Prod.mk.inj (held (p := .lines) (by simp [footprint]))
    obtain ⟨hhven, hvdden⟩ := Prod.mk.inj (held (p := .rails) (by simp [footprint]))
    calc
      t.pins = ⟨t.pins.dat, t.pins.clk, t.pins.hven, t.pins.vdden⟩ := rfl
      _ = s.pins := by rw [hdat, hclk, hhven, hvdden]

end Sys2Proof.Machine

/-!
PROOFS for the statements of 10_state. The receive queue: no byte is lost, duplicated or reordered
in a step.
-/

namespace Sys2Proof.Machine

variable {s t u : State}

/-! ### Bytes taken and bytes on their way -/

/-- From `s` to `t` the events added have taken the first of the bytes on their way, and the others
are still on theirs (20_memory R73). -/
def Conserves (s t : State) : Prop :=
  ∃ es, t.events = s.events ++ es ∧ s.pending = takenBytes es ++ t.pending

/-- The host overfilled the queue, or the bytes are conserved. -/
def Delivers (s t : State) : Prop := t.refused = some .rxOverflow ∨ Conserves s t

/-- Neither a reset nor a discarding `x` can drop bytes. -/
structure Steady (s : State) : Prop where
  noReset : .deviceReset ∉ s.inputs
  keeps : s.params.xDiscardsRx = false

/-- A state with the same events and the same bytes on their way. -/
theorem Conserves.of_eq (he : t.events = s.events) (hp : t.pending = s.pending) : Conserves s t :=
  ⟨[], by simp [he], by simp [takenBytes, hp]⟩

theorem Conserves.trans : Conserves s t → Conserves t u → Conserves s u := by
  rintro ⟨a, ha, hp⟩ ⟨b, hb, hq⟩
  exact ⟨a ++ b, by rw [hb, ha, List.append_assoc],
    by rw [hp, hq, takenBytes_append, List.append_assoc]⟩

theorem Conserves.trans_delivers (a : Conserves s t) (b : Delivers t u) : Delivers s u :=
  b.imp id a.trans

@[simp] theorem takenBytes_map_rx (bs : List Byte) : takenBytes (bs.map .rx) = bs := by
  induction bs with
  | nil => rfl
  | cons b bs ih => exact congrArg (b :: ·) ih

/-! ### Shared operations -/

theorem performAll_events (ops : List Op) (s : State) :
    ∃ es, (performAll ops s).events = s.events ++ es ∧ takenBytes es = [] := by
  induction ops generalizing s with
  | nil => exact ⟨[], by simp, rfl⟩
  | cons op ops ih =>
    obtain ⟨a, ha, -, hta⟩ := op.perform_histories s
    obtain ⟨b, hb, htb⟩ := ih (op.perform s)
    exact ⟨a ++ b, by rw [performAll_cons, hb, ha, List.append_assoc], by simp [hta, htb]⟩

theorem runOps_delivers (ops : List Op) (h : Steady s) : Delivers s (runOps ops s).state := by
  have hr := runOps_ran ops s
  generalize runOps ops s = o at hr
  cases hr with
  | done x q _ hb =>
    obtain ⟨es, he, ht⟩ := performAll_events ops s
    exact .inr ⟨es, he, by rw [ht, hb h.noReset h.keeps]; rfl⟩
  | overflow => exact .inl rfl
  | reset u hmem => exact absurd hmem h.noReset

theorem emit_delivers (ops : List Op) (h : Steady s) : Delivers s (emit ops s) := by
  have hr := runOps_delivers ops h
  rw [emit]
  generalize runOps ops s = o at hr
  cases o with
  | done u => exact hr
  | ended u => exact hr

/-- The bytes of a field are taken in the order they come. -/
theorem taken_conserves {bs x : List Byte} {q : List Stimulus}
    (h : s.pending = bs ++ (x ++ scriptBytes q)) : Conserves s (s.taken bs x q) :=
  ⟨bs.map .rx, rfl, by rw [takenBytes_map_rx, h]; rfl⟩

theorem lapse_conserves (s : State) : Conserves s s.lapse := ⟨[.rxTimeout], rfl, rfl⟩

theorem writeData_delivers (addr len : Word) (h : Steady s) :
    Delivers s (writeData addr len s) := by
  have hr := recv_received (s.dataMissing len) s
  unfold writeData
  generalize recv (s.dataMissing len) s = o at hr
  cases hr with
  | complete bs x q hq _ hb =>
    have hfill : Conserves s (s.taken bs x q).fillWbuf := taken_conserves (hb h.noReset)
    exact hfill.trans_delivers (emit_delivers _ ⟨noReset_of_suffix h.noReset hq, h.keeps⟩)
  | timeout bs q hq _ _ hb =>
    have htake : Conserves s (s.taken bs [] q) := taken_conserves (hb h.noReset)
    exact (htake.trans (lapse_conserves _)).trans_delivers
      (emit_delivers _ ⟨noReset_of_suffix h.noReset hq, h.keeps⟩)
  | waiting bs _ hb =>
    exact .inr (taken_conserves (by rw [hb h.noReset]; exact (List.append_nil bs).symm))
  | overflow => exact .inl rfl
  | reset _ _ _ hmem => exact absurd hmem h.noReset

theorem settle_delivers (h : Steady s) : Delivers s (settle s) := by
  unfold settle
  split
  · exact .inr (.of_eq rfl rfl)
  · exact .inr (.of_eq rfl rfl)
  · exact writeData_delivers _ _ h
  · exact emit_delivers _ h

/-! ### Instructions and steps -/

theorem runFrame_delivers (c : Byte) (h : Steady s) : Delivers s (runFrame c s) := by
  have hr := recv_received (s.argsMissing c) s
  unfold runFrame
  generalize recv (s.argsMissing c) s = o at hr
  cases hr with
  | complete bs x q hq _ hb =>
    have htake : Conserves s (s.taken bs x q) := taken_conserves (hb h.noReset)
    dsimp only
    cases hd : decodeFrame (c :: (s.taken bs x q).got) with
    | error err => exact .inr htake
    | ok p =>
      obtain ⟨i, rest⟩ := p
      dsimp only
      rw [effect_wire (decodeFrame_isWire hd)]
      obtain ⟨_, _, _, _, _, e⟩ := start_eq i { s.taken bs x q with got := [] }
      rw [e]
      exact htake.trans_delivers (settle_delivers ⟨noReset_of_suffix h.noReset hq, h.keeps⟩)
  | timeout bs q hq _ _ hb =>
    have htake : Conserves s (s.taken bs [] q) := taken_conserves (hb h.noReset)
    exact (htake.trans (lapse_conserves _)).trans_delivers
      (emit_delivers _ ⟨noReset_of_suffix h.noReset hq, h.keeps⟩)
  | waiting bs _ hb =>
    exact .inr (taken_conserves (by rw [hb h.noReset]; exact (List.append_nil bs).symm))
  | overflow => exact .inl rfl
  | reset _ _ _ hmem => exact absurd hmem h.noReset

theorem takeCommand_conserves (s : State) : Conserves s s.takeCommand := by
  rcases s.takeCommand_cases with ⟨_, e⟩ | ⟨c, x, hx, e | e⟩
  · rw [e]
    exact .of_eq rfl rfl
  all_goals
    rw [e]
    exact ⟨[.rx c], rfl, by rw [State.pending, hx]; rfl⟩

/-- Taking a command byte leaves the script and the parameters. -/
theorem takeCommand_steady (h : Steady s) : Steady s.takeCommand := by
  rcases s.takeCommand_cases with ⟨_, e⟩ | ⟨c, x, _, e | e⟩
  all_goals
    rw [e]
    exact ⟨h.noReset, h.keeps⟩

theorem stepEffect_delivers (h : Steady s) : Delivers s (stepEffect s) := by
  unfold stepEffect
  split
  · have ht := attend_turned .command s.inputs s
    generalize attend .command s.inputs s = o at ht
    cases ht with
    | go r q hq hb _ _ =>
      have harrive : Conserves s (s.arrive r q) :=
        .of_eq rfl (by simp [State.pending, State.arrive, hb h.noReset])
      have htake := harrive.trans (takeCommand_conserves _)
      have hs : Steady (s.arrive r q) := ⟨noReset_of_suffix h.noReset hq, h.keeps⟩
      dsimp only
      split
      · exact htake.trans_delivers (runFrame_delivers _ (takeCommand_steady hs))
      · exact .inr htake
    | timeout r q _ _ _ hneed _ => cases hneed
    | blocked r hb _ _ =>
      exact .inr (.of_eq rfl (by simp [State.pending, State.arrive, hb h.noReset, scriptBytes]))
    | overflow => exact .inl rfl
    | reset r q _ hmem => exact absurd hmem h.noReset
  · exact runFrame_delivers _ h
  · exact settle_delivers h
  · exact settle_delivers h

/-- Settles O44: every operation of a step delivers the bytes in order, unless the host overfills
the queue. -/
theorem receiveQueueIsFifo : Obligations.ReceiveQueueIsFifo := by
  intro s t hr hx h ho
  obtain ⟨-, rfl⟩ := step_next h
  obtain ⟨es, he, hp⟩ := (stepEffect_delivers ⟨hr, hx⟩).resolve_left ho
  exact ⟨es, he, by rw [List.append_assoc]; exact hp⟩

end Sys2Proof.Machine

/-!
PROOFS for the statements of 10_state. A handler under way has a move left or a byte of a field
missing.
-/

namespace Sys2Proof.Machine

variable {s : State} {c : Byte}

/-! ### What `PlaceOk` asks in each place -/

theorem placeOk_idle (h : s.ctrl = .idle) : s.PlaceOk := by
  simp [State.PlaceOk, h]

theorem placeOk_args (h : s.ctrl = .busy c .args) : s.PlaceOk ↔ s.argsMissing c ≠ 0 := by
  simp [State.PlaceOk, h]

theorem placeOk_data {addr len : Word} (h : s.ctrl = .busy c (.data addr len)) :
    s.PlaceOk ↔ s.dataMissing len ≠ 0 := by
  simp [State.PlaceOk, h]

theorem placeOk_events {ops : List Op} (h : s.ctrl = .busy c (.events ops)) :
    s.PlaceOk ↔ ops ≠ [] := by
  simp [State.PlaceOk, h]

theorem enter_placeOk (s : State) (c : Byte) {ops : List Op} (h : ops ≠ []) :
    (s.enter c ops).PlaceOk := (placeOk_events (s.enter_ctrl c ops)).mpr h

/-- A handler cut short has the moves left that it was cut short before. -/
theorem left_placeOk (s : State) {ops : List Op} (h : ops ≠ []) : (s.left ops).PlaceOk := by
  cases hc : s.ctrl with
  | idle => exact placeOk_idle (by rw [State.left_ctrl, hc]; rfl)
  | busy c p => exact (placeOk_events (c := c) (by rw [State.left_ctrl, hc]; rfl)).mpr h

/-! ### Event lists and fields -/

/-- An event list ends with the machine idle, or with moves left. -/
theorem emit_placeOk (ops : List Op) (s : State) : (emit ops s).PlaceOk := by
  have hr := runOps_ran ops s
  rw [emit]
  generalize runOps ops s = o at hr
  cases hr with
  | done => exact placeOk_idle rfl
  | overflow as bs x q _ hbs => exact left_placeOk _ hbs
  | reset => exact placeOk_idle rfl

theorem writeOps_ne_nil (addr : Word) (ws : List Word) : writeOps addr ws ≠ [] := by
  simp [writeOps]

theorem writeData_placeOk {addr len : Word} (hc : s.ctrl = .busy c (.data addr len)) :
    (writeData addr len s).PlaceOk := by
  have hr := recv_received (s.dataMissing len) s
  have missing {t : State} {bs : List Byte} (ht : t.ctrl = s.ctrl) (hg : t.got = s.got ++ bs)
      (hn : bs.length < s.dataMissing len) : t.PlaceOk := by
    rw [placeOk_data (ht.trans hc), State.dataMissing, hg]
    simp only [State.dataMissing, List.length_append] at hn ⊢
    omega
  unfold writeData
  generalize recv (s.dataMissing len) s = o at hr
  cases hr with
  | complete | timeout => exact emit_placeOk _ _
  | waiting bs hn => exact missing rfl rfl hn
  | overflow bs x q hn => exact missing rfl rfl hn
  | reset => exact placeOk_idle rfl

theorem settle_placeOk (h : s.PlaceOk) : (settle s).PlaceOk := by
  cases hc : s.ctrl with
  | idle => rwa [settle_idle hc]
  | busy c p =>
    cases p with
    | args => simpa [settle, hc] using h
    | data addr len =>
      rw [settle_data hc]
      exact writeData_placeOk hc
    | events ops =>
      rw [settle_events hc]
      exact emit_placeOk ops s

/-! ### Instructions -/

theorem guarded_placeOk {f : State → State} (h : (f s).PlaceOk) : (guarded s f).PlaceOk := by
  by_cases hm : s.mode = .disconnected
  · rw [guarded_disconnected f hm]
    exact placeOk_idle (s.refuse_ctrl _)
  · rwa [guarded_connected f hm]

/-- A handler just entered has a move left; a `w` that passes its checks has data to take, as its
length is not zero. -/
theorem start_placeOk (i : Instr) (s : State) : (start i s).PlaceOk := by
  cases i with
  | read addr len => exact guarded_placeOk (enter_placeOk _ _ (by simp [readOps, loadPcOps]))
  | eraseRow addr => exact guarded_placeOk (enter_placeOk _ _ (by simp [eraseRowOps]))
  | bulkErase addr => exact guarded_placeOk (enter_placeOk _ _ (by simp [bulkEraseBlockOps]))
  | write addr len =>
    refine guarded_placeOk ?_
    dsimp only
    split
    · exact placeOk_idle rfl
    · rename_i h0
      split
      · exact placeOk_idle rfl
      · rw [placeOk_data (c := 0x77) rfl]
        have hlen : len.toNat ≠ 0 := fun h => h0 (BitVec.eq_of_toNat_eq h)
        simp only [State.dataMissing, List.length_nil]
        omega
  | _ => exact enter_placeOk _ _ (List.cons_ne_nil _ _)

/-- A frame whose argument bytes are all there decodes (30_encoding R83, R93). -/
theorem decodeFrame_complete {c : Byte} {bs : List Byte}
    (h : (Command.ofByte c).argBytes ≤ bs.length) :
    ∃ i rest, decodeFrame (c :: bs) = .ok (i, rest) := by
  simp only [decodeFrame]
  cases hc : Command.ofByte c <;> rw [hc] at h <;> dsimp only
  case s | l | x | unknown => exact ⟨_, _, rfl⟩
  case r | w =>
    match bs, h with
    | _ :: _ :: _ :: _ :: _, _ => exact ⟨_, _, rfl⟩
  case e | b =>
    match bs, h with
    | _ :: _ :: _, _ => exact ⟨_, _, rfl⟩

theorem runFrame_placeOk (hc : s.ctrl = .busy c .args) : (runFrame c s).PlaceOk := by
  have hr := recv_received (s.argsMissing c) s
  have missing {t : State} {bs : List Byte} (ht : t.ctrl = s.ctrl) (hg : t.got = s.got ++ bs)
      (hn : bs.length < s.argsMissing c) : t.PlaceOk := by
    rw [placeOk_args (ht.trans hc), State.argsMissing, hg]
    simp only [State.argsMissing, List.length_append] at hn ⊢
    omega
  unfold runFrame
  generalize recv (s.argsMissing c) s = o at hr
  cases hr with
  | complete bs x q _ hn _ =>
    have hlen : (Command.ofByte c).argBytes ≤ (s.taken bs x q).got.length := by
      simp only [State.argsMissing, State.taken, List.length_append] at hn ⊢
      omega
    obtain ⟨i, rest, hd⟩ := decodeFrame_complete hlen
    simp only [hd]
    rw [effect_wire (decodeFrame_isWire hd)]
    exact settle_placeOk (start_placeOk i _)
  | timeout => exact emit_placeOk _ _
  | waiting bs hn => exact missing rfl rfl hn
  | overflow bs x q hn => exact missing rfl rfl hn
  | reset => exact placeOk_idle rfl

/-! ### Steps -/

/-- Taking a command byte in IDLE opens the handler's arguments or leaves the machine idle. -/
theorem takeCommand_ctrl (h : s.ctrl = .idle) :
    s.takeCommand.ctrl = .idle ∨ ∃ c, s.takeCommand.ctrl = .busy c .args := by
  rcases s.takeCommand_cases with ⟨_, e⟩ | ⟨c, x, _, e | e⟩ <;> rw [e]
  · exact .inl h
  · exact .inr ⟨c, rfl⟩
  · exact .inl rfl

theorem stepEffect_placeOk (h : s.PlaceOk) : (stepEffect s).PlaceOk := by
  unfold stepEffect
  cases hc : s.ctrl with
  | idle =>
    have ht := attend_turned .command s.inputs s
    generalize attend .command s.inputs s = o at ht
    cases ht with
    | go r q =>
      rcases takeCommand_ctrl (s := s.arrive r q) hc with hu | ⟨c, hu⟩
      · simp only [hu]
        exact placeOk_idle hu
      · simp only [hu]
        exact runFrame_placeOk hu
    | reset => exact placeOk_idle rfl
    | timeout | blocked | overflow => exact placeOk_idle hc
  | busy c p =>
    cases p with
    | args => exact runFrame_placeOk hc
    | data | events => exact settle_placeOk h

/-! ### Single moves -/

theorem afterArgs_placeOk (hc : s.ctrl = .busy c .args) : (afterArgs c s).PlaceOk := by
  unfold afterArgs
  split
  · rename_i hm
    have hlen : (Command.ofByte c).argBytes ≤ s.got.length := Nat.sub_eq_zero_iff_le.mp hm
    obtain ⟨i, rest, hd⟩ := decodeFrame_complete hlen
    rw [hd]
    exact start_placeOk i _
  · rename_i hm
    exact (placeOk_args hc).mpr hm

theorem afterData_placeOk {addr len : Word} (hc : s.ctrl = .busy c (.data addr len)) :
    (afterData c addr len s).PlaceOk := by
  unfold afterData
  split
  · exact enter_placeOk _ _ (writeOps_ne_nil addr _)
  · rename_i hm
    exact (placeOk_data hc).mpr hm

theorem takeByte_ctrl (s : State) : s.takeByte.ctrl = s.ctrl := by
  unfold State.takeByte
  split <;> rfl

/-- The sequencer's event leads to such a place from any. -/
theorem advance_placeOk (s : State) : (advance s).PlaceOk := by
  unfold advance
  cases hc : s.ctrl with
  | idle =>
    rcases takeCommand_ctrl hc with hu | ⟨c, hu⟩
    · simp only [hu]
      exact placeOk_idle hu
    · simp only [hu]
      exact afterArgs_placeOk hu
  | busy c p =>
    have htake := (takeByte_ctrl s).trans hc
    cases p with
    | args =>
      dsimp only
      split
      · exact afterArgs_placeOk hc
      · exact afterArgs_placeOk htake
    | data addr len =>
      dsimp only
      split
      · exact afterData_placeOk hc
      · exact afterData_placeOk htake
    | events ops =>
      match ops with
      | [] => exact placeOk_idle rfl
      | [op] => exact placeOk_idle rfl
      | op :: op' :: ops => exact enter_placeOk _ _ (List.cons_ne_nil _ _)

theorem lapseField_placeOk (h : s.PlaceOk) : (lapseField s).PlaceOk := by
  unfold lapseField
  split
  · exact h
  · exact enter_placeOk _ _ (List.cons_ne_nil _ _)
  · exact enter_placeOk _ _ (List.cons_ne_nil _ _)
  · exact h

theorem hostByte_placeOk (b : Byte) (h : s.PlaceOk) : (s.hostByte b).PlaceOk := by
  obtain ⟨x, r, e⟩ := s.hostByte_eq b
  rw [e]
  exact h

theorem move_placeOk (h : s.PlaceOk) : (move s).PlaceOk := by
  have hq (q : List Stimulus) : { s with inputs := q }.PlaceOk := h
  unfold move
  split
  · split
    · exact advance_placeOk _
    · exact h
  · split
    · exact advance_placeOk _
    · exact hq _
  · split
    · exact lapseField_placeOk (hq _)
    · exact hq _
  · exact hostByte_placeOk _ (hq _)
  · exact placeOk_idle rfl

/-- Settles O45, for a step as for a single move. -/
theorem busyHandlerHasWorkLeft : Obligations.BusyHandlerHasWorkLeft := by
  rintro s t h (hs | hs)
  · obtain ⟨-, rfl⟩ := step_next hs
    exact stepEffect_placeOk h
  · unfold eventStep live at hs
    split at hs
    · cases hs
    · cases hs
      exact move_placeOk h

end Sys2Proof.Machine

/-!
PROOFS for the statements of 10_state. When the host's bytes arrive does not matter: a step commutes
with letting all of them arrive beforehand.
-/

namespace Sys2Proof.Machine

variable {s t : State}

/-! ### All bytes arrived -/

/-- `s` with every byte of the script queued and the script over. -/
def State.arrived (s : State) : State := { s with rxq := s.pending, inputs := [] }

/-- The script brings host bytes alone, there is room for all of them, and `x` discards none. -/
structure Calm (s : State) : Prop where
  hostOnly : ∀ st ∈ s.inputs, st = .run ∨ ∃ b, st = .hostByte b
  room : s.pending.length ≤ s.params.rxCap
  keeps : s.params.xDiscardsRx = false

namespace Calm

theorem noReset (h : Calm s) : .deviceReset ∉ s.inputs := fun hm => by
  simpa using h.hostOnly _ hm

theorem noTimeout (h : Calm s) : .rxTimeout ∉ s.inputs := fun hm => by
  simpa using h.hostOnly _ hm

/-- A later place of the script, with no more bytes on their way, is calm too. -/
theorem later (h : Calm s) (hq : t.inputs <:+ s.inputs) (hp : t.pending.length ≤ s.pending.length)
    (hc : t.params = s.params) : Calm t where
  hostOnly st hm := h.hostOnly st (hq.mem hm)
  room := hp.trans (hc ▸ h.room)
  keeps := hc ▸ h.keeps

end Calm

theorem arrived_quiet (h : s.inputs = []) : s.arrived = s := by
  simp [State.arrived, State.pending, h, scriptBytes, State.inputs_eta h]

/-! ### Shared operations -/

/-- A turn lets some of the bytes arrive and goes on, or waits with no byte on its way. -/
theorem attend_calm (need : Need) (h : Calm s) :
    (∃ u, attend need s.inputs s = .go u ∧ Calm u ∧ u.arrived = s.arrived
      ∧ u.ready need = true) ∨
    (attend need s.inputs s = .blocked s.arrived ∧ s.pending = [] ∧ need ≠ .nothing) := by
  have ht := attend_turned need s.inputs s
  generalize attend need s.inputs s = o at ht
  cases ht with
  | go r q hq hb hready _ =>
    have hp : (s.arrive r q).pending = s.pending := by
      simp [State.pending, State.arrive, hb h.noReset]
    refine .inl ⟨_, rfl, h.later hq (by rw [hp]) rfl, ?_, hready⟩
    rw [State.arrived, hp]
    rfl
  | timeout r q _ hmem => exact absurd hmem h.noTimeout
  | blocked r hb hneed hempty =>
    have hp : s.pending = [] := by rw [State.pending, hb h.noReset, hempty]
    refine .inr ⟨?_, hp, hneed⟩
    rw [State.arrived, hp, State.arrive, hempty]
  | overflow r q _ _ hfull hlen _ =>
    have hroom := h.room
    simp only [State.pending, List.length_append] at hfull hroom
    omega
  | reset r q _ hmem => exact absurd hmem h.noReset

/-- Without a discarding `x`, moves leave the queue as they find it. -/
theorem performAll_rxq (ops : List Op) (s : State) (h : s.params.xDiscardsRx = false) :
    (performAll ops s).rxq = s.rxq := by
  induction ops generalizing s with
  | nil => rfl
  | cons op ops ih =>
    rw [performAll_cons, ih _ (by rw [Op.perform_params, h]), Op.perform_rxq op s h]

theorem performAll_queue (ops : List Op) (x : List Byte) (q : List Stimulus)
    (h : s.params.xDiscardsRx = false) :
    performAll ops { s with rxq := x, inputs := q } =
      { performAll ops s with rxq := x, inputs := q } := by
  obtain ⟨y, hy⟩ := performAll_arrive ops s x q
  have hx := performAll_rxq ops { s with rxq := x, inputs := q } h
  rw [hy] at hx ⊢
  rw [show y = x from hx]

/-- A run performs all its moves, and which bytes have arrived meanwhile makes no difference to it.
-/
theorem runOps_calm (ops : List Op) (h : Calm s) :
    ∃ u, runOps ops s = .done u ∧ u.arrived = performAll ops s.arrived := by
  have hr := runOps_ran ops s
  generalize runOps ops s = o at hr
  cases hr with
  | done x q hq hb =>
    refine ⟨_, rfl, ?_⟩
    rw [State.arrived.eq_def s, performAll_queue ops _ _ h.keeps, hb h.noReset h.keeps]
    rfl
  | overflow _ _ _ _ _ _ hover => exact absurd h.room (hover h.noReset h.keeps).not_ge
  | reset _ hmem => exact absurd hmem h.noReset

theorem emit_arrived (ops : List Op) (h : Calm s) :
    (emit ops s).arrived = emit ops s.arrived := by
  obtain ⟨u, hu, ha⟩ := runOps_calm ops h
  rw [emit_quiet ops s.arrived rfl, emit, hu, ← ha]
  rfl

/-- Taking a field completes or waits, and does the same when all bytes have arrived beforehand. -/
theorem recv_calm (n : Nat) (h : Calm s) :
    (∃ u, recv n s = .complete u ∧ Calm u ∧ recv n s.arrived = .complete u.arrived) ∨
    (∃ u, recv n s = .waiting u ∧ recv n s.arrived = .waiting u.arrived) := by
  have hr := recv_received n s
  generalize recv n s = o at hr
  cases hr with
  | complete bs x q hq hn hb =>
    have hp := hb h.noReset
    refine .inl ⟨_, rfl, h.later hq (by rw [hp]; simp [State.pending, State.taken]) rfl, ?_⟩
    have hx : s.arrived.rxq = bs ++ (x ++ scriptBytes q) := hp
    rw [recv_quiet_complete n s.arrived rfl (by simp [hx, hn]), hx, List.drop_left' hn,
      List.take_left' hn]
    rfl
  | timeout _ _ _ hmem => exact absurd hmem h.noTimeout
  | waiting bs hn hb =>
    have hp := hb h.noReset
    refine .inr ⟨_, rfl, ?_⟩
    have hx : s.arrived.rxq = bs := hp
    rw [recv_quiet_waiting n s.arrived rfl (by simp [hx, hn]), hx]
    rfl
  | overflow _ _ _ _ hover => exact absurd h.room (hover h.noReset).not_ge
  | reset _ _ _ hmem => exact absurd hmem h.noReset

theorem writeData_arrived (addr len : Word) (h : Calm s) :
    (writeData addr len s).arrived = writeData addr len s.arrived := by
  have hd : s.arrived.dataMissing len = s.dataMissing len := rfl
  unfold writeData
  rw [hd]
  rcases recv_calm (s.dataMissing len) h with ⟨u, hu, hc, ha⟩ | ⟨u, hu, ha⟩
  · rw [hu, ha]
    have hfill : Calm u.fillWbuf := hc.later List.suffix_rfl le_rfl rfl
    exact emit_arrived _ hfill
  · rw [hu, ha]

theorem settle_arrived (h : Calm s) : (settle s).arrived = settle s.arrived := by
  have ha : s.arrived.ctrl = s.ctrl := rfl
  cases hc : s.ctrl with
  | idle => rw [settle_idle hc, settle_idle (ha.trans hc)]
  | busy c p =>
    cases p with
    | args => simp [settle, hc, ha]
    | data addr len =>
      rw [settle_data hc, settle_data (ha.trans hc)]
      exact writeData_arrived addr len h
    | events ops =>
      rw [settle_events hc, settle_events (ha.trans hc)]
      exact emit_arrived ops h

/-! ### Instructions and steps -/

/-- The mode guard looks neither at the queue nor at the script. -/
theorem guarded_arrived {f : State → State} (hf : (f s).arrived = f s.arrived) :
    (guarded s f).arrived = guarded s.arrived f := by
  by_cases hm : s.mode = .disconnected
  · rw [guarded_disconnected f hm, guarded_disconnected (s := s.arrived) f hm]
    rfl
  · rw [guarded_connected f hm, guarded_connected (s := s.arrived) f hm, hf]

/-- Entering a handler looks neither at the queue nor at the script. -/
theorem start_arrived (i : Instr) (s : State) : (start i s).arrived = start i s.arrived := by
  cases i with
  | read addr len =>
    unfold start startRead
    exact guarded_arrived rfl
  | eraseRow addr =>
    unfold start startEraseRow
    exact guarded_arrived rfl
  | bulkErase addr =>
    unfold start startBulkErase
    exact guarded_arrived rfl
  | write addr len =>
    unfold start startWrite
    refine guarded_arrived ?_
    dsimp only
    rw [apply_ite State.arrived, apply_ite State.arrived]
    rfl
  | _ => rfl

theorem start_calm (i : Instr) (h : Calm s) : Calm (start i s) := by
  obtain ⟨_, _, _, _, _, e⟩ := start_eq i s
  rw [e]
  exact h.later List.suffix_rfl le_rfl rfl

theorem runFrame_arrived (c : Byte) (h : Calm s) :
    (runFrame c s).arrived = runFrame c s.arrived := by
  have hm : s.arrived.argsMissing c = s.argsMissing c := rfl
  unfold runFrame
  rw [hm]
  rcases recv_calm (s.argsMissing c) h with ⟨u, hu, hc, ha⟩ | ⟨u, hu, ha⟩
  · rw [hu, ha]
    have hg : u.arrived.got = u.got := rfl
    dsimp only
    rw [hg]
    cases hd : decodeFrame (c :: u.got) with
    | error err => rfl
    | ok p =>
      obtain ⟨i, rest⟩ := p
      dsimp only
      rw [effect_wire (decodeFrame_isWire hd), effect_wire (decodeFrame_isWire hd)]
      have hcalm : Calm { u with got := [] } := hc.later List.suffix_rfl le_rfl rfl
      rw [settle_arrived (start_calm i hcalm), start_arrived]
      rfl
  · rw [hu, ha]

/-- A command byte at hand is taken whichever bytes have arrived behind it. -/
theorem takeCommand_arrived (h : s.rxq ≠ []) : s.takeCommand.arrived = s.arrived.takeCommand := by
  obtain ⟨c, x, hx⟩ := List.exists_cons_of_ne_nil h
  have hx' : s.arrived.rxq = c :: (x ++ scriptBytes s.inputs) :=
    congrArg (· ++ scriptBytes s.inputs) hx
  have hopen : (s.opened c x).arrived = s.arrived.opened c (x ++ scriptBytes s.inputs) := rfl
  rw [State.takeCommand_cons hx, State.takeCommand_cons hx', apply_ite State.arrived,
    guarded_arrived (f := id) rfl, hopen]

theorem takeCommand_calm (h : Calm s) : Calm s.takeCommand := by
  rcases s.takeCommand_cases with ⟨_, e⟩ | ⟨c, x, hx, e | e⟩
  · rwa [e]
  all_goals
    rw [e]
    exact h.later List.suffix_rfl (by simp [State.pending, State.opened, hx]) rfl

/-- A step that the host's bytes arrive in the course of leaves what it leaves when they have
arrived before. -/
theorem stepEffect_arrived (h : Calm s) : (stepEffect s).arrived = stepEffect s.arrived := by
  have ha : s.arrived.ctrl = s.ctrl := rfl
  unfold stepEffect
  rw [ha]
  cases hc : s.ctrl with
  | idle =>
    have hquiet : s.arrived.inputs = [] := rfl
    rcases attend_calm .command h with ⟨u, hu, hcalm, harr, hready⟩ | ⟨hu, hp, hneed⟩
    · have hx : u.rxq ≠ [] := by
        intro hx
        simp [State.ready, hx] at hready
      have hx' : s.arrived.rxq ≠ [] := by
        rw [← harr]
        exact List.append_ne_nil_of_left_ne_nil hx _
      have htake : s.arrived.takeCommand = u.takeCommand.arrived := by
        rw [takeCommand_arrived hx, harr]
      have hctrl : u.takeCommand.arrived.ctrl = u.takeCommand.ctrl := rfl
      rw [hu, attend_quiet_ready hquiet hx']
      dsimp only
      rw [htake, hctrl]
      cases u.takeCommand.ctrl with
      | idle => rfl
      | busy c p =>
        cases p with
        | args => exact runFrame_arrived c (takeCommand_calm hcalm)
        | data | events => rfl
    · rw [hu, attend_quiet_blocked hquiet hp hneed]
      exact arrived_quiet rfl
  | busy c p =>
    cases p with
    | args => exact runFrame_arrived c h
    | data | events => exact settle_arrived h

/-- Settles O47: a step of each of the two machines leaves what it leaves with all bytes arrived
beforehand, and then the two scripts are the same. -/
theorem hostTimingIsInvisible : Obligations.HostTimingIsInvisible := by
  intro s tA tB A B host hAB room keeps hA hB
  have hostA : ∀ st ∈ A, st = .run ∨ ∃ b, st = .hostByte b := fun st hm =>
    host st (List.mem_append_left B hm)
  have hostB : ∀ st ∈ B, st = .run ∨ ∃ b, st = .hostByte b := fun st hm =>
    host st (List.mem_append_right A hm)
  have calmA : Calm { s with inputs := A } := ⟨hostA, by simpa [State.pending] using room, keeps⟩
  have calmB : Calm { s with inputs := B } :=
    ⟨hostB, by simpa [State.pending, ← hAB] using room, keeps⟩
  have hstart : { s with inputs := A }.arrived = { s with inputs := B }.arrived := by
    simp only [State.arrived, State.pending, hAB]
  obtain ⟨-, rfl⟩ := step_next hA
  obtain ⟨-, rfl⟩ := step_next hB
  calc
    (stepEffect { s with inputs := A }).arrived = stepEffect { s with inputs := A }.arrived :=
      stepEffect_arrived calmA
    _ = stepEffect { s with inputs := B }.arrived := by rw [hstart]
    _ = (stepEffect { s with inputs := B }).arrived := (stepEffect_arrived calmB).symm

end Sys2Proof.Machine

/-!
PROOFS for the statements of 30_encoding. ICSP fields: encoding and decoding are inverse to each other.
The key, the opcode and the output payload are each read back first.
-/

namespace Sys2Proof.Machine

/-! ### Output payloads (30_encoding R97) -/

@[simp] theorem payloadBitsOf_length (w : Word) : (payloadBitsOf w).length = 24 := by
  simp [payloadBitsOf]

/-- The payload of a word is read as that word. -/
theorem decodePayload_payloadBitsOf (w : Word) (rest : List Bool) :
    decodePayload (payloadBitsOf w ++ rest) = .ok w := by
  have hlen : ¬ (payloadBitsOf w ++ rest).length < 24 := by simp
  have hstart : (payloadBitsOf w ++ rest).take 7 = List.replicate 7 false := by
    simp [payloadBitsOf]
  have hstop : (payloadBitsOf w ++ rest)[23]? = some false := by
    simp [payloadBitsOf]
  have hword : ((payloadBitsOf w ++ rest).drop 7).take 16 = bitsMsb w 16 := by
    simp [payloadBitsOf]
  rw [decodePayload, if_neg hlen, if_pos ⟨hstart, hstop⟩, hword, ofBitsMsb_bitsMsb]

/-- Bits that are read as a word begin with its payload. -/
theorem eq_payloadBitsOf_of_decodePayload {bits : List Bool} {w : Word}
    (h : decodePayload bits = .ok w) : bits = payloadBitsOf w ++ bits.drop 24 := by
  unfold decodePayload at h
  split_ifs at h with hlen hframe
  obtain ⟨hstart, hstop⟩ := hframe
  cases h
  have hword : bitsMsb (ofBitsMsb 16 ((bits.drop 7).take 16)) 16 = (bits.drop 7).take 16 :=
    bitsMsb_ofBitsMsb _ (by simp; omega)
  have hend : (bits.drop 7).drop 16 = false :: bits.drop 24 := by
    obtain ⟨h23, hstop⟩ := List.getElem?_eq_some_iff.mp hstop
    rw [List.drop_drop, List.drop_eq_getElem_cons h23, hstop]
  calc
    bits = bits.take 7 ++ ((bits.drop 7).take 16 ++ (bits.drop 7).drop 16) := by
      rw [List.take_append_drop, List.take_append_drop]
    _ = List.replicate 7 false ++ (bitsMsb _ 16 ++ false :: bits.drop 24) := by
      rw [hstart, hword, hend]
    _ = payloadBitsOf _ ++ bits.drop 24 := by simp [payloadBitsOf]

/-- A command with an output payload is read with its word, and what follows is left. -/
theorem decodeWithPayload_payloadBitsOf (mk : Word → Instr) (w : Word) (rest : List Bool) :
    decodeWithPayload mk (payloadBitsOf w ++ rest) = .ok (mk w, rest) := by
  simp [decodeWithPayload, decodePayload_payloadBitsOf]

/-- Bits read as a command with an output payload are a word's payload and what is left. -/
theorem decodeWithPayload_eq_ok {mk : Word → Instr} {bits rest : List Bool} {i : Instr}
    (h : decodeWithPayload mk bits = .ok (i, rest)) :
    ∃ w, i = mk w ∧ bits = payloadBitsOf w ++ rest := by
  unfold decodeWithPayload at h
  cases hw : decodePayload bits with
  | ok w =>
    rw [hw] at h
    cases h
    exact ⟨w, rfl, eq_payloadBitsOf_of_decodePayload hw⟩
  | error err =>
    rw [hw] at h
    cases h

/-! ### Opcodes and the key (30_encoding R96, R98, R100) -/

/-- What the opcode `op` selects, `bits` being what follows it: the last stage of `decodeField`. -/
def decodeOpcode (op : Byte) (bits : List Bool) : Except DecodeError (Instr × List Bool) :=
  if op = 0x80 then decodeWithPayload .icspLoadPc bits
  else if op = 0xFE then .ok (.icspReadDataInc, bits)
  else if op = 0x02 then decodeWithPayload .icspLoadDataInc bits
  else if op = 0x00 then decodeWithPayload .icspLoadData bits
  else if op = 0xE0 then .ok (.icspBeginProg, bits)
  else if op = 0xF0 then .ok (.icspRowErase, bits)
  else if op = 0x18 then .ok (.icspBulkErase, bits)
  else .error .noIcspOpcode

/-- A field is the key, or its opcode decides. -/
theorem decodeField_eq (bits : List Bool) :
    decodeField bits =
      if bits = [] then .error .empty
      else if bits.take 32 = bitsMsb lvpKeyValue 32 then .ok (.lvpKey, bits.drop 32)
      else if bits.length < 8 then .error .shortField
      else decodeOpcode (ofBitsMsb 8 (bits.take 8)) (bits.drop 8) := rfl

/-- The key is read as the key. -/
theorem decodeField_key (rest : List Bool) :
    decodeField (bitsMsb lvpKeyValue 32 ++ rest) = .ok (.lvpKey, rest) := by
  have hne : bitsMsb lvpKeyValue 32 ++ rest ≠ [] := by simp [bitsMsb]
  rw [decodeField_eq, if_neg hne, if_pos (List.take_left' (bitsMsb_length _ _)),
    List.drop_left' (bitsMsb_length _ _)]

/-- No opcode but the key's first byte, 'M', is mistaken for the key, so the opcode decides. -/
theorem decodeField_opcode {op : Byte} (hop : op ≠ 0x4D) (rest : List Bool) :
    decodeField (bitsMsb op 8 ++ rest) = decodeOpcode op rest := by
  have hne : bitsMsb op 8 ++ rest ≠ [] := by simp [bitsMsb]
  have hlen : ¬ (bitsMsb op 8 ++ rest).length < 8 := by simp
  have hfirst : (bitsMsb op 8 ++ rest).take 8 = bitsMsb op 8 := List.take_left' (bitsMsb_length _ _)
  have hkey : (bitsMsb op 8 ++ rest).take 32 ≠ bitsMsb lvpKeyValue 32 := by
    intro h
    apply hop
    calc
      op = ofBitsMsb 8 ((bitsMsb op 8 ++ rest).take 8) := by rw [hfirst, ofBitsMsb_bitsMsb]
      _ = ofBitsMsb 8 (((bitsMsb op 8 ++ rest).take 32).take 8) := by rw [List.take_take]; rfl
      _ = 0x4D := by rw [h]; decide
  rw [decodeField_eq, if_neg hne, if_neg hkey, if_neg hlen, hfirst, ofBitsMsb_bitsMsb,
    List.drop_left' (bitsMsb_length _ _)]

/-- An opcode with an output payload is encoded as the opcode's bits and the payload's. -/
theorem fieldWithPayload_eq (op : Byte) (w : Word) :
    fieldWithPayload op w = bitsMsb op 8 ++ payloadBitsOf w := by
  simp [fieldWithPayload, payloadBitsOf]

/-- A command with an output payload is read back, when its opcode asks for one. -/
theorem decodeField_fieldWithPayload {op : Byte} {mk : Word → Instr} (hop : op ≠ 0x4D)
    (hmk : ∀ bits, decodeOpcode op bits = decodeWithPayload mk bits) (w : Word) (rest : List Bool) :
    decodeField (fieldWithPayload op w ++ rest) = .ok (mk w, rest) := by
  rw [fieldWithPayload_eq, List.append_assoc, decodeField_opcode hop, hmk,
    decodeWithPayload_payloadBitsOf]

/-- Settles O52: the key is read first, no opcode is its first byte, and each payload gives its word back. -/
theorem fieldDecodesToItsInstruction : Obligations.FieldDecodesToItsInstruction := by
  intro i rest hicsp
  cases i with
  | enterHv | enterLvp | exit | read | write | eraseRow | bulkErase | unknown => cases hicsp
  | icspLoadPc w | icspLoadDataInc w | icspLoadData w =>
    exact decodeField_fieldWithPayload (by decide) (fun _ => rfl) w rest
  | icspReadDataInc | icspBeginProg | icspRowErase | icspBulkErase =>
    exact decodeField_opcode (by decide) rest
  | lvpKey => exact decodeField_key rest

/-- What an opcode and the bits after it are read as is encoded as they are. -/
theorem eq_fieldOf_of_decodeOpcode {op : Byte} {bits rest : List Bool} {i : Instr}
    (h : decodeOpcode op bits = .ok (i, rest)) :
    bitsMsb op 8 ++ bits = fieldOf i ++ rest ∧ i.isWire = false := by
  have payload (mk : Word → Instr) (hmk : ∀ w, fieldOf (mk w) = fieldWithPayload op w)
      (hicsp : ∀ w, (mk w).isWire = false) (h : decodeWithPayload mk bits = .ok (i, rest)) :
      bitsMsb op 8 ++ bits = fieldOf i ++ rest ∧ i.isWire = false := by
    obtain ⟨w, rfl, rfl⟩ := decodeWithPayload_eq_ok h
    exact ⟨by rw [hmk, fieldWithPayload_eq, List.append_assoc], hicsp w⟩
  unfold decodeOpcode at h
  split_ifs at h with h1 h2 h3 h4 h5 h6 h7
  · exact payload _ (fun _ => h1 ▸ rfl) (fun _ => rfl) h
  · cases h; exact ⟨h2 ▸ rfl, rfl⟩
  · exact payload _ (fun _ => h3 ▸ rfl) (fun _ => rfl) h
  · exact payload _ (fun _ => h4 ▸ rfl) (fun _ => rfl) h
  · cases h; exact ⟨h5 ▸ rfl, rfl⟩
  · cases h; exact ⟨h6 ▸ rfl, rfl⟩
  · cases h; exact ⟨h7 ▸ rfl, rfl⟩

/-- Settles O54: bits that decode are the key and what follows it, or an opcode's and what it takes. -/
theorem decodedFieldIsItsEncoding : Obligations.DecodedFieldIsItsEncoding := by
  intro bits rest i h
  rw [decodeField_eq] at h
  split_ifs at h with hne hkey hlen
  · cases h
    exact ⟨by rw [show fieldOf .lvpKey = bits.take 32 from hkey.symm, List.take_append_drop], rfl⟩
  · have hop : bitsMsb (ofBitsMsb 8 (bits.take 8)) 8 = bits.take 8 :=
      bitsMsb_ofBitsMsb _ (by simp; omega)
    have hd := eq_fieldOf_of_decodeOpcode h
    rwa [hop, List.take_append_drop] at hd

end Sys2Proof.Machine

/-!
PROOFS for the statements of 30_encoding. Wire frames: encoding and decoding are inverse to each other,
every byte string that is long enough decodes, and data bytes and words are the same sequence.
-/

namespace Sys2Proof.Machine

/-! ### Frames (30_encoding R82–R93) -/

/-- A byte that is none of the seven commands selects no handler (R90). -/
theorem ofByte_unknown {c : Byte} (h : c ∉ commandBytes) : Command.ofByte c = .unknown := by
  simp only [commandBytes, List.mem_cons, List.not_mem_nil, or_false, not_or] at h
  simp only [Command.ofByte, h, if_false]

/-- A byte that is none of the seven commands is a frame of its own (R90). -/
theorem decodeFrame_unknown {c : Byte} (h : c ∉ commandBytes) (bs : List Byte) :
    decodeFrame (c :: bs) = .ok (.unknown c, bs) := by
  simp only [decodeFrame, ofByte_unknown h]

/-- An unknown byte is well-formed when it is none of the seven commands (R90). -/
theorem wellFormed_unknown_iff (c : Byte) : (Instr.unknown c).wellFormed = true ↔ c ∉ commandBytes := by
  simp [Instr.wellFormed]

/-- Settles O51: the command byte selects the arm, and each operand is assembled from its own bytes. -/
theorem frameDecodesToItsInstruction : Obligations.FrameDecodesToItsInstruction := by
  intro i rest hwire hwf
  cases i with
  | enterHv | enterLvp | exit => rfl
  | read addr len | write addr len | eraseRow addr | bulkErase addr =>
    simp [frameOf, encode, decodeFrame, Command.ofByte]
  | unknown c => exact decodeFrame_unknown ((wellFormed_unknown_iff c).mp hwf) rest
  | icspLoadPc | icspReadDataInc | icspLoadDataInc | icspLoadData | icspBeginProg | icspRowErase
  | icspBulkErase | lvpKey => cases hwire

/-- Settles O53: each command byte is the only one that selects its arm, and a word assembled from two
bytes is sent as those two. -/
theorem decodedFrameIsItsEncoding : Obligations.DecodedFrameIsItsEncoding := by
  rintro (_ | ⟨c, bs⟩) rest i h
  · cases h
  rcases Command.ofByte_cases c with ⟨rfl, hc⟩ | ⟨rfl, hc⟩ | ⟨rfl, hc⟩ | ⟨rfl, hc⟩ | ⟨rfl, hc⟩ |
    ⟨rfl, hc⟩ | ⟨rfl, hc⟩ | ⟨hn, hc⟩ <;> simp only [decodeFrame, hc] at h
  -- `s`, `l` and `x`: the command byte is the whole frame
  iterate 3
    cases h
    exact ⟨rfl, rfl, rfl⟩
  -- `r`, `w`, `e` and `b`: one shape of argument bytes decodes
  iterate 4
    split at h <;> cases h
    exact ⟨by simp [frameOf, encode], rfl, rfl⟩
  · cases h
    exact ⟨rfl, rfl, (wellFormed_unknown_iff c).mpr hn⟩

/-- No command takes more than four argument bytes (R83). -/
theorem argBytes_le_four (k : Command) : k.argBytes ≤ 4 := by
  cases k <;> decide

/-- Settles O55: four bytes after the command byte are enough for every command. -/
theorem frameDecodingIsTotal : Obligations.FrameDecodingIsTotal := by
  rintro (_ | ⟨c, bs⟩) h
  · simp at h
  · exact decodeFrame_complete ((argBytes_le_four _).trans (Nat.le_of_succ_le_succ h))

/-- Settles O58: both decoders are computed on the words as written. -/
theorem writtenOutWordsDecode : Obligations.WrittenOutWordsDecode :=
  ⟨by decide, by decide, by decide, by decide, by decide, by decide, by decide⟩

/-- Settles O59: each operation's frame is a wire command's, with nothing or the data bytes after it. -/
theorem hostOperationsExpandToFrames : Obligations.HostOperationsExpandToFrames := by
  have alone (i : Instr) (hwire : i.isWire = true) (hwf : i.wellFormed = true) :
      decodeFrame (frameOf i) = .ok (i, []) := by
    simpa using frameDecodesToItsInstruction i [] hwire hwf
  exact ⟨alone .enterHv rfl rfl, alone .exit rfl rfl, fun a n => alone (.read a n) rfl rfl,
    fun a => alone (.eraseRow a) rfl rfl, fun a => alone (.bulkErase a) rfl rfl,
    fun a ws => frameDecodesToItsInstruction (.write a _) (bytesOfWords ws) rfl rfl⟩

/-! ### Data bytes and words (30_encoding R86, 20_memory R64) -/

/-- Words sent and assembled again are unchanged. -/
@[simp] theorem wordsOfBytes_bytesOfWords (ws : List Word) : wordsOfBytes (bytesOfWords ws) = ws := by
  induction ws with
  | nil => rfl
  | cons w ws ih => simp [bytesOfWords, wordsOfBytes, ih]

/-- An even number of bytes assembled into words and sent again is unchanged. -/
theorem bytesOfWords_wordsOfBytes (n : Nat) (bs : List Byte) (h : bs.length = 2 * n) :
    bytesOfWords (wordsOfBytes bs) = bs := by
  induction n generalizing bs with
  | zero =>
    rw [List.eq_nil_of_length_eq_zero h]
    rfl
  | succ n ih =>
    match bs, h with
    | b0 :: b1 :: bs, h =>
      simp only [List.length_cons] at h
      simp [wordsOfBytes, bytesOfWords, ih bs (by omega)]

/-- Word `i` is made of byte `2i` and then byte `2i + 1`. -/
theorem wordsOfBytes_getElem? (n i : Nat) (bs : List Byte) (h : bs.length = 2 * n) (hi : i < n) :
    (wordsOfBytes bs)[i]? = some (Word.ofBytes (bs.getD (2 * i) 0) (bs.getD (2 * i + 1) 0)) := by
  induction n generalizing i bs with
  | zero => omega
  | succ n ih =>
    match bs, h with
    | b0 :: b1 :: bs, h =>
      cases i with
      | zero => rfl
      | succ i =>
        simp only [List.length_cons] at h
        exact ih i bs (by omega) (by omega)

/-- Settles O57: by induction on the words, two bytes at a time. -/
theorem dataBytesAssembleBigEndian : Obligations.DataBytesAssembleBigEndian :=
  ⟨fun bs n i => wordsOfBytes_getElem? n i bs,
    fun bs h => bytesOfWords_wordsOfBytes (bs.length / 2) bs (by omega), wordsOfBytes_bytesOfWords⟩

end Sys2Proof.Machine

/-!
PROOFS for the statements of 30_encoding. What the machine does with bits and bytes: the field an ICSP
command clocks out, the words it samples, and the reply codes.
-/

namespace Sys2Proof.Machine

variable {s t : State}

/-- An entered handler performs its event list. -/
theorem settle_enter (s : State) (c : Byte) (ops : List Op) :
    settle (s.enter c ops) = emit ops (s.enter c ops) :=
  settle_events (s.enter_ctrl c ops)

/-- With nothing from outside, its moves are performed and it goes idle. -/
theorem settle_enter_quiet (s : State) (c : Byte) (ops : List Op) (h : s.inputs = []) :
    settle (s.enter c ops) = (performAll ops (s.enter c ops)).toIdle :=
  (settle_enter s c ops).trans (emit_quiet ops (s.enter c ops) h)

/-! ### Fields clocked out (30_encoding R95–R98) -/

/-- The bits of an ICSP command's waveform are its field (40_pulse_generator R130–R136, R123). -/
theorem performAll_icsp_outBits {i : Instr} {c : Byte} {ops : List Op}
    (h : icspPlace i = some (c, ops)) (s : State) :
    ∃ es, (performAll ops s).events = s.events ++ es ∧ outBits es = fieldOf i := by
  have payload (op : Byte) (w : Word) : outBits (payloadWave op w) = fieldWithPayload op w := by
    rw [outBits_payloadWave, fieldWithPayload_eq]
  have key : outBits (wave (bitsMsb lvpKeyValue 32)) = bitsMsb lvpKeyValue 32 := by
    simpa using outBits_wave (bitsMsb lvpKeyValue 32) []
  cases i with
  | enterHv | enterLvp | exit | read | write | eraseRow | bulkErase | unknown => cases h
  | icspLoadPc w =>
    cases h
    exact ⟨_, by rw [performAll_loadPc], payload 0x80 w⟩
  | icspReadDataInc =>
    cases h
    refine ⟨wave (bitsMsb (0xFE : Byte) 8)
      ++ .hold .dly :: readWave (answersFrom s.answers s.draws 16),
      by simp [performAll_readDataInc], ?_⟩
    rw [outBits_wave, outBits_hold, outBits_readWave, List.append_nil]
    rfl
  | icspLoadDataInc w =>
    cases h
    exact ⟨_, by rw [performAll_loadDataInc], payload 0x02 w⟩
  | icspLoadData w =>
    cases h
    exact ⟨_, by rw [performAll_loadData], payload 0x00 w⟩
  | icspBeginProg =>
    cases h
    exact ⟨_, by rw [performAll_beginProg], outBits_commandWave 0xE0 _⟩
  | icspRowErase =>
    cases h
    exact ⟨_, by rw [performAll_rowErase], outBits_commandWave 0xF0 _⟩
  | icspBulkErase =>
    cases h
    exact ⟨_, by rw [performAll_bulkErase], outBits_commandWave 0x18 _⟩
  | lvpKey =>
    cases h
    exact ⟨_, by rw [performAll_sendKey], key⟩

/-- An ICSP command has an event list. -/
theorem exists_icspPlace {i : Instr} (h : i.isWire = false) : ∃ c ops, icspPlace i = some (c, ops) := by
  cases i with
  | enterHv | enterLvp | exit | read | write | eraseRow | bulkErase | unknown => cases h
  | _ => exact ⟨_, _, rfl⟩

/-- With nothing from outside an ICSP command's events are performed, and nothing else. -/
theorem exec_icsp_quiet {i : Instr} {c : Byte} {ops : List Op} (h : icspPlace i = some (c, ops))
    (hq : s.Quiet) : exec i s = .next (performAll ops s) := by
  obtain ⟨hr, hi⟩ := hq
  rw [exec_effect, live_none _ hr, effect_icsp h, runOps_quiet _ _ hi, Run.state]

/-- Settles O28: the waveform of each command, read off at its rising clocks. -/
theorem icspWaveCarriesField : Obligations.IcspWaveCarriesField := by
  intro s i hq hicsp
  obtain ⟨c, ops, hops⟩ := exists_icspPlace hicsp
  obtain ⟨es, he, hbits⟩ := performAll_icsp_outBits hops s
  exact ⟨_, es, exec_icsp_quiet hops hq, he, hbits⟩

/-! ### Words sampled (30_encoding R99, 42_read R186) -/

@[simp] theorem answersFrom_length (answers : List Bool) (k n : Nat) :
    (answersFrom answers k n).length = n := by
  induction n generalizing k with
  | zero => rfl
  | succ n ih => exact congrArg (· + 1) (ih (k + 1))

theorem answersFrom_getElem? (answers : List Bool) (d : Nat) {n k : Nat} (h : k < n) :
    (answersFrom answers d n)[k]? = some (targetAnswer answers (d + k)) := by
  induction n generalizing d k with
  | zero => omega
  | succ n ih =>
    cases k with
    | zero => rfl
    | succ k =>
      rw [answersFrom, List.getElem?_cons_succ, ih (d + 1) (by omega)]
      congr 2
      omega

/-- The first of the 16 answers is the most significant bit of the word. -/
theorem wordFrom_getLsbD (answers : List Bool) (d : Nat) {k : Nat} (h : k < 16) :
    (wordFrom answers d).getLsbD (15 - k) = targetAnswer answers (d + k) := by
  have hk : 16 - 1 - (15 - k) = k := by omega
  rw [wordFrom, ofBitsMsb, foldl_shiftConcat_getLsbD _ _ _ (by simp), answersFrom_length,
    if_pos (by omega), hk, List.getD_eq_getElem?_getD, answersFrom_getElem? _ _ h, Option.getD_some]

@[simp] theorem wordsFrom_length (answers : List Bool) (d n : Nat) :
    (wordsFrom answers d n).length = n := by
  induction n generalizing d with
  | zero => rfl
  | succ n ih => exact congrArg (· + 1) (ih (d + 16))

/-- Word `k` of a read begins with sample number `16·k`. -/
theorem wordsFrom_getElem? (answers : List Bool) (d : Nat) {n k : Nat} (h : k < n) :
    (wordsFrom answers d n)[k]? = some (wordFrom answers (d + 16 * k)) := by
  induction n generalizing d k with
  | zero => omega
  | succ n ih =>
    cases k with
    | zero => rfl
    | succ k =>
      rw [wordsFrom, List.getElem?_cons_succ, ih (d + 16) (by omega)]
      congr 2
      omega

theorem bytesOfWords_length (ws : List Word) : (bytesOfWords ws).length = 2 * ws.length := by
  induction ws with
  | nil => rfl
  | cons w ws ih =>
    simp only [bytesOfWords, List.length_cons, ih]
    omega

/-- With nothing from outside a read sends the words it samples, and nothing else (42_read R180). -/
theorem exec_read_quiet_txh (addr len : Word) (hq : s.Quiet) (hm : s.mode ≠ .disconnected) :
    ∃ t, exec (.read addr len) s = .next t
      ∧ t.txh = s.txh ++ bytesOfWords (wordsFrom s.answers s.draws len.toNat) := by
  obtain ⟨hr, hi⟩ := hq
  refine ⟨_, by rw [exec_effect, live_none _ hr], ?_⟩
  rw [effect, startRead, guarded_connected _ hm, settle_enter_quiet (s.latchArgs addr len) _ _ hi,
    readOps, performAll_append, performAll_loadPc, performAll_readLoop]
  rfl

/-- Settles O31: bit `15 - k` of a sampled word is answer `k` of its 16, and the bytes a read sends are
those words, high byte first. -/
theorem sampledBitsAreTheWord : Obligations.SampledBitsAreTheWord := by
  refine ⟨fun s k hq hk => ?_, fun s addr len n k hq hm hn hk => ?_⟩
  · refine ⟨_, exec_icsp_quiet (i := .icspReadDataInc) rfl hq, ?_⟩
    rw [performAll_readDataInc]
    exact wordFrom_getLsbD s.answers s.draws hk
  · obtain ⟨t, ht, htx⟩ := exec_read_quiet_txh addr len hq hm
    refine ⟨t, _, wordFrom s.answers (s.draws + 16 * n), ht, htx, ?_, ?_,
      wordFrom_getLsbD s.answers _ hk⟩
    · rw [bytesOfWords_length, wordsFrom_length]
    · rw [wordsOfBytes_bytesOfWords, wordsFrom_getElem? _ _ hn]

/-! ### Reply codes (30_encoding R80) -/

/-- The move sends nothing. -/
def Op.Silent (op : Op) : Prop := ∀ s, (op.perform s).txh = s.txh

theorem onPulses_silent : OnPulses Op.Silent where
  level _ _ _ := rfl
  hold _ _ := rfl

/-- From `s` to `t` nothing was sent, or one byte: 'K', 'D' or 'U'. -/
def Replies (s t : State) : Prop :=
  t.txh = s.txh ∨ ∃ b ∈ [(0x4B : Byte), 0x44, 0x55], t.txh = s.txh ++ [b]

/-- A byte of the host's and its refusal send nothing. -/
@[simp] theorem hostByte_txh (s : State) (b : Byte) : (s.hostByte b).txh = s.txh := by
  obtain ⟨x, r, e⟩ := s.hostByte_eq b
  rw [e]

/-- Taking a byte from the host sends nothing. -/
@[simp] theorem takeByte_txh (s : State) : s.takeByte.txh = s.txh := by
  unfold State.takeByte
  split <;> rfl

/-- Taking a field sends nothing, whatever the script. -/
theorem recv_txh (n : Nat) (s : State) : (recv n s).state.txh = s.txh :=
  recv_induct (P := fun u => u.txh = s.txh) n (fun u h => (takeByte_txh u).trans h) (fun _ h => h)
    (fun _ _ h => h) (fun u b h => (hostByte_txh u b).trans h) s (fun _ _ h => h) rfl

/-- Moves that send nothing send nothing, whatever the script. -/
theorem runOps_silent {ops : List Op} (h : ∀ op ∈ ops, op.Silent) (s : State) :
    (runOps ops s).state.txh = s.txh :=
  runOps_induct (P := fun u => u.txh = s.txh) ops (fun op ho u hu => (h op ho u).trans hu)
    (fun _ _ h => h) (fun u b h => (hostByte_txh u b).trans h) (fun _ _ h => h) s
    (fun _ _ h => h) rfl

theorem finish_txh (r : Run) : r.finish.txh = r.state.txh := by
  cases r <;> rfl

theorem emit_silent {ops : List Op} (h : ∀ op ∈ ops, op.Silent) (s : State) :
    (emit ops s).txh = s.txh :=
  (finish_txh _).trans (runOps_silent h s)

/-- One byte to send is sent, or a reset or an overflow comes first. -/
theorem runOps_txPut (b : Byte) (s : State) :
    (runOps [.txPut b] s).state.txh = s.txh ∨ (runOps [.txPut b] s).state.txh = s.txh ++ [b] := by
  have ha : (attend .nothing s.inputs s).state.txh = s.txh :=
    attend_induct (P := fun u => u.txh = s.txh) _ _ (fun _ _ h => h)
      (fun u b h => (hostByte_txh u b).trans h) (fun _ _ h => h) s rfl
  rw [runOps]
  cases h : attend .nothing s.inputs s with
  | go u =>
    rw [h] at ha
    exact .inr (congrArg (· ++ [b]) ha)
  | timeout u | blocked u | ended u =>
    rw [h] at ha
    exact .inl ha

/-- A handler that sends nothing before its reply sends at most the reply, whatever the script. -/
theorem emit_reply {ops : List Op} (h : ∀ op ∈ ops, op.Silent) (b : Byte) (s : State) :
    (emit (ops ++ [.txPut b]) s).txh = s.txh ∨ (emit (ops ++ [.txPut b]) s).txh = s.txh ++ [b] := by
  have hs := runOps_silent h s
  rw [emit, finish_txh]
  cases hr : runOps ops s with
  | done u =>
    rw [hr] at hs
    rw [runOps_append_done _ hr, ← (hs : u.txh = s.txh)]
    exact runOps_txPut b u
  | ended u =>
    rw [hr] at hs
    obtain ⟨c, hc⟩ := runOps_append_ended [.txPut b] hr
    rw [hc]
    exact .inl hs

/-- `emit_reply` for a reply code an instruction sends, from a state that has sent what `s` has. -/
theorem emit_replies {ops : List Op} (h : ∀ op ∈ ops, op.Silent) {b : Byte}
    (hb : b ∈ [(0x4B : Byte), 0x44, 0x55]) {u : State} (hu : u.txh = s.txh) :
    Replies s (emit (ops ++ [.txPut b]) u) := by
  rw [Replies, ← hu]
  exact (emit_reply h b u).imp id fun e => ⟨b, hb, e⟩

/-- The mode guard's refusal sends nothing. -/
theorem settle_guarded_replies {f : State → State} (h : Replies s (settle (f s))) :
    Replies s (settle (guarded s f)) := by
  by_cases hm : s.mode = .disconnected
  · rw [guarded_disconnected f hm]
    exact .inl rfl
  · rwa [guarded_connected f hm]

theorem loadPc_silent (w : Word) : ∀ op ∈ loadPcOps w, op.Silent :=
  onPulses_silent.loadPc w fun _ => rfl

/-- Of the moves of a write only the last, its reply, sends (43_write_erase R190). -/
theorem writeData_replies (addr len : Word) (s : State) : Replies s (writeData addr len s) := by
  have hr := recv_txh (s.dataMissing len) s
  rw [writeData]
  cases h : recv (s.dataMissing len) s with
  | complete u =>
    rw [h] at hr
    refine emit_replies ?_ (by decide) hr
    exact forall_mem_append (forall_mem_append (forall_mem_append (loadPc_silent addr)
      onPulses_silent.rowErase) (onPulses_silent.loadWords (fun _ => rfl) _)) onPulses_silent.beginProg
  | timeout u =>
    rw [h] at hr
    exact emit_replies (ops := []) (by simp) (by decide) hr
  | waiting u | ended u =>
    rw [h] at hr
    exact .inl hr

/-- A write is refused, or goes on to its data (R190, R191). -/
theorem settle_startWrite_replies (addr len : Word) (s : State) :
    Replies s (settle (startWrite addr len s)) := by
  refine settle_guarded_replies ?_
  dsimp only
  split
  · exact .inl rfl
  · split
    · exact .inl rfl
    · rw [settle_data (c := 0x77) rfl]
      exact writeData_replies addr len _

/-- Settles O48: every handler but a read's sends nothing before its reply, and a write's data may time
out. -/
theorem atMostOneReplyCode : Obligations.AtMostOneReplyCode := by
  intro i s t hread he
  obtain ⟨-, rfl⟩ := exec_next he
  change Replies s (effect i s)
  cases i with
  | enterHv =>
    exact emit_replies (ops := enterHvOps.dropLast)
      (by simp [enterHvOps, Op.Silent, Op.perform]) (b := 0x4B) (by decide) rfl
  | enterLvp =>
    have hops : enterLvpOps =
        enterLvpOps.take 5 ++ sendKey ++ [.setMode .progLvp] ++ [.txPut 0x4B] := by
      simp [enterLvpOps, Reply.byte]
    rw [effect, startEnterLvp, settle_enter, hops]
    refine emit_replies (forall_mem_append (forall_mem_append ?_ onPulses_silent.sendKey) ?_)
      (by decide) rfl
    · simp [enterLvpOps, Op.Silent, Op.perform]
    · simp [Op.Silent, Op.perform]
  | exit => exact .inl (emit_silent (by simp [exitOps, Op.Silent, Op.perform]) _)
  | read addr len => exact absurd rfl (hread addr len)
  | write addr len => exact settle_startWrite_replies addr len s
  | eraseRow addr =>
    exact settle_guarded_replies (emit_replies
      (forall_mem_append (loadPc_silent addr) onPulses_silent.rowErase) (by decide) rfl)
  | bulkErase addr =>
    exact settle_guarded_replies (emit_replies
      (forall_mem_append (loadPc_silent addr) onPulses_silent.bulkErase) (by decide) rfl)
  | unknown c => exact emit_replies (ops := []) (by simp) (by decide) rfl
  | icspLoadPc w => exact .inl (runOps_silent (loadPc_silent w) s)
  | icspReadDataInc =>
    exact .inl (runOps_silent (onPulses_silent.readDataInc (fun _ => rfl) (fun _ => rfl)
      (fun _ => rfl) (fun _ => rfl)) s)
  | icspLoadDataInc w => exact .inl (runOps_silent (onPulses_silent.loadDataInc (fun _ => rfl) w) s)
  | icspLoadData w => exact .inl (runOps_silent (onPulses_silent.loadData w) s)
  | icspBeginProg => exact .inl (runOps_silent onPulses_silent.beginProg s)
  | icspRowErase => exact .inl (runOps_silent onPulses_silent.rowErase s)
  | icspBulkErase => exact .inl (runOps_silent onPulses_silent.bulkErase s)
  | lvpKey => exact .inl (runOps_silent onPulses_silent.sendKey s)

/-! ### Unknown bytes (30_encoding R90) -/

/-- An unknown byte takes no argument, so its handler is entered at once (R83, R90). -/
theorem runFrame_unknown {c : Byte} (h : c ∉ commandBytes) (s : State) (x : List Byte) :
    runFrame c (s.opened c x) = effect (.unknown c) (s.opened c x) := by
  have hargs : (s.opened c x).argsMissing c = 0 := by
    rw [State.argsMissing, ofByte_unknown h]
    rfl
  have hdec : decodeFrame (c :: (s.opened c x).got) = .ok (.unknown c, []) := decodeFrame_unknown h []
  rw [runFrame, hargs, recv]
  simp only [hdec]
  rfl

/-- The mode guard does not apply to an unknown byte, and an idle machine takes it (R150, R153). -/
theorem stepEffect_unknown {c : Byte} {x : List Byte} (hc : c ∉ commandBytes) (hi : s.inputs = [])
    (hidle : s.ctrl = .idle) (hx : s.rxq = c :: x) :
    stepEffect s = effect (.unknown c) (s.opened c x) := by
  have htake : s.takeCommand = s.opened c x := by
    rw [State.takeCommand_cons hx, ofByte_unknown hc]
    rfl
  rw [stepEffect, hidle]
  simp only [attend_quiet_ready hi (hx ▸ List.cons_ne_nil c x), htake]
  exact runFrame_unknown hc s x

/-- Settles O56: an unknown byte takes no argument, and its handler sends 'U'. -/
theorem otherBytesAreUnknown : Obligations.OtherBytesAreUnknown := by
  intro s c q hc
  refine ⟨decodeFrame_unknown hc q, fun ⟨hr, hi⟩ hidle hq => ?_⟩
  rw [step_eq_live, live_none _ hr, stepEffect_unknown hc hi hidle hq, effect, startUnknown,
    settle_enter_quiet (s.opened c q) _ _ hi]
  simp [unknownOps, Op.perform, State.opened, State.record, State.txPut, State.enter, State.toIdle,
    Reply.byte, hidle]

end Sys2Proof.Machine

/-!
PROOFS for the statements of 40_pulse_generator. What each ICSP command clocks and leaves, read off its
event list performed with nothing from outside; and the clocks of every instruction.
-/

namespace Sys2Proof.Machine

variable {s t : State}

/-! ### What the ICSP commands leave (40_pulse_generator R130–R136, R123) -/

/-- A command with an output payload, field by field behind a history (R118, R121). -/
theorem append_payloadWave (es : List Event) (op : Byte) (w : Word) :
    es ++ payloadWave op w =
      es ++ wave (bitsMsb op 8) ++ [.hold .dly]
        ++ wave (List.replicate 7 false ++ bitsMsb w 16 ++ [false]) ++ [.hold .dly] := by
  simp only [payloadWave, payloadBitsOf, List.append_assoc]

/-- A command without payload, field by field behind a history. -/
theorem append_commandWave (es : List Event) (op : Byte) (t : HoldName) :
    es ++ commandWave op t = es ++ wave (bitsMsb op 8) ++ [.hold t] :=
  (List.append_assoc _ _ _).symm

/-- Settles O20: the event list of ICSP_LOAD_PC, performed. -/
theorem loadPcEffect : Obligations.LoadPcEffect := by
  intro s w hq
  rw [exec_icsp_quiet rfl hq, performAll_loadPc, append_payloadWave]
  rfl

/-- Settles O21: the event list of ICSP_READ_DATA_INC, performed; the mirror is `UNSET` or a word. -/
theorem readDataIncEffect : Obligations.ReadDataIncEffect := by
  intro s hq
  rw [exec_icsp_quiet rfl hq, performAll_readDataInc]
  cases s.pc <;>
    simp [incMirror, readWave, Pins.shifted, Pins.release]

/-- Settles O22: the event list of ICSP_LOAD_DATA_INC, performed; the mirror is `UNSET` or a word. -/
theorem loadDataIncEffect : Obligations.LoadDataIncEffect := by
  intro s w hq
  rw [exec_icsp_quiet rfl hq, performAll_loadDataInc, append_payloadWave]
  cases s.pc <;> rfl

/-- Settles O23: the event list of ICSP_LOAD_DATA, performed, which has no move on the mirror. -/
theorem loadDataEffect : Obligations.LoadDataEffect := by
  intro s w hq
  rw [exec_icsp_quiet rfl hq, performAll_loadData, append_payloadWave]
  rfl

/-- Settles O24: the event list of ICSP_BEGIN_PROG, performed. -/
theorem beginProgEffect : Obligations.BeginProgEffect := by
  intro s hq
  rw [exec_icsp_quiet rfl hq, performAll_beginProg, append_commandWave]
  rfl

/-- Settles O25: the event list of ICSP_ROW_ERASE, performed. -/
theorem rowEraseEffect : Obligations.RowEraseEffect := by
  intro s hq
  rw [exec_icsp_quiet rfl hq, performAll_rowErase, append_commandWave]
  rfl

/-- Settles O26: the event list of ICSP_BULK_ERASE, performed. -/
theorem bulkEraseEffect : Obligations.BulkEraseEffect := by
  intro s hq
  rw [exec_icsp_quiet rfl hq, performAll_bulkErase, append_commandWave]
  rfl

/-- Settles O27: the event list of the key, performed; its 32 bits are those of 'M', 'C', 'H' and 'P'. -/
theorem lvpKeyEffect : Obligations.LvpKeyEffect := by
  intro s hq
  have bytes : bitsMsb lvpKeyValue 32 = bitsMsb (0x4D : Byte) 8 ++ bitsMsb (0x43 : Byte) 8
      ++ bitsMsb (0x48 : Byte) 8 ++ bitsMsb (0x50 : Byte) 8 := by decide
  rw [exec_icsp_quiet rfl hq, performAll_sendKey, bytes]
  rfl

/-! ### The event lists of the handlers, performed whole -/

/-- EnterHV (41_dispatch_and_mode R160). -/
theorem performAll_enterHv (s : State) :
    performAll enterHvOps s =
      { s with
        mode := .progHv
        pins := { dat := ⟨.output, false⟩, clk := ⟨.output, false⟩, hven := false, vdden := true }
        txh := s.txh ++ [Reply.ok.byte]
        events := s.events ++
          [.drive .dat false, .drive .clk false, .hold .entry, .level .hven false, .hold .entry,
            .level .vdden true, .tx Reply.ok.byte] } := by
  simp [enterHvOps, Op.perform, State.record, State.txPut, Pins.drive, Pins.setLevel]

/-- EnterLVP (R162). -/
theorem performAll_enterLvp (s : State) :
    performAll enterLvpOps s =
      { s with
        mode := .progLvp
        pins := { dat := ⟨.output, false⟩, clk := ⟨.output, false⟩, hven := true, vdden := true }
        txh := s.txh ++ [Reply.ok.byte]
        events := s.events ++
          ([.drive .dat false, .drive .clk false, .hold .entry, .level2 .hven true .vdden true,
            .hold .lvp] ++ wave (bitsMsb lvpKeyValue 32) ++ [.tx Reply.ok.byte]) } := by
  simp [enterLvpOps, performAll_append, performAll_sendKey, Op.perform, State.record, State.txPut,
    Pins.drive, Pins.setLevel, Pins.shifted]

/-- EraseRow (43_write_erase R192). -/
theorem performAll_eraseRow (addr : Word) (s : State) :
    performAll (eraseRowOps addr) s =
      { s with
        pc := some addr
        pins := s.pins.shifted false
        txh := s.txh ++ [Reply.ok.byte]
        events := s.events ++
          (payloadWave 0x80 addr ++ commandWave 0xF0 .erase ++ [.tx Reply.ok.byte]) } := by
  simp [eraseRowOps, performAll_append, performAll_loadPc, performAll_rowErase, Op.perform,
    State.record, State.txPut]

/-- BulkErase (R194). -/
theorem performAll_bulkEraseBlock (addr : Word) (s : State) :
    performAll (bulkEraseBlockOps addr) s =
      { s with
        pc := some addr
        pins := s.pins.shifted false
        txh := s.txh ++ [Reply.ok.byte]
        events := s.events ++
          (payloadWave 0x80 addr ++ commandWave 0x18 .erase ++ [.tx Reply.ok.byte]) } := by
  simp [bulkEraseBlockOps, performAll_append, performAll_loadPc, performAll_bulkErase, Op.perform,
    State.record, State.txPut]

/-- The ICSP events of a `w` command of at least one word, and its reply (R190, R195). -/
theorem performAll_write (addr : Word) {ws : List Word} (hws : ws ≠ []) (s : State) :
    performAll (writeOps addr ws) s =
      { s with
        pc := some (addr + BitVec.ofNat 16 (ws.length - 1))
        pins := s.pins.shifted false
        txh := s.txh ++ [Reply.ok.byte]
        events := s.events ++ (payloadWave 0x80 addr ++ commandWave 0xF0 .erase ++ loadWave ws
          ++ commandWave 0xE0 .write ++ [.tx Reply.ok.byte]) } := by
  simp [writeOps, performAll_append, performAll_loadPc, performAll_rowErase,
    performAll_loadWords ws hws, performAll_beginProg, Op.perform, State.record, State.txPut]

/-! ### The events of every instruction -/

/-- Undisturbed, the instruction runs to its end: `r`, `w`, `e` and `b` are connected, and a `w` has an
accepted length and its data at hand. -/
structure Completes (i : Instr) (s : State) : Prop where
  quiet : s.Quiet
  connected : isGuarded i = true → s.mode ≠ .disconnected
  data : ∀ a n, i = .write a n →
    n ≠ 0 ∧ n.toNat ≤ s.params.wbufWords ∧ 2 * n.toNat ≤ s.rxq.length

/-- The events that an instruction adds when it completes (40_pulse_generator R130–R136, R123;
41_dispatch_and_mode R160–R166; 42_read R180; 43_write_erase R190–R194). -/
def addedEvents (s : State) : Instr → List Event
  | .enterHv =>
    [.drive .dat false, .drive .clk false, .hold .entry, .level .hven false, .hold .entry,
      .level .vdden true, .tx Reply.ok.byte]
  | .enterLvp =>
    [.drive .dat false, .drive .clk false, .hold .entry, .level2 .hven true .vdden true, .hold .lvp]
      ++ wave (bitsMsb lvpKeyValue 32) ++ [.tx Reply.ok.byte]
  | .exit => [.level .hven true, .hold .exit, .level .vdden false, .release .dat, .release .clk]
  | .read addr len => payloadWave 0x80 addr ++ readLoopWave s.answers s.draws len.toNat
  | .write addr len =>
    (s.rxq.take (2 * len.toNat)).map .rx ++ (payloadWave 0x80 addr ++ commandWave 0xF0 .erase
      ++ loadWave (wordsOfBytes (s.rxq.take (2 * len.toNat))) ++ commandWave 0xE0 .write
      ++ [.tx Reply.ok.byte])
  | .eraseRow addr => payloadWave 0x80 addr ++ commandWave 0xF0 .erase ++ [.tx Reply.ok.byte]
  | .bulkErase addr => payloadWave 0x80 addr ++ commandWave 0x18 .erase ++ [.tx Reply.ok.byte]
  | .unknown _ => [.tx Reply.unknown.byte]
  | .icspLoadPc w => payloadWave 0x80 w
  | .icspReadDataInc =>
    wave (bitsMsb (0xFE : Byte) 8) ++ [.hold .dly] ++ readWave (answersFrom s.answers s.draws 16)
  | .icspLoadDataInc w => payloadWave 0x02 w
  | .icspLoadData w => payloadWave 0x00 w
  | .icspBeginProg => commandWave 0xE0 .write
  | .icspRowErase => commandWave 0xF0 .erase
  | .icspBulkErase => commandWave 0x18 .erase
  | .lvpKey => wave (bitsMsb lvpKeyValue 32)

/-- As many words as the length of a `w` whose data bytes are at hand. -/
theorem length_wordsOfBytes_take {n : Nat} {bs : List Byte} (h : 2 * n ≤ bs.length) :
    (wordsOfBytes (bs.take (2 * n))).length = n :=
  wordsOfBytes_length n _ (List.length_take_of_le h)

/-- The `n` data bytes still missing are at hand: they are taken, `WBUF` is filled with the words `ws`, and
the event list is performed (43_write_erase R190, R195). -/
theorem writeData_quiet_complete (s : State) (addr len : Word) {n : Nat} {ws : List Word}
    (hi : s.inputs = []) (hn : s.dataMissing len = n) (hd : n ≤ s.rxq.length)
    (hws : wordsOfBytes (s.got ++ s.rxq.take n) = ws) (hne : ws ≠ []) :
    writeData addr len s =
      { s with
        ctrl := .idle
        wbuf := ws
        got := []
        rxq := s.rxq.drop n
        pc := some (addr + BitVec.ofNat 16 (ws.length - 1))
        pins := s.pins.shifted false
        txh := s.txh ++ [Reply.ok.byte]
        events := s.events ++ (s.rxq.take n).map .rx ++ (payloadWave 0x80 addr
          ++ commandWave 0xF0 .erase ++ loadWave ws ++ commandWave 0xE0 .write
          ++ [.tx Reply.ok.byte]) } := by
  rw [writeData, hn, recv_quiet_complete n s hi hd]
  simp only [State.fillWbuf, hws]
  rw [emit_quiet, performAll_write addr hne]
  · rfl
  · exact hi

theorem effect_write_events {addr len : Word} (h : Completes (.write addr len) s) :
    (effect (.write addr len) s).events = s.events ++ addedEvents s (.write addr len) := by
  obtain ⟨h0, hw, hdata⟩ := h.data addr len rfl
  have hlen := length_wordsOfBytes_take hdata
  have hne : wordsOfBytes (s.rxq.take (2 * len.toNat)) ≠ [] := fun e =>
    h0 (BitVec.eq_of_toNat_eq (hlen.symm.trans (congrArg List.length e)))
  have htake := writeData_quiet_complete
    { s.latchArgs addr len with got := [], ctrl := .busy 0x77 (.data addr len) } addr len
    h.quiet.2 rfl hdata rfl hne
  rw [effect, startWrite_accepted (h.connected rfl) h0 hw, settle_data (c := 0x77) rfl]
  exact (congrArg State.events htake).trans (List.append_assoc _ _ _)

/-- The events of an instruction that completes. -/
theorem effect_events {i : Instr} (h : Completes i s) :
    (effect i s).events = s.events ++ addedEvents s i := by
  have hi := h.quiet.2
  -- an ICSP command is its event list performed
  have icsp {c : Byte} {ops : List Op} {u : State} (hp : icspPlace i = some (c, ops))
      (hu : performAll ops s = u) : effect i s = u := by
    rw [effect_icsp hp, runOps_quiet _ _ hi, Run.state, hu]
  cases i with
  | enterHv =>
    rw [effect, startEnterHv, settle_enter_quiet _ _ _ hi, performAll_enterHv]
    rfl
  | enterLvp =>
    rw [effect, startEnterLvp, settle_enter_quiet _ _ _ hi, performAll_enterLvp]
    rfl
  | exit =>
    rw [effect, startExit, settle_enter_quiet _ _ _ hi]
    simp [exitOps, Op.perform, addedEvents]
  | read addr len =>
    rw [effect, startRead, guarded_connected _ (h.connected rfl),
      settle_enter_quiet (s.latchArgs addr len) _ _ hi, readOps, performAll_append, performAll_loadPc,
      performAll_readLoop]
    exact List.append_assoc _ _ _
  | write addr len => exact effect_write_events h
  | eraseRow addr =>
    rw [effect, startEraseRow, guarded_connected _ (h.connected rfl),
      settle_enter_quiet (s.latchAddr addr) _ _ hi, performAll_eraseRow]
    rfl
  | bulkErase addr =>
    rw [effect, startBulkErase, guarded_connected _ (h.connected rfl),
      settle_enter_quiet (s.latchAddr addr) _ _ hi, performAll_bulkEraseBlock]
    rfl
  | unknown c =>
    rw [effect, startUnknown, settle_enter_quiet _ _ _ hi]
    rfl
  | icspLoadPc w => rw [icsp rfl (performAll_loadPc w s), addedEvents]
  | icspReadDataInc =>
    rw [icsp rfl (performAll_readDataInc s), addedEvents]
    simp only [List.append_assoc]
  | icspLoadDataInc w => rw [icsp rfl (performAll_loadDataInc w s), addedEvents]
  | icspLoadData w => rw [icsp rfl (performAll_loadData w s), addedEvents]
  | icspBeginProg => rw [icsp rfl (performAll_beginProg s), addedEvents]
  | icspRowErase => rw [icsp rfl (performAll_rowErase s), addedEvents]
  | icspBulkErase => rw [icsp rfl (performAll_bulkErase s), addedEvents]
  | lvpKey => rw [icsp rfl (performAll_sendKey s), addedEvents]

/-! ### Clocks and samples (40_pulse_generator R127) -/

theorem clocks_tx (b : Byte) : clocks [.tx b] = 0 := rfl

/-- The clocks of a `w`: the address and the row erase, a payload each word, and the timed write. -/
theorem clocks_addedEvents_write {addr len : Word} (h : 2 * len.toNat ≤ s.rxq.length) :
    clocks (addedEvents s (.write addr len)) = 48 + 32 * len.toNat := by
  simp only [addedEvents, clocks_append, clocks_rx, clocks_payloadWave, clocks_commandWave,
    clocks_loadWave, clocks_tx, length_wordsOfBytes_take h]
  omega

theorem clocks_readDataInc (s : State) : clocks (addedEvents s .icspReadDataInc) = 32 := by
  simp only [addedEvents, clocks_append, clocks_wave, clocks_readWave, bitsMsb_length,
    answersFrom_length]
  rfl

theorem samples_readDataInc (s : State) : samples (addedEvents s .icspReadDataInc) = 16 := by
  simp only [addedEvents, samples_append, samples_wave, samples_readWave, answersFrom_length]
  rfl

/-- Settles O49: the clocks of the waveforms that the events of each instruction are made of. -/
theorem clockTotals : Obligations.ClockTotals := by
  intro s t i es hq hm hw he hes
  have hc : Completes i s := ⟨hq, hm, hw⟩
  obtain ⟨-, rfl⟩ := exec_next he
  obtain rfl : addedEvents s i = es := List.append_cancel_left ((effect_events hc).symm.trans hes)
  refine ⟨?samples, ?clocks⟩
  case samples =>
    rintro rfl
    exact samples_readDataInc s
  case clocks =>
    cases i with
    | enterHv | exit | unknown => rfl
    | enterLvp =>
      simp only [addedEvents, clocks_append, clocks_wave, bitsMsb_length]
      rfl
    | read addr len =>
      simp only [addedEvents, clocks_append, clocks_payloadWave, clocks_readLoopWave]
    | write addr len => exact clocks_addedEvents_write (hw addr len rfl).2.2
    | eraseRow addr | bulkErase addr =>
      simp only [addedEvents, clocks_append, clocks_payloadWave, clocks_commandWave, clocks_tx]
    | icspLoadPc w | icspLoadDataInc w | icspLoadData w => exact clocks_payloadWave _ w
    | icspReadDataInc => exact clocks_readDataInc s
    | icspBeginProg | icspRowErase | icspBulkErase => exact clocks_commandWave _ _
    | lvpKey => exact (clocks_wave _).trans (bitsMsb_length _ _)

end Sys2Proof.Machine

/-!
PROOFS for the statements of 40_pulse_generator. The invariant of a step: the buffers fit, the lines are
driven in a programming mode, and a handler that waits is consistent.
-/

namespace Sys2Proof.Machine

variable {s t : State} {c : Byte}

/-! ### The receive queue fits (10_state R42) -/

theorem kept_rxFits : Kept (fun s => s.rxq.length ≤ s.params.rxCap) where
  op op s h := by
    cases op with
    | discardRx =>
      simp only [Op.perform]
      split
      · exact Nat.zero_le _
      · exact h
    | _ => exact h
  script _ _ h := h
  hostByte s b h := by
    rcases Nat.lt_or_ge s.rxq.length s.params.rxCap with hc | hc
    · rw [State.hostByte_room b hc]
      simpa using hc
    · rw [State.hostByte_full b hc]
      exact h
  reset _ _ := Nat.zero_le _
  refuse _ _ h := h
  rx s b q hq h := by
    rw [hq] at h
    exact Nat.le_of_succ_le h
  lapse _ h := h
  control _ _ _ _ _ _ h := h

/-! ### What holds between two handlers, and in the reception of a field -/

/-- `WBUF` fits, and the lines are driven in a programming mode (10_state R40, 40_pulse_generator R119). -/
def State.Poised (s : State) : Prop :=
  s.wbuf.length ≤ s.params.wbufWords ∧ (s.mode ≠ .disconnected → s.pins.Driven)

/-- The invariant without the receive queue. -/
structure State.Stands (s : State) : Prop where
  wbufFits : s.wbuf.length ≤ s.params.wbufWords
  driven : s.ctrl.BeforeEvents → s.mode ≠ .disconnected → s.pins.Driven
  field : s.FieldOk

theorem State.Inv.stands (h : s.Inv) : s.Stands := ⟨h.wbufFits, h.driven, h.field⟩

theorem State.Stands.poised (h : s.Stands) (hc : s.ctrl.BeforeEvents) : s.Poised :=
  ⟨h.wbufFits, h.driven hc⟩

theorem State.Poised.stands (h : s.Poised) (hf : s.FieldOk) : s.Stands := ⟨h.1, fun _ => h.2, hf⟩

theorem fieldOk_idle (h : s.ctrl = .idle) : s.FieldOk := by
  simp [State.FieldOk, h]

theorem fieldOk_args (h : s.ctrl = .busy c .args) :
    s.FieldOk ↔ s.got.length < (Command.ofByte c).argBytes ∧ s.mode ≠ .disconnected := by
  simp [State.FieldOk, h]

theorem fieldOk_data {addr len : Word} (h : s.ctrl = .busy c (.data addr len)) :
    s.FieldOk ↔ c = 0x77 ∧ len ≠ 0 ∧ len.toNat ≤ s.params.wbufWords ∧ s.got.length < 2 * len.toNat
      ∧ s.argAddr = some addr ∧ s.argLen = some len ∧ s.mode ≠ .disconnected := by
  simp [State.FieldOk, h]

theorem fieldOk_events {ops : List Op} (h : s.ctrl = .busy c (.events ops)) :
    s.FieldOk ↔ s.refused = some .rxOverflow := by
  simp [State.FieldOk, h]

/-- An idle machine asks no more of a field. -/
theorem State.Poised.stands_idle (h : s.Poised) (hc : s.ctrl = .idle) : s.Stands :=
  h.stands (fieldOk_idle hc)

/-- A reset leaves the invariant whatever it abandons (60_exceptions R230). -/
theorem deviceReset_stands (s : State) : s.deviceReset.Stands :=
  State.Poised.stands_idle ⟨Nat.zero_le _, fun hm => absurd rfl hm⟩ rfl

/-- An overflow part way through an event list leaves the handler in its place (10_state R42). -/
theorem left_overflow_stands {p : Place} (ops : List Op) (hw : s.wbuf.length ≤ s.params.wbufWords)
    (hc : s.ctrl = .busy c p) : ((s.mark .rxOverflow).left ops).Stands := by
  have hleft : ((s.mark .rxOverflow).left ops).ctrl = .busy c (.events ops) := by
    rw [State.left_ctrl, State.mark_ctrl, hc]
    rfl
  refine ⟨hw, fun hb => ?_, (fieldOk_events hleft).mpr rfl⟩
  rw [hleft] at hb
  exact hb.elim

/-! ### Event lists that leave the lines driven -/

/-- Performed whole, the moves leave a state that is poised, when they start from one that is. -/
def KeepsPoised (ops : List Op) : Prop := ∀ s : State, s.Poised → (performAll ops s).Poised

theorem KeepsPoised.append {a b : List Op} (ha : KeepsPoised a) (hb : KeepsPoised b) :
    KeepsPoised (a ++ b) := fun s h => by
  rw [performAll_append]
  exact hb _ (ha s h)

theorem keepsPoised_txPut (b : Byte) : KeepsPoised [.txPut b] := fun _ h => h

/-- A field clocked out leaves the lines driven and the clock low (R115), whatever is said of `PC` and the
events. -/
theorem KeepsPoised.of_shifted {ops : List Op}
    (h : ∀ s, ∃ pc es, performAll ops s =
      { s with pc := pc, pins := s.pins.shifted false, events := es }) : KeepsPoised ops := by
  intro s hs
  obtain ⟨pc, es, e⟩ := h s
  rw [e]
  refine ⟨hs.1, fun hm => ?_⟩
  obtain ⟨hdat, hclk, -⟩ := hs.2 hm
  exact ⟨hdat, hclk, rfl⟩

theorem keepsPoised_loadPc (w : Word) : KeepsPoised (loadPcOps w) :=
  .of_shifted fun s => ⟨_, _, performAll_loadPc w s⟩

theorem keepsPoised_rowErase : KeepsPoised rowEraseOps :=
  .of_shifted fun s => ⟨_, _, performAll_rowErase s⟩

theorem keepsPoised_bulkErase : KeepsPoised bulkEraseOps :=
  .of_shifted fun s => ⟨_, _, performAll_bulkErase s⟩

theorem keepsPoised_beginProg : KeepsPoised beginProgOps :=
  .of_shifted fun s => ⟨_, _, performAll_beginProg s⟩

theorem keepsPoised_loadWords (ws : List Word) : KeepsPoised (loadWords ws) := by
  cases ws with
  | nil => exact fun _ h => h
  | cons w ws => exact .of_shifted fun s => ⟨_, _, performAll_loadWords _ (List.cons_ne_nil w ws) s⟩

/-- Each word of a read drives `DAT` again after it has been released for the input (42_read R180). -/
theorem keepsPoised_readLoop (n : Nat) : KeepsPoised (readLoop n) := by
  intro s hs
  rw [performAll_readLoop]
  refine ⟨hs.1, fun hm => ?_⟩
  obtain ⟨hdat, hclk, hlow⟩ := hs.2 hm
  dsimp only
  split
  · exact ⟨hdat, hclk, hlow⟩
  · exact ⟨rfl, hclk, rfl⟩

/-- `s` drives both lines before it connects (41_dispatch_and_mode R160). -/
theorem keepsPoised_enterHv : KeepsPoised enterHvOps := by
  intro s h
  rw [performAll_enterHv]
  exact ⟨h.1, fun _ => ⟨rfl, rfl, rfl⟩⟩

/-- `l` drives both lines before the key, which leaves them driven (R162). -/
theorem keepsPoised_enterLvp : KeepsPoised enterLvpOps := by
  intro s h
  rw [performAll_enterLvp]
  exact ⟨h.1, fun _ => ⟨rfl, rfl, rfl⟩⟩

/-- `x` disconnects, so that nothing is asked of the lines (R164). -/
theorem keepsPoised_exit : KeepsPoised exitOps :=
  fun _ _ => ⟨Nat.zero_le _, fun hm => absurd rfl hm⟩

theorem keepsPoised_write (addr : Word) (ws : List Word) : KeepsPoised (writeOps addr ws) :=
  ((((keepsPoised_loadPc addr).append keepsPoised_rowErase).append (keepsPoised_loadWords ws)).append
    keepsPoised_beginProg).append (keepsPoised_txPut _)

/-! ### Handlers -/

/-- A move leaves `WBUF` or empties it. -/
theorem perform_wbufFits (op : Op) (s : State) (h : s.wbuf.length ≤ s.params.wbufWords) :
    (op.perform s).wbuf.length ≤ (op.perform s).params.wbufWords := by
  cases op with
  | clearOperands => exact Nat.zero_le _
  | _ => exact h

theorem performAll_wbufFits (ops : List Op) (s : State) (h : s.wbuf.length ≤ s.params.wbufWords) :
    (performAll ops s).wbuf.length ≤ (performAll ops s).params.wbufWords := by
  induction ops generalizing s with
  | nil => exact h
  | cons op ops ih => exact ih _ (perform_wbufFits op s h)

/-- A handler's event list, whatever the script: performed whole it leaves the machine idle and poised,
cut short by a reset it leaves the reset state, and by an overflow it keeps its place. -/
theorem emit_stands {p : Place} {ops : List Op} (hops : KeepsPoised ops) (hc : s.ctrl = .busy c p)
    (h : s.Poised) : (emit ops s).Stands := by
  have hr := runOps_ran ops s
  rw [emit]
  generalize runOps ops s = o at hr
  cases hr with
  | done x q => exact State.Poised.stands_idle (hops s h) rfl
  | overflow as bs x q =>
    exact left_overflow_stands (s := s.moved as x q) bs (performAll_wbufFits as s h.1)
      ((performAll_ctrl as s).trans hc)
  | reset u => exact deviceReset_stands u

theorem abortWith_stands {p : Place} (r : Reply) (hc : s.ctrl = .busy c p) (h : s.Poised) :
    (abortWith r s).Stands := emit_stands (keepsPoised_txPut _) hc h

/-- Data reception of a `w`: the words assembled are as many as the length accepted, and until then the
field stays as it was entered (43_write_erase R190). -/
theorem writeData_stands {addr len : Word} (hc : s.ctrl = .busy c (.data addr len)) (h : s.Stands) :
    (writeData addr len s).Stands := by
  have hp : s.Poised := h.poised (by simp [hc, Ctrl.BeforeEvents])
  obtain ⟨hw, hlen, hfits, hgot, haddr, hargs, hm⟩ := (fieldOk_data hc).mp h.field
  have hr := recv_received (s.dataMissing len) s
  have missing {t : State} {bs : List Byte} (ht : t.ctrl = s.ctrl) (hg : t.got = s.got ++ bs)
      (hn : bs.length < s.dataMissing len) (hkeep : t.params = s.params ∧ t.argAddr = s.argAddr
        ∧ t.argLen = s.argLen ∧ t.mode = s.mode) : t.FieldOk := by
    obtain ⟨h1, h2, h3, h4⟩ := hkeep
    rw [fieldOk_data (ht.trans hc), h1, h2, h3, h4, hg]
    refine ⟨hw, hlen, hfits, ?_, haddr, hargs, hm⟩
    simp only [State.dataMissing, List.length_append] at hn ⊢
    omega
  unfold writeData
  generalize recv (s.dataMissing len) s = o at hr
  cases hr with
  | complete bs x q _ hn _ =>
    have hall : (s.got ++ bs).length = 2 * len.toNat := by
      simp only [State.dataMissing, List.length_append] at hn ⊢
      omega
    have hwords : (wordsOfBytes (s.got ++ bs)).length = len.toNat := wordsOfBytes_length _ _ hall
    exact emit_stands (keepsPoised_write addr _) (s := (s.taken bs x q).fillWbuf) hc
      ⟨hwords.trans_le hfits, hp.2⟩
  | timeout => exact abortWith_stands _ hc hp
  | waiting bs hn => exact State.Poised.stands hp (missing rfl rfl hn ⟨rfl, rfl, rfl, rfl⟩)
  | overflow bs x q hn => exact State.Poised.stands hp (missing rfl rfl hn ⟨rfl, rfl, rfl, rfl⟩)
  | reset => exact deviceReset_stands _

/-! ### Instructions -/

theorem settle_enter_stands {ops : List Op} (hops : KeepsPoised ops) (h : s.Poised) :
    (settle (s.enter c ops)).Stands := by
  rw [settle_enter]
  exact emit_stands hops (s.enter_ctrl c ops) h

/-- A refusal leaves an idle machine (10_state R34). -/
theorem settle_refuse_stands (r : Reason) (h : s.Poised) : (settle (s.refuse r)).Stands := by
  rw [settle_idle (s.refuse_ctrl r)]
  exact State.Poised.stands_idle h rfl

theorem settle_guarded_stands {f : State → State} (h : s.Poised)
    (hf : s.mode ≠ .disconnected → (settle (f s)).Stands) : (settle (guarded s f)).Stands := by
  by_cases hm : s.mode = .disconnected
  · rw [guarded_disconnected f hm]
    exact settle_refuse_stands _ h
  · rw [guarded_connected f hm]
    exact hf hm

theorem settle_startWrite_stands (addr len : Word) (h : s.Poised) :
    (settle (startWrite addr len s)).Stands := by
  refine settle_guarded_stands h fun hm => ?_
  dsimp only
  split
  · exact settle_refuse_stands (s := s.latchArgs addr len) _ h
  · rename_i h0
    split
    · exact settle_refuse_stands (s := s.latchArgs addr len) _ h
    · rename_i hw
      have hlen : len.toNat ≠ 0 := fun h => h0 (BitVec.eq_of_toNat_eq h)
      rw [settle_data (c := 0x77) rfl]
      refine writeData_stands (c := 0x77) rfl (State.Poised.stands h ?_)
      exact (fieldOk_data (c := 0x77) rfl).mpr
        ⟨rfl, h0, Nat.not_lt.mp hw, Nat.mul_pos two_pos (Nat.pos_of_ne_zero hlen), rfl, rfl, hm⟩

/-- A wire command, entered and carried on. -/
theorem settle_start_stands {i : Instr} (hi : i.isWire = true) (h : s.Poised) :
    (settle (start i s)).Stands := by
  cases i with
  | enterHv => exact settle_enter_stands keepsPoised_enterHv h
  | enterLvp => exact settle_enter_stands keepsPoised_enterLvp h
  | exit => exact settle_enter_stands keepsPoised_exit h
  | read addr len =>
    exact settle_guarded_stands h fun _ => settle_enter_stands (s := s.latchArgs addr len)
      ((keepsPoised_loadPc addr).append (keepsPoised_readLoop _)) h
  | write addr len => exact settle_startWrite_stands addr len h
  | eraseRow addr =>
    exact settle_guarded_stands h fun _ => settle_enter_stands (s := s.latchAddr addr)
      (((keepsPoised_loadPc addr).append keepsPoised_rowErase).append (keepsPoised_txPut _)) h
  | bulkErase addr =>
    exact settle_guarded_stands h fun _ => settle_enter_stands (s := s.latchAddr addr)
      (((keepsPoised_loadPc addr).append keepsPoised_bulkErase).append (keepsPoised_txPut _)) h
  | unknown c => exact settle_enter_stands (keepsPoised_txPut _) h
  | icspLoadPc | icspReadDataInc | icspLoadDataInc | icspLoadData | icspBeginProg | icspRowErase
  | icspBulkErase | lvpKey => cases hi

/-! ### Steps -/

/-- Argument reception: a command whose argument bytes are still missing has passed the mode guard, and
keeps waiting, or its handler is entered (R152, R153). -/
theorem runFrame_stands (hc : s.ctrl = .busy c .args) (h : s.Poised)
    (hm : s.argsMissing c ≠ 0 → s.mode ≠ .disconnected) : (runFrame c s).Stands := by
  have hr := recv_received (s.argsMissing c) s
  have missing {t : State} {bs : List Byte} (ht : t.ctrl = s.ctrl) (hg : t.got = s.got ++ bs)
      (hn : bs.length < s.argsMissing c) (hmode : t.mode = s.mode) : t.FieldOk := by
    rw [fieldOk_args (ht.trans hc), hmode, hg]
    refine ⟨?_, hm (Nat.ne_zero_of_lt hn)⟩
    simp only [State.argsMissing, List.length_append] at hn ⊢
    omega
  unfold runFrame
  generalize recv (s.argsMissing c) s = o at hr
  cases hr with
  | complete bs x q _ hn _ =>
    have hlen : (Command.ofByte c).argBytes ≤ (s.taken bs x q).got.length := by
      simp only [State.argsMissing, State.taken, List.length_append] at hn ⊢
      omega
    obtain ⟨i, rest, hd⟩ := decodeFrame_complete hlen
    have hi := decodeFrame_isWire hd
    simp only [hd]
    rw [effect_wire hi]
    exact settle_start_stands hi h
  | timeout => exact abortWith_stands _ hc h
  | waiting bs hn => exact State.Poised.stands h (missing rfl rfl hn rfl)
  | overflow bs x q hn => exact State.Poised.stands h (missing rfl rfl hn rfl)
  | reset => exact deviceReset_stands _

/-- The commands that the mode guard does not ask about have no argument bytes (30_encoding R83, R153). -/
theorem argBytes_of_unguarded {k : Command} (h : needsConnection k = false) : k.argBytes = 0 := by
  cases k with
  | s | l | x | unknown => rfl
  | r | w | e | b => cases h

/-- The dispatcher leaves the machine idle, or the command it opens is connected where it takes
arguments. -/
theorem takeCommand_stands (hc : s.ctrl = .idle) (h : s.Poised) :
    (s.takeCommand.ctrl = .idle ∧ s.takeCommand.Stands) ∨
      ∃ c, s.takeCommand.ctrl = .busy c .args ∧ (runFrame c s.takeCommand).Stands := by
  cases hq : s.rxq with
  | nil =>
    have e : s.takeCommand = s := by simp [State.takeCommand, hq]
    rw [e]
    exact .inl ⟨hc, h.stands_idle hc⟩
  | cons c x =>
    have opened (hm : (s.opened c x).argsMissing c ≠ 0 → s.mode ≠ .disconnected) :
        (runFrame c (s.opened c x)).Stands := runFrame_stands rfl h hm
    rw [State.takeCommand_cons hq]
    split
    · by_cases hm : s.mode = .disconnected
      · rw [guarded_disconnected (s := s.opened c x) id hm]
        exact .inl ⟨rfl, State.Poised.stands_idle h rfl⟩
      · rw [guarded_connected (s := s.opened c x) id hm]
        exact .inr ⟨c, rfl, opened fun _ => hm⟩
    · rename_i hn
      refine .inr ⟨c, rfl, opened fun hargs => absurd ?_ hargs⟩
      rw [State.argsMissing, argBytes_of_unguarded (Bool.eq_false_of_not_eq_true hn), Nat.zero_sub]

theorem stepEffect_stands (hr : s.refused = none) (h : s.Stands) : (stepEffect s).Stands := by
  unfold stepEffect
  cases hc : s.ctrl with
  | idle =>
    have hp : s.Poised := h.poised (by simp [hc, Ctrl.BeforeEvents])
    have ht := attend_turned .command s.inputs s
    generalize attend .command s.inputs s = o at ht
    cases ht with
    | go r q =>
      rcases takeCommand_stands (s := s.arrive r q) hc hp with ⟨hu, hs⟩ | ⟨c, hu, hs⟩
      · simpa only [hu] using hs
      · simpa only [hu] using hs
    | timeout | blocked | overflow => exact State.Poised.stands_idle hp hc
    | reset => exact deviceReset_stands _
  | busy c p =>
    cases p with
    | args =>
      have hp : s.Poised := h.poised (by simp [hc, Ctrl.BeforeEvents])
      exact runFrame_stands hc hp fun _ => ((fieldOk_args hc).mp h.field).2
    | data addr len =>
      dsimp only
      rw [settle_data hc]
      exact writeData_stands hc h
    | events ops =>
      have hmark := (fieldOk_events hc).mp h.field
      rw [hr] at hmark
      cases hmark

/-- Settles O42: the queue fits by every elementary change, the rest by the place a handler has come to. -/
theorem stepKeepsInvariant : Obligations.StepKeepsInvariant := by
  intro s t h hs
  have hrx := kept_rxFits.step hs h.rxFits
  obtain ⟨hr, rfl⟩ := step_next hs
  have hstands := stepEffect_stands hr h.stands
  exact ⟨hrx, hstands.wbufFits, hstands.driven, hstands.field⟩

end Sys2Proof.Machine

/-!
PROOFS for the statements of 41_dispatch_and_mode. A step is a run of single moves: each turn of the
outside, field and event list of a step is followed move by move.
-/

namespace Sys2Proof.Machine

variable {s t u : State} {c : Byte}

/-! ### Runs of moves -/

/-- Some number of moves leads from `s` to `t`. -/
def Reaches (s t : State) : Prop := ∃ n, eventSteps n s = t

theorem Reaches.refl (s : State) : Reaches s s := ⟨0, rfl⟩

theorem eventSteps_marked {r : Reason} (h : s.refused = some r) (n : Nat) : eventSteps n s = s := by
  cases n with
  | zero => rfl
  | succ n => simp [eventSteps, h]

theorem eventSteps_add (m n : Nat) (s : State) :
    eventSteps (m + n) s = eventSteps n (eventSteps m s) := by
  induction m generalizing s with
  | zero => simp [eventSteps]
  | succ m ih =>
    cases hr : s.refused with
    | some r => simp only [eventSteps_marked hr]
    | none => simp [Nat.succ_add, eventSteps, hr, ih]

theorem Reaches.trans : Reaches s t → Reaches t u → Reaches s u := by
  rintro ⟨m, rfl⟩ ⟨n, rfl⟩
  exact ⟨m + n, eventSteps_add m n s⟩

/-- A run of an unmarked machine begins with a move. -/
theorem Reaches.of_move (hr : s.refused = none) (h : Reaches (move s) t) : Reaches s t := by
  obtain ⟨n, rfl⟩ := h
  exact ⟨n + 1, by simp [eventSteps, hr]⟩

/-! ### Turns of the outside -/

/-- The state after a turn and the move it leads to: the sequencer's event, or the lapse of the
window; a turn that waits or ends leads to none. -/
def Turn.resume : Turn → State
  | .go s => advance s
  | .timeout s => lapseField s
  | .blocked s => s
  | .ended s => s

/-- A turn before the event that the sequencer is about to perform, and the event, move by move. -/
theorem attend_reaches {need : Need} (q : List Stimulus) (s : State) (hr : s.refused = none)
    (hn : s.need = need) : Reaches { s with inputs := q } (attend need q s).resume := by
  subst hn
  induction q generalizing s with
  | nil =>
    have hmove : move { s with inputs := [] } =
        if s.ready s.need then advance { s with inputs := [] } else { s with inputs := [] } := rfl
    simp only [attend]
    split
    · rename_i hready
      refine .of_move hr ?_
      rw [hmove, if_pos hready]
      exact .refl _
    · exact .refl _
  | cons st q ih =>
    refine .of_move hr ?_
    cases st with
    | run =>
      have hmove : move { s with inputs := .run :: q } =
          if s.ready s.need then advance { s with inputs := q } else { s with inputs := q } := rfl
      rw [hmove, attend]
      split
      · exact .refl _
      · exact ih s hr
    | rxTimeout =>
      have hmove : move { s with inputs := .rxTimeout :: q } =
          if s.mayTimeOut s.need then lapseField { s with inputs := q }
          else { s with inputs := q } := rfl
      rw [hmove, attend]
      split
      · exact .refl _
      · exact ih s hr
    | hostByte b =>
      have hmove : move { s with inputs := .hostByte b :: q } = { s with inputs := q }.hostByte b :=
        rfl
      rw [hmove, attend]
      split
      · rename_i hroom
        rw [State.hostByte_room b hroom, State.hostByte_room (s := { s with inputs := q }) b hroom]
        exact ih { s with rxq := s.rxq ++ [b] } hr
      · exact .refl _
    | deviceReset => exact .refl _

/-- `attend_reaches` for the script the machine holds. -/
theorem attend_inputs_reaches {need : Need} (hr : s.refused = none) (hn : s.need = need) :
    Reaches s (attend need s.inputs s).resume :=
  attend_reaches s.inputs s hr hn

/-! ### What is left of a handler makes no difference to a run over its event list -/

/-- The turn with the moves `ops` left of the handler that is under way. -/
def Turn.left (ops : List Op) : Turn → Turn
  | .go s => .go (s.left ops)
  | .timeout s => .timeout (s.left ops)
  | .blocked s => .blocked (s.left ops)
  | .ended s => .ended (s.left ops)

theorem hostByte_left (s : State) (ops : List Op) (b : Byte) :
    (s.left ops).hostByte b = (s.hostByte b).left ops := by
  rcases Nat.lt_or_ge s.rxq.length s.params.rxCap with h | h
  · rw [State.hostByte_room b h, State.hostByte_room (s := s.left ops) b h]
    rfl
  · rw [State.hostByte_full b h, State.hostByte_full (s := s.left ops) b h]
    rfl

theorem attend_left (need : Need) (q : List Stimulus) (s : State) (ops : List Op) :
    attend need q (s.left ops) = (attend need q s).left ops := by
  have hready (s : State) : (s.left ops).ready need = s.ready need := rfl
  have hmay (s : State) : (s.left ops).mayTimeOut need = s.mayTimeOut need := rfl
  induction q generalizing s with
  | nil =>
    simp only [attend, hready]
    split <;> rfl
  | cons st q ih =>
    cases st with
    | run =>
      simp only [attend, hready]
      split
      · rfl
      · exact ih s
    | rxTimeout =>
      simp only [attend, hmay]
      split
      · rfl
      · exact ih s
    | hostByte b =>
      have hturn : attend need (.hostByte b :: q) (s.left ops) =
          if s.rxq.length < s.params.rxCap then attend need q ((s.left ops).hostByte b)
          else .ended (({ s with inputs := q }.left ops).hostByte b) := rfl
      rw [hturn, hostByte_left, hostByte_left, attend]
      split
      · exact ih (s.hostByte b)
      · rfl
    | deviceReset => rfl

theorem State.left_left (s : State) (as bs : List Op) : (s.left as).left bs = s.left bs := by
  unfold State.left Ctrl.left
  cases s.ctrl <;> rfl

theorem perform_left (op : Op) (s : State) (ops : List Op) :
    op.perform (s.left ops) = (op.perform s).left ops := by
  cases op <;> rfl

/-- Whatever was left of the handler before, a run over an event list ends in the same state. -/
theorem emit_left (ops as : List Op) (s : State) : emit ops (s.left as) = emit ops s := by
  induction ops generalizing s with
  | nil => rfl
  | cons op ops ih =>
    simp only [emit, runOps, State.left_inputs, attend_left]
    cases attend .nothing s.inputs s with
    | go u =>
      have h := ih (op.perform u)
      rw [← perform_left] at h
      exact h
    | timeout u | blocked u | ended u => exact u.left_left as (op :: ops)

/-- A handler under way, with the moves `ops` left of it. -/
theorem State.left_busy {p : Place} (h : s.ctrl = .busy c p) (ops : List Op) :
    s.left ops = s.enter c ops := by
  simp [State.left, Ctrl.left, State.enter, h]

theorem emit_enter {p : Place} (h : s.ctrl = .busy c p) (ops as : List Op) :
    emit ops (s.enter c as) = emit ops s := by
  rw [← State.left_busy h, emit_left]

theorem enter_self {ops : List Op} (h : s.ctrl = .busy c (.events ops)) : s.enter c ops = s := by
  unfold State.enter
  rw [← h]

/-! ### Event lists -/

theorem need_events {ops : List Op} (h : s.ctrl = .busy c (.events ops)) : s.need = .nothing := by
  simp [State.need, h]

theorem advance_events {op : Op} {ops : List Op} (h : s.ctrl = .busy c (.events (op :: ops))) :
    advance s = afterEvent c ops (op.perform s) := by
  simp [advance, h]

/-- The events left of a handler, move by move (41_dispatch_and_mode R155). -/
theorem emit_reaches {ops : List Op} (hops : ops ≠ []) (hr : s.refused = none)
    (hc : s.ctrl = .busy c (.events ops)) : Reaches s (emit ops s) := by
  induction ops generalizing s with
  | nil => exact absurd rfl hops
  | cons op ops ih =>
    have ha := attend_inputs_reaches hr (need_events hc)
    have ht := attend_turned .nothing s.inputs s
    have left {v : State} (hv : v.ctrl = s.ctrl) : v.left (op :: ops) = v := by
      rw [State.left_busy (hv.trans hc), enter_self (hv.trans hc)]
    rw [emit, runOps]
    generalize attend .nothing s.inputs s = o at ha ht
    cases ht with
    | go r q =>
      have hu : (op.perform (s.arrive r q)).ctrl = .busy c (.events (op :: ops)) :=
        (op.perform_ctrl _).trans hc
      rw [Turn.resume, advance_events (s := s.arrive r q) hc] at ha
      cases ops with
      | nil => exact ha
      | cons op' ops =>
        have hnext := ih (s := (op.perform (s.arrive r q)).enter c (op' :: ops))
          (List.cons_ne_nil _ _) ((op.perform_refused _).trans hr) rfl
        rw [emit_enter hu] at hnext
        exact ha.trans hnext
    | timeout r q _ _ _ hneed => cases hneed
    | blocked r _ hneed => exact absurd rfl hneed
    | overflow r q =>
      dsimp only [Run.finish]
      rw [left (v := (s.arrive r q).mark .rxOverflow) rfl]
      exact ha
    | reset r q => exact ha

/-- A list entered in a handler under way, move by move. -/
theorem enter_reaches {p : Place} {ops : List Op} (hops : ops ≠ []) (hr : s.refused = none)
    (hc : s.ctrl = .busy c p) : Reaches (s.enter c ops) (emit ops s) := by
  rw [← emit_enter hc ops ops]
  exact emit_reaches hops hr (s.enter_ctrl c ops)

/-! ### Fields -/

/-- How many bytes of the field of a handler in the place `p` are still missing. -/
def State.missing (s : State) (c : Byte) : Place → Nat
  | .args => s.argsMissing c
  | .data _ len => s.dataMissing len
  | .events _ => 0

/-- What the move that takes a byte of the field comes to. -/
def afterByte (c : Byte) (p : Place) (s : State) : State :=
  match p with
  | .args => afterArgs c s
  | .data addr len => afterData c addr len s
  | .events _ => s

/-- The reply to a timeout in the field (60_exceptions R222). -/
def timeoutReply : Place → Reply
  | .args => .argTimeout
  | .data _ _ => .dataTimeout
  | .events _ => .unknown

/-- The state after a field and what belongs to its last move. -/
def Recv.resume (c : Byte) (p : Place) : Recv → State
  | .complete s => afterByte c p s
  | .timeout s => s.enter c [.txPut (timeoutReply p).byte]
  | .waiting s => s
  | .ended s => s

section

variable {p : Place} (hc : s.ctrl = .busy c p) (hm : s.missing c p ≠ 0)

include hm in
/-- While bytes are missing the handler stays in its field. -/
theorem afterByte_missing : afterByte c p s = s := by
  cases p with
  | args | data => exact if_neg hm
  | events => exact absurd rfl hm

include hc hm

theorem need_missing : s.need = .field := by
  cases p with
  | args | data =>
    simp only [State.need, hc]
    exact if_neg hm
  | events => exact absurd rfl hm

theorem advance_missing : advance s = afterByte c p s.takeByte := by
  cases p with
  | args | data =>
    simp only [advance, hc]
    exact if_neg hm
  | events => exact absurd rfl hm

theorem lapseField_missing :
    lapseField s = s.lapse.enter c [.txPut (timeoutReply p).byte] := by
  cases p with
  | args | data => simp only [lapseField, hc, timeoutReply]
  | events => exact absurd rfl hm

end

theorem takeByte_missing (c : Byte) (p : Place) (h : s.rxq ≠ []) :
    s.takeByte.missing c p = s.missing c p - 1 := by
  obtain ⟨b, x, hx⟩ := List.exists_cons_of_ne_nil h
  have hgot : s.takeByte.got.length = s.got.length + 1 := by simp [State.takeByte, hx]
  cases p with
  | args =>
    simp only [State.missing, State.argsMissing, hgot]
    omega
  | data addr len =>
    simp only [State.missing, State.dataMissing, hgot]
    omega
  | events ops => rfl

theorem takeByte_refused (s : State) : s.takeByte.refused = s.refused := by
  unfold State.takeByte
  split <;> rfl

/-- The bytes that are missing of a field, taken move by move (41_dispatch_and_mode R151). -/
theorem recv_reaches {p : Place} (n : Nat) (hn : s.missing c p = n) (hr : s.refused = none)
    (hc : s.ctrl = .busy c p) : Reaches (afterByte c p s) ((recv n s).resume c p) := by
  induction n generalizing s with
  | zero => exact .refl _
  | succ n ih =>
    have hm : s.missing c p ≠ 0 := by omega
    have ha := attend_inputs_reaches hr (need_missing hc hm)
    have ht := attend_turned .field s.inputs s
    rw [afterByte_missing hm, recv]
    generalize attend .field s.inputs s = o at ha ht
    cases ht with
    | go r q _ _ hready =>
      have hx : (s.arrive r q).rxq ≠ [] := fun hx => by simp [State.ready, hx] at hready
      have hn' : (s.arrive r q).takeByte.missing c p = n := by
        rw [takeByte_missing c p hx]
        exact Nat.sub_eq_of_eq_add hn
      rw [Turn.resume, advance_missing (s := s.arrive r q) hc hm] at ha
      exact ha.trans (ih hn' ((takeByte_refused _).trans hr) ((takeByte_ctrl _).trans hc))
    | timeout r q =>
      rw [Turn.resume, lapseField_missing (s := s.arrive r q) hc hm] at ha
      exact ha
    | blocked | overflow | reset => exact ha

/-! ### Handlers -/

/-- Data reception of a `w`, from its next missing byte on (43_write_erase R190). -/
theorem writeData_reaches {addr len : Word} (hm : s.dataMissing len ≠ 0) (hr : s.refused = none)
    (hc : s.ctrl = .busy c (.data addr len)) : Reaches s (writeData addr len s) := by
  have hrecv := recv_reaches (p := .data addr len) _ rfl hr hc
  have hcases := recv_received (s.dataMissing len) s
  rw [afterByte_missing (p := .data addr len) hm, State.missing] at hrecv
  unfold writeData
  generalize recv (s.dataMissing len) s = o at hrecv hcases
  cases hcases with
  | complete bs x q _ hn =>
    have hall : (s.taken bs x q).dataMissing len = 0 := by
      simp only [State.dataMissing, State.taken, List.length_append] at hn ⊢
      omega
    have hafter : afterByte c (.data addr len) (s.taken bs x q) =
        (s.taken bs x q).fillWbuf.enter c (writeOps addr (s.taken bs x q).fillWbuf.wbuf) :=
      if_pos hall
    rw [Recv.resume, hafter] at hrecv
    exact hrecv.trans (enter_reaches (s := (s.taken bs x q).fillWbuf) (writeOps_ne_nil addr _) hr hc)
  | timeout bs q =>
    exact hrecv.trans (enter_reaches (s := (s.taken bs [] q).lapse) (List.cons_ne_nil _ _) hr hc)
  | waiting | overflow | reset => exact hrecv

/-- A handler under way, from where it stands to its end or to where it waits. -/
theorem settle_reaches (h : s.PlaceOk) (hr : s.refused = none ∨ s.ctrl = .idle) :
    Reaches s (settle s) := by
  rcases hr with hr | hi
  · cases hc : s.ctrl with
    | idle =>
      rw [settle_idle hc]
      exact .refl s
    | busy c p =>
      cases p with
      | args =>
        rw [settle, hc]
        exact .refl s
      | data addr len =>
        rw [settle_data hc]
        exact writeData_reaches ((placeOk_data hc).mp h) hr hc
      | events ops =>
        rw [settle_events hc]
        exact emit_reaches ((placeOk_events hc).mp h) hr hc
  · rw [settle_idle hi]
    exact .refl s

/-- Entering a handler refuses the command, which is then over, or raises no mark. -/
theorem start_refused_or_idle (i : Instr) (s : State) :
    (start i s).refused = s.refused ∨ (start i s).ctrl = .idle := by
  have ofGuarded {f : State → State} (hf : (f s).refused = s.refused ∨ (f s).ctrl = .idle) :
      (guarded s f).refused = s.refused ∨ (guarded s f).ctrl = .idle := by
    by_cases hm : s.mode = .disconnected
    · exact .inr (by rw [guarded_disconnected f hm]; rfl)
    · rwa [guarded_connected f hm]
  cases i with
  | read | eraseRow | bulkErase => exact ofGuarded (.inl rfl)
  | write addr len =>
    refine ofGuarded ?_
    dsimp only
    split
    · exact .inr rfl
    · split
      · exact .inr rfl
      · exact .inl rfl
  | _ => exact .inl rfl

/-- Argument reception and the handler of the instruction that comes of it (R152, R154). -/
theorem runFrame_reaches (hr : s.refused = none) (hc : s.ctrl = .busy c .args) :
    Reaches (afterArgs c s) (runFrame c s) := by
  have hrecv := recv_reaches (p := .args) _ rfl hr hc
  have hcases := recv_received (s.argsMissing c) s
  rw [afterByte, State.missing] at hrecv
  refine hrecv.trans ?_
  unfold runFrame
  generalize recv (s.argsMissing c) s = o at hcases
  cases hcases with
  | complete bs x q _ hn =>
    have hall : (s.taken bs x q).argsMissing c = 0 := by
      simp only [State.argsMissing, State.taken, List.length_append] at hn ⊢
      omega
    simp only [Recv.resume, afterByte, afterArgs, if_pos hall]
    cases hd : decodeFrame (c :: (s.taken bs x q).got) with
    | error err => exact .refl _
    | ok f =>
      obtain ⟨i, rest⟩ := f
      dsimp only
      rw [effect_wire (decodeFrame_isWire hd)]
      exact settle_reaches (start_placeOk i _) ((start_refused_or_idle i _).imp_left (·.trans hr))
  | timeout bs q => exact enter_reaches (s := (s.taken bs [] q).lapse) (List.cons_ne_nil _ _) hr hc
  | waiting | overflow | reset => exact .refl _

/-! ### Steps -/

theorem stepEffect_reaches (h : s.PlaceOk) (hr : s.refused = none) : Reaches s (stepEffect s) := by
  unfold stepEffect
  cases hc : s.ctrl with
  | idle =>
    have hneed : s.need = .command := by simp [State.need, hc]
    have ha := attend_inputs_reaches hr hneed
    have ht := attend_turned .command s.inputs s
    generalize attend .command s.inputs s = o at ha ht
    cases ht with
    | go r q =>
      have hcu : (s.arrive r q).ctrl = .idle := hc
      simp only [Turn.resume, advance, hcu] at ha
      dsimp only
      rcases takeCommand_ctrl hcu with hu | ⟨c, hu⟩
      · simpa only [hu] using ha
      · simp only [hu] at ha ⊢
        have hru := State.takeCommand_refused (s := s.arrive r q) hr (by simp [hu])
        exact ha.trans (runFrame_reaches hru hu)
    | timeout r q _ _ _ hneed => cases hneed
    | blocked | overflow | reset => exact ha
  | busy c p =>
    cases p with
    | args =>
      have hrun := runFrame_reaches hr hc
      rwa [show afterArgs c s = s from if_neg ((placeOk_args hc).mp h)] at hrun
    | data | events => exact settle_reaches h (.inl hr)

/-- Settles O46: a step of an unmarked machine is followed move by move, from a place where one is
left to make. -/
theorem stepIsARunOfEvents : Obligations.StepIsARunOfEvents := by
  intro s hr h
  obtain ⟨n, hn⟩ := stepEffect_reaches h hr
  exact ⟨n, by rw [step_eq_live, live_none _ hr, hn]⟩

end Sys2Proof.Machine

/-!
PROOFS for the statements of 41_dispatch_and_mode. The dispatcher: taking a command byte and its
arguments, waiting for them, and the mode guard.
-/

namespace Sys2Proof.Machine

variable {s t u : State} {c : Byte}

/-! ### RxTake with its bytes at hand (R151) -/

/-- With as many bytes queued as are to be taken, a field is complete, or a reset or an overflow ends
it. -/
theorem recv_of_length_le (n : Nat) (h : n ≤ s.rxq.length) :
    (∃ u, recv n s = .complete u) ∨ ∃ u, recv n s = .ended u := by
  induction n generalizing s with
  | zero => exact .inl ⟨s, rfl⟩
  | succ n ih =>
    have hne (r : List Byte) : s.rxq ++ r ≠ [] := fun he => by
      rw [(List.append_eq_nil_iff.mp he).1] at h
      exact Nat.not_succ_le_zero n h
    have ht := attend_turned .field s.inputs s
    rw [recv]
    generalize attend .field s.inputs s = o at ht
    cases ht with
    | go r q =>
      refine ih ?_
      obtain ⟨b, x, hx⟩ := List.exists_cons_of_ne_nil (hne r)
      have hlen : (s.rxq ++ r).length = x.length + 1 := congrArg List.length hx
      have htake : (s.arrive r q).takeByte.rxq = x := by simp [State.takeByte, State.arrive, hx]
      rw [htake]
      simp only [List.length_append] at hlen
      omega
    | timeout r _ _ _ _ _ hempty => exact absurd hempty (hne r)
    | blocked r _ _ hempty => exact absurd hempty (hne r)
    | overflow | reset => exact .inr ⟨_, rfl⟩

/-- Settles O11: such a field is complete or ended, which is neither a timeout nor waiting. -/
theorem bytesPresentNeverTimeOut : Obligations.BytesPresentNeverTimeOut := by
  intro n s t h
  rcases recv_of_length_le n h with ⟨u, hu⟩ | ⟨u, hu⟩ <;> simp [hu]

/-! ### Taking a command byte (R150, R153) -/

/-- A command the mode guard lets past opens its handler. -/
theorem takeCommand_opened {x : List Byte} (hx : s.rxq = c :: x)
    (hm : needsConnection (Command.ofByte c) = true → s.mode ≠ .disconnected) :
    s.takeCommand = s.opened c x := by
  rw [State.takeCommand_cons hx]
  split
  · rename_i hn
    exact guarded_connected (s := s.opened c x) id (hm hn)
  · rfl

/-- A command the mode guard does not let past is refused. -/
theorem takeCommand_refuse {x : List Byte} (hx : s.rxq = c :: x)
    (hn : needsConnection (Command.ofByte c) = true) (hm : s.mode = .disconnected) :
    s.takeCommand = (s.opened c x).refuse .cmdWhileDisconnected := by
  rw [State.takeCommand_cons hx, if_pos hn]
  exact guarded_disconnected (s := s.opened c x) id hm

/-- With nothing from outside, an idle machine takes the command byte at hand and goes on with its
frame. -/
theorem stepEffect_opened {x : List Byte} (hi : s.inputs = []) (hc : s.ctrl = .idle)
    (hx : s.rxq = c :: x)
    (hm : needsConnection (Command.ofByte c) = true → s.mode ≠ .disconnected) :
    stepEffect s = runFrame c (s.opened c x) := by
  rw [stepEffect, hc]
  simp only [attend_quiet_ready hi (hx ▸ List.cons_ne_nil c x), takeCommand_opened hx hm]
  rfl

theorem stepEffect_args (hc : s.ctrl = .busy c .args) : stepEffect s = runFrame c s := by
  simp only [stepEffect, hc]

theorem stepEffect_data {addr len : Word} (hc : s.ctrl = .busy c (.data addr len)) :
    stepEffect s = writeData addr len s := by
  simp only [stepEffect, hc, settle_data hc]

theorem stepEffect_events {ops : List Op} (hc : s.ctrl = .busy c (.events ops)) :
    stepEffect s = emit ops s := by
  simp only [stepEffect, hc, settle_events hc]

/-! ### A frame at hand (R150, R152) -/

/-- A frame that decodes is the command byte, the argument bytes it fixes and the rest. -/
theorem decodeFrame_args {bs rest : List Byte} {i : Instr}
    (h : decodeFrame (c :: bs) = .ok (i, rest)) :
    ∃ args, bs = args ++ rest ∧ args.length = (Command.ofByte c).argBytes
      ∧ decodeFrame (c :: args) = .ok (i, []) := by
  simp only [decodeFrame] at h ⊢
  cases hc : Command.ofByte c <;> rw [hc] at h <;> dsimp only at h ⊢
  case s | l | x | unknown =>
    cases h
    exact ⟨[], rfl, rfl, rfl⟩
  case r | w =>
    split at h <;> cases h
    exact ⟨[_, _, _, _], rfl, rfl, rfl⟩
  case e | b =>
    split at h <;> cases h
    exact ⟨[_, _], rfl, rfl, rfl⟩

/-- With nothing from outside and its bytes at hand, the arguments of a frame are taken and the
instruction is executed. -/
theorem runFrame_quiet_decoded {i : Instr} {rest : List Byte} (hi : s.inputs = [])
    (hg : s.got.length ≤ (Command.ofByte c).argBytes)
    (hd : decodeFrame (c :: (s.got ++ s.rxq)) = .ok (i, rest)) :
    runFrame c s = effect i
      { s with
        rxq := rest
        got := []
        events := s.events ++ (s.rxq.take (s.rxq.length - rest.length)).map .rx } := by
  obtain ⟨args, hbs, hlen, hargs⟩ := decodeFrame_args hd
  have hsum := congrArg List.length hbs
  simp only [List.length_append] at hsum
  have hm : s.rxq.length - rest.length = s.argsMissing c := by
    rw [State.argsMissing]
    omega
  have htake : s.got ++ s.rxq.take (s.argsMissing c) = args := by
    have h := congrArg (List.take args.length) hbs
    rwa [List.take_left, List.take_append, List.take_of_length_le (by omega), hlen] at h
  have hdrop : s.rxq.drop (s.argsMissing c) = rest := by
    have h := congrArg (List.drop args.length) hbs
    rwa [List.drop_left, List.drop_append, List.drop_of_length_le (by omega), hlen] at h
  rw [runFrame, recv_quiet_complete _ s hi (by omega), hm]
  simp only [htake, hdrop, hargs]

/-- An unmarked machine whose step comes to an instruction's effect executes that instruction. -/
theorem step_eq_exec {i : Instr} (hs : s.refused = none) (hu : u.refused = none)
    (h : stepEffect s = effect i u) : step s = exec i u := by
  rw [step_eq_live, live_none _ hs, exec_effect, live_none _ hu, h]

/-- Settles O4: a frame's bytes are taken without waiting, and what they decode to is executed. -/
theorem stepRunsDecodedFrame : Obligations.StepRunsDecodedFrame := by
  refine ⟨fun s c q i rest ⟨hr, hi⟩ hc hq hd hm => step_eq_exec hr hr ?_,
    fun s c i rest ⟨hr, hi⟩ hc hg hd => step_eq_exec hr hr ?_⟩
  · rw [hq] at hd
    obtain ⟨args, rfl, -⟩ := decodeFrame_args hd
    have hlen : (c :: (args ++ rest)).length - rest.length =
        (args ++ rest).length - rest.length + 1 := by
      simp only [List.length_cons, List.length_append]
      omega
    rw [stepEffect_opened hi hc hq hm,
      runFrame_quiet_decoded (s := s.opened c (args ++ rest)) hi (Nat.zero_le _) hd, hq, hlen]
    simp [State.opened, State.record]
  · rw [stepEffect_args hc]
    exact runFrame_quiet_decoded hi hg hd

/-! ### Waiting for the host (R150, choice (a) of R151) -/

/-- With nothing from outside and too few bytes at hand, argument reception takes them and waits. -/
theorem runFrame_quiet_waiting (hi : s.inputs = [])
    (h : s.got.length + s.rxq.length < (Command.ofByte c).argBytes) :
    runFrame c s =
      { s with got := s.got ++ s.rxq, rxq := [], events := s.events ++ s.rxq.map .rx } := by
  have hm : s.rxq.length < s.argsMissing c := Nat.lt_sub_iff_add_lt'.mpr h
  rw [runFrame, recv_quiet_waiting _ s hi hm]

/-- With nothing from outside and too few bytes at hand, data reception takes them and waits. -/
theorem writeData_quiet_waiting (addr : Word) {len : Word} (hi : s.inputs = [])
    (h : s.got.length + s.rxq.length < 2 * len.toNat) :
    writeData addr len s =
      { s with got := s.got ++ s.rxq, rxq := [], events := s.events ++ s.rxq.map .rx } := by
  have hm : s.rxq.length < s.dataMissing len := Nat.lt_sub_iff_add_lt'.mpr h
  rw [writeData, recv_quiet_waiting _ s hi hm]

/-- With nothing from outside and no byte at hand, an idle machine waits. -/
theorem stepEffect_idle_waiting (hi : s.inputs = []) (hc : s.ctrl = .idle) (hx : s.rxq = []) :
    stepEffect s = s := by
  rw [stepEffect, hc]
  simp only [attend_quiet_blocked hi hx (need := .command) (by decide)]

/-- Settles O6: waiting for a command byte, for arguments and for data are what a step comes to. -/
theorem sequencerWaitsForBytes : Obligations.SequencerWaitsForBytes := by
  have next {s t : State} (hr : s.refused = none) (h : stepEffect s = t) : step s = .next t := by
    rw [step_eq_live, live_none _ hr, h]
  refine ⟨fun s ⟨hr, hi⟩ hc hx => next hr (stepEffect_idle_waiting hi hc hx),
    fun s c q ⟨hr, hi⟩ hc hm hq hlen => next hr ?command,
    fun s c ⟨hr, hi⟩ hc hlen => next hr ?args,
    fun s c addr len ⟨hr, hi⟩ hc hlen => next hr ?data⟩
  case command =>
    rw [stepEffect_opened hi hc hq (fun _ => hm),
      runFrame_quiet_waiting (s := s.opened c q) hi (by simpa [State.opened] using hlen)]
    simp [State.opened, State.record]
  case args =>
    rw [stepEffect_args hc]
    exact runFrame_quiet_waiting hi hlen
  case data =>
    rw [stepEffect_data hc]
    exact writeData_quiet_waiting addr hi hlen

/-! ### The mode guard (R153) -/

/-- The machine is not refused by the mode guard. -/
def State.PastGuard (s : State) : Prop := s.refused ≠ some .cmdWhileDisconnected

theorem hostByte_pastGuard (b : Byte) (h : s.PastGuard) : (s.hostByte b).PastGuard := by
  unfold State.hostByte
  split
  · exact h
  · simp [State.PastGuard]

theorem emit_pastGuard (ops : List Op) (h : s.PastGuard) : (emit ops s).PastGuard :=
  emit_induct ops (fun op _ s h => by rwa [State.PastGuard, op.perform_refused]) (fun _ _ h => h)
    (fun _ b h => hostByte_pastGuard b h) (fun _ _ h => h) (fun _ h => h) s (fun _ _ h => h) h

theorem recv_pastGuard (n : Nat) (h : s.PastGuard) : (recv n s).state.PastGuard :=
  recv_induct n (fun s h => by rwa [State.PastGuard, takeByte_refused]) (fun _ h => h)
    (fun _ _ h => h) (fun _ b h => hostByte_pastGuard b h) s (fun _ _ h => h) h

theorem writeData_pastGuard (addr len : Word) (h : s.PastGuard) :
    (writeData addr len s).PastGuard := by
  have hr := recv_pastGuard (s.dataMissing len) h
  unfold writeData
  generalize recv (s.dataMissing len) s = o at hr
  cases o with
  | complete | timeout => exact emit_pastGuard _ hr
  | waiting | ended => exact hr

theorem settle_pastGuard (h : s.PastGuard) : (settle s).PastGuard := by
  unfold settle
  split
  · exact h
  · exact h
  · exact writeData_pastGuard _ _ h
  · exact emit_pastGuard _ h

/-- A handler that the guard lets past is refused for its length alone. -/
theorem start_pastGuard {i : Instr} (hm : isGuarded i = true → s.mode ≠ .disconnected)
    (h : s.PastGuard) : (start i s).PastGuard := by
  have ofGuarded {f : State → State} (hg : isGuarded i = true) (hf : (f s).PastGuard) :
      (guarded s f).PastGuard := by rwa [guarded_connected f (hm hg)]
  cases i with
  | read | eraseRow | bulkErase => exact ofGuarded rfl h
  | write addr len =>
    refine ofGuarded rfl ?_
    dsimp only
    split
    · simp [State.PastGuard]
    · split
      · simp [State.PastGuard]
      · exact h
  | _ => exact h

/-- The guard asks about the command byte as about the instruction its frame decodes to. -/
theorem decodeFrame_isGuarded {bs rest : List Byte} {i : Instr}
    (h : decodeFrame (c :: bs) = .ok (i, rest)) :
    isGuarded i = needsConnection (Command.ofByte c) := by
  simp only [decodeFrame] at h
  cases hc : Command.ofByte c <;> rw [hc] at h <;> dsimp only at h
  case s | l | x | unknown => cases h; rfl
  case r | w | e | b => split at h <;> cases h; rfl

/-- A frame whose command byte came past the guard is not refused by it, whatever the script. -/
theorem runFrame_pastGuard (hm : needsConnection (Command.ofByte c) = true → s.mode ≠ .disconnected)
    (h : s.PastGuard) : (runFrame c s).PastGuard := by
  have hr := recv_received (s.argsMissing c) s
  have hp := recv_pastGuard (s.argsMissing c) h
  unfold runFrame
  generalize recv (s.argsMissing c) s = o at hr hp
  cases hr with
  | complete bs x q =>
    dsimp only
    cases hd : decodeFrame (c :: (s.taken bs x q).got) with
    | error err => exact hp
    | ok f =>
      obtain ⟨i, rest⟩ := f
      dsimp only
      rw [effect_wire (decodeFrame_isWire hd)]
      refine settle_pastGuard (start_pastGuard (fun hg => hm ?_) hp)
      rw [← decodeFrame_isGuarded hd, hg]
  | timeout => exact emit_pastGuard _ hp
  | waiting | overflow | reset => exact hp

/-- The bytes the guard asks about are those of `r`, `w`, `e` and `b`. -/
theorem needsConnection_iff (c : Byte) :
    needsConnection (Command.ofByte c) = true ↔ c ∈ [(0x72 : Byte), 0x77, 0x65, 0x62] := by
  rcases Command.ofByte_cases c with ⟨rfl, hc⟩ | ⟨rfl, hc⟩ | ⟨rfl, hc⟩ | ⟨rfl, hc⟩ | ⟨rfl, hc⟩ |
    ⟨rfl, hc⟩ | ⟨rfl, hc⟩ | ⟨hn, hc⟩ <;> rw [hc]
  iterate 7 decide
  have hsub : [(0x72 : Byte), 0x77, 0x65, 0x62] ⊆ commandBytes := by decide
  exact iff_of_false (by decide) fun hmem => hn (hsub hmem)

/-- Settles O7: the guard falls as the command byte is taken; past it nothing raises its refusal. -/
theorem modeGuardRefuses : Obligations.ModeGuardRefuses := by
  refine ⟨fun s c q ⟨hr, hi⟩ hc hq hm hmem => ?_, fun s c q ⟨hr, hi⟩ hc hq hor => ?_⟩
  · have htake := takeCommand_refuse hq ((needsConnection_iff c).mpr hmem) hm
    rw [step_eq_live, live_none _ hr, stepEffect, hc]
    simp only [attend_quiet_ready hi (hq ▸ List.cons_ne_nil c q), htake, State.refuse_ctrl]
    simp [State.refuse, State.mark, State.opened, State.record]
  · have hm : needsConnection (Command.ofByte c) = true → s.mode ≠ .disconnected := fun hn =>
      hor.resolve_right (not_not_intro ((needsConnection_iff c).mp hn))
    refine ⟨_, by rw [step_eq_live, live_none _ hr, stepEffect_opened hi hc hq hm], ?_⟩
    exact runFrame_pastGuard (s := s.opened c q) hm (by simp [State.PastGuard, State.opened, hr])

/-! ### ICSP commands in their place (R155) -/

/-- What the end of a handler adds to a run over its event list: `CTRL <- IDLE`, where no mark was
raised. -/
theorem emit_eq_state (ops : List Op) (hr : s.refused = none) :
    emit ops s = if (runOps ops s).state.refused = none then (runOps ops s).state.toIdle
      else (runOps ops s).state := by
  have h := runOps_ran ops s
  rw [emit]
  generalize runOps ops s = o at h
  cases h with
  | done x q =>
    have hn : (s.moved ops x q).refused = none := (performAll_refused ops s).trans hr
    exact (if_pos hn).symm
  | overflow => rfl
  | reset u => exact (ite_self _).symm

/-- Settles O5: the event list left is run, and the handler is over where that raised no mark. -/
theorem stepRunsIcspCommand : Obligations.StepRunsIcspCommand := by
  intro s i c h ops hr hplace hc
  refine ⟨(runOps ops s).state, by rw [exec_effect, live_none _ hr, effect_icsp hplace], ?_⟩
  rw [step_eq_live, live_none _ hr, stepEffect_events hc, emit_eq_state ops hr]

end Sys2Proof.Machine

/-!
PROOFS for the statements of 41_dispatch_and_mode. Mode entry, exit and the unknown byte; and `MODE`
after every command.
-/

namespace Sys2Proof.Machine

variable {s t : State}

/-! ### The handlers without arguments, with nothing from outside (R160–R166) -/

/-- An instruction that enters a handler with its event list performs it and goes idle. -/
theorem exec_enter_quiet {i : Instr} {c : Byte} {ops : List Op}
    (he : effect i s = settle (s.enter c ops)) (hq : s.Quiet) :
    exec i s = .next (performAll ops (s.enter c ops)).toIdle := by
  obtain ⟨hr, hi⟩ := hq
  rw [exec_effect, live_none _ hr, he, settle_enter_quiet s c ops hi]

/-- Settles O14: the event list of EnterHV, performed. -/
theorem enterHvEffect : Obligations.EnterHvEffect := by
  refine ⟨rfl, fun s hq => ?_⟩
  rw [exec_enter_quiet rfl hq, performAll_enterHv]
  rfl

/-- The key is 'M', 'C', 'H', 'P', each most significant bit first (30_encoding R98). -/
theorem bitsMsb_lvpKeyValue :
    bitsMsb lvpKeyValue 32 = bitsMsb (0x4D : Byte) 8 ++ bitsMsb (0x43 : Byte) 8
      ++ bitsMsb (0x48 : Byte) 8 ++ bitsMsb (0x50 : Byte) 8 := by decide

/-- Settles O15: the event list of EnterLVP, performed; its 32 key bits are those of four bytes. -/
theorem enterLvpEffect : Obligations.EnterLvpEffect := by
  refine ⟨rfl, fun s hq => ?_⟩
  rw [exec_enter_quiet rfl hq, performAll_enterLvp, bitsMsb_lvpKeyValue]
  simp [State.toIdle, State.enter, Reply.byte]

/-- Settles O16: what `x` leaves of the whole record, read field by field. -/
theorem exitEffect : Obligations.ExitEffect :=
  ⟨rfl, fun s hq => ⟨_, exitLeavesResetRecord s hq, rfl, rfl, rfl, rfl, rfl, rfl, rfl⟩⟩

/-- Settles O18: the path of an unknown byte sends 'U'. -/
theorem unknownByteReplies : Obligations.UnknownByteReplies := by
  refine fun s c => ⟨rfl, fun hq => ?_⟩
  rw [exec_enter_quiet (c := c) (ops := unknownOps) rfl hq]
  rfl

/-! ### `MODE` after each command (R168) -/

/-- `r`, `w`, `e` and `b` in DISCONNECTED leave the machine refused and nothing else changed (R153). -/
theorem effect_disconnected {i : Instr} (hg : isGuarded i = true) (hm : s.mode = .disconnected) :
    effect i s = s.refuse .cmdWhileDisconnected := by
  have refused (f : State → State) : settle (guarded s f) = s.refuse .cmdWhileDisconnected := by
    rw [guarded_disconnected f hm, settle_idle (s.refuse_ctrl _)]
  cases i with
  | read | write | eraseRow | bulkErase => exact refused _
  | enterHv | enterLvp | exit | unknown | icspLoadPc | icspReadDataInc | icspLoadDataInc
  | icspLoadData | icspBeginProg | icspRowErase | icspBulkErase | lvpKey => cases hg

/-- Without a reset in the script a handler ends in the mode its moves set, unless the host overfills
the queue. -/
theorem settle_enter_mode (c : Byte) (ops : List Op) (hr : .deviceReset ∉ s.inputs) :
    (settle (s.enter c ops)).mode = (performAll ops (s.enter c ops)).mode
      ∨ (settle (s.enter c ops)).refused = some .rxOverflow := by
  have h := runOps_ran ops (s.enter c ops)
  rw [settle_enter, emit]
  generalize runOps ops (s.enter c ops) = o at h
  cases h with
  | done => exact .inl rfl
  | overflow => exact .inr rfl
  | reset u hmem => exact absurd hmem hr

/-- The instructions but `s`, `l` and `x` do not write the mode, whatever the host sends. -/
theorem effect_mode {i : Instr} (hi : .mode ∉ footprint i) (hr : .deviceReset ∉ s.inputs) :
    (effect i s).mode = s.mode := effect_within i s hr .mode hi

/-- Settles O19: `s`, `l` and `x` end in the mode their event lists set; no other instruction writes the
mode, and the guard refuses those it applies to. -/
theorem modeAfterEachCommand : Obligations.ModeAfterEachCommand := by
  intro i s t hr he
  obtain ⟨-, rfl⟩ := exec_next he
  refine ⟨?table, fun hg hm => ?guard⟩
  case guard =>
    rw [effect_disconnected hg hm]
    exact ⟨rfl, hm⟩
  case table =>
    cases i with
    | enterHv => exact settle_enter_mode _ enterHvOps hr
    | enterLvp =>
      have h := settle_enter_mode 0x6C enterLvpOps hr
      rwa [performAll_enterLvp] at h
    | exit => exact settle_enter_mode _ exitOps hr
    | read | write | eraseRow | bulkErase | unknown | icspLoadPc | icspReadDataInc
    | icspLoadDataInc | icspLoadData | icspBeginProg | icspRowErase | icspBulkErase | lvpKey =>
      exact .inl (effect_mode (by simp [footprint]) hr)

end Sys2Proof.Machine

/-!
PROOFS for the statements of 42_read. The whole effect of `r`, and the read of no words.
-/

namespace Sys2Proof.Machine

/-! ### Read (42_read R180–R186) -/

/-- The pins after a read of `len` words: the address leaves the lines low, and every word drives `DAT` at 0
again (R180). -/
theorem pins_afterRead (p : Pins) (len : Word) :
    (if len.toNat = 0 then p.shifted false else (p.shifted false).afterWord) =
      { p with
        dat := { dir := if len = 0 then p.dat.dir else .output, out := false }
        clk := { p.clk with out := false } } := by
  have hlen : len.toNat = 0 ↔ len = 0 := (BitVec.toNat_eq (y := 0#16)).symm
  by_cases h : len = 0
  · rw [if_pos (hlen.mpr h), if_pos h]
    rfl
  · rw [if_neg (mt hlen.mp h), if_neg h]
    rfl

/-- The event list of a read: the address, then the loop over its words (R180, R182). -/
theorem performAll_read (addr len : Word) (s : State) :
    performAll (readOps addr len) s =
      { s with
        pc := some (addr + len)
        pins :=
          { s.pins with
            dat := { dir := if len = 0 then s.pins.dat.dir else .output, out := false }
            clk := { s.pins.clk with out := false } }
        shiftReg := (wordsFrom s.answers s.draws len.toNat).getLastD s.shiftReg
        draws := s.draws + 16 * len.toNat
        txh := s.txh ++ bytesOfWords (wordsFrom s.answers s.draws len.toNat)
        events := s.events ++ payloadWave 0x80 addr ++ readLoopWave s.answers s.draws len.toNat } := by
  have hpc : (some addr).map (· + BitVec.ofNat 16 len.toNat) = some (addr + len) := by
    rw [BitVec.ofNat_toNat, BitVec.setWidth_eq, Option.map_some]
  rw [readOps, performAll_append, performAll_loadPc, performAll_readLoop, hpc, pins_afterRead]

/-- With nothing from outside a connected read latches its operands, performs its event list and goes
idle (R180). -/
theorem exec_read_quiet {s : State} (addr len : Word) (hq : s.Quiet) (hm : s.mode ≠ .disconnected) :
    exec (.read addr len) s =
      .next (performAll (readOps addr len)
        ((s.latchArgs addr len).enter 0x72 (readOps addr len))).toIdle := by
  obtain ⟨hr, hi⟩ := hq
  rw [exec_effect, live_none _ hr, effect, startRead, guarded_connected _ hm,
    settle_enter_quiet (s.latchArgs addr len) _ _ hi]

/-- Settles O29: the address, then `len` words, from the state with the operands latched. -/
theorem readBlockEffect : Obligations.ReadBlockEffect := by
  intro s addr len hq hm
  rw [exec_read_quiet addr len hq hm, performAll_read]
  rfl

/-- Settles O30: the effect of `r` at `len = 0`, where the loop has no events and no words. -/
theorem readOfNoWords : Obligations.ReadOfNoWords := by
  intro s addr hq hm
  refine ⟨_, _, readBlockEffect s addr 0 hq hm, ?events, rfl, clocks_payloadWave 0x80 addr,
    ?sent, ?counter, rfl⟩
  case events => exact List.append_nil _
  case sent => exact List.append_nil _
  case counter => exact congrArg some (BitVec.add_zero addr)

end Sys2Proof.Machine

/-!
PROOFS for the statements of 43_write_erase. The whole effect of `w`, its waiting and its refusals; and
the whole effect of `e` and `b`.
-/

namespace Sys2Proof.Machine

variable {s : State}

/-! ### Write block (43_write_erase R190–R196) -/

/-- A step that finds `w` in data reception goes on with its data. -/
theorem step_data {c : Byte} {addr len : Word} (hr : s.refused = none)
    (hc : s.ctrl = .busy c (.data addr len)) : step s = .next (writeData addr len s) := by
  rw [step_eq_live, live_none _ hr, stepEffect_data hc]

/-- A `w` that passes the checks goes on as a step does that finds it in data reception with no byte held
(R190). -/
theorem exec_write_accepted {addr len : Word} (hr : s.refused = none) (hm : s.mode ≠ .disconnected)
    (h0 : len ≠ 0) (hw : len.toNat ≤ s.params.wbufWords) :
    exec (.write addr len) s =
      step { s.latchArgs addr len with got := [], ctrl := .busy 0x77 (.data addr len) } := by
  rw [exec_effect, live_none _ hr, effect, startWrite_accepted hm h0 hw, settle_data rfl]
  exact Eq.symm (step_data hr rfl)

/-- The last of `len` words is loaded at `addr + len - 1`, modulo 2^16 (R195). -/
theorem add_ofNat_pred (addr : Word) {len : Word} (h0 : len ≠ 0) :
    addr + BitVec.ofNat 16 (len.toNat - 1) = addr + len - 1 := by
  bv_omega

/-- Settles O32: data reception takes the bytes at hand and performs the event list; a command just
accepted is in data reception with no byte held. -/
theorem writeBlockEffect : Obligations.WriteBlockEffect := by
  refine (and_iff_right_of_imp ?fromArguments).mpr ?inData
  case inData =>
    intro s c addr len need ⟨hr, hi⟩ hc h0 hn hd
    have hlen : (wordsOfBytes (s.got ++ s.rxq.take need)).length = len.toNat :=
      wordsOfBytes_length _ _ (by rw [List.length_append, List.length_take_of_le hd, hn])
    have hne : wordsOfBytes (s.got ++ s.rxq.take need) ≠ [] := fun e =>
      h0 (BitVec.eq_of_toNat_eq (hlen.symm.trans (congrArg List.length e)))
    have hmissing : s.dataMissing len = need := Nat.sub_eq_of_eq_add' hn.symm
    rw [step_data hr hc, writeData_quiet_complete s addr len hi hmissing hd rfl hne, hlen,
      add_ofNat_pred addr h0]
    simp only [← List.append_assoc]
    rfl
  case fromArguments =>
    intro inData s addr len ⟨hr, hi⟩ hm h0 hw hd
    rw [exec_write_accepted hr hm h0 hw]
    exact inData _ 0x77 addr len _ ⟨hr, hi⟩ rfl h0 (Nat.zero_add _) hd

/-- Settles O33: the block write at `len = 1`, where the only word is the last. -/
theorem writeOfOneWord : Obligations.WriteOfOneWord := by
  intro s addr d0 d1 q hq hm hw hx
  have htake : s.rxq.take (2 * (1 : Word).toNat) = [d0, d1] :=
    congrArg (List.take 2) hx
  obtain ⟨fromArguments, -⟩ := writeBlockEffect
  refine ⟨_, fromArguments s addr 1 hq hm (by decide) hw (by simp [hx]), ?counter, ?queue, ?events⟩
  case counter => exact congrArg some (BitVec.add_sub_cancel addr 1)
  case queue => exact congrArg (List.drop 2) hx
  case events =>
    simp only [htake]
    rfl

/-- Settles O34: data reception takes the bytes at hand and waits, with none held before. -/
theorem writeWaitsForItsData : Obligations.WriteWaitsForItsData := by
  intro s addr len ⟨hr, hi⟩ hm hw hx
  have h0 : len ≠ 0 := fun h => by simp [h] at hx
  obtain ⟨-, -, -, waits⟩ := sequencerWaitsForBytes
  rw [exec_write_accepted hr hm h0 hw]
  exact waits _ 0x77 addr len ⟨hr, hi⟩ rfl (by simpa using hx)

/-- A `w` whose start comes to a refusal answers the state refused (R190, R191). -/
theorem exec_write_refused {addr len : Word} {r : Reason} (hr : s.refused = none)
    (h : startWrite addr len s = (s.latchArgs addr len).refuse r) :
    exec (.write addr len) s = .next ((s.latchArgs addr len).refuse r) := by
  rw [exec_effect, live_none _ hr, effect, h, settle_idle (State.refuse_ctrl _ r)]

/-- Settles O35: a connected `w` latches its operands and checks their length, in the order of R228. -/
theorem writeLengthRefusals : Obligations.WriteLengthRefusals := by
  intro s addr len hr hm
  refine ⟨fun h0 => exec_write_refused (r := .writeLenZero) hr ?zero,
    fun hw h0 => exec_write_refused (r := .writeTooLong) hr ?long⟩
  case zero => rw [startWrite, guarded_connected _ hm, if_pos h0]
  case long =>
    rw [startWrite, guarded_connected _ hm, if_neg h0]
    exact if_pos hw

/-! ### Erases (R192, R194, R199) -/

/-- A connected command with one operand latches it, performs its event list and goes idle. -/
theorem exec_latchAddr_enter_quiet {i : Instr} {addr : Word} {c : Byte} {ops : List Op}
    (he : effect i s = settle (guarded s fun s => (s.latchAddr addr).enter c ops))
    (hq : s.Quiet) (hm : s.mode ≠ .disconnected) :
    exec i s = .next (performAll ops ((s.latchAddr addr).enter c ops)).toIdle := by
  obtain ⟨hr, hi⟩ := hq
  rw [exec_effect, live_none _ hr, he, guarded_connected _ hm,
    settle_enter_quiet (s.latchAddr addr) _ _ hi]

/-- Settles O36: the event list of EraseRow, performed. -/
theorem eraseRowEffect : Obligations.EraseRowEffect := by
  intro s addr hq hm
  rw [exec_latchAddr_enter_quiet rfl hq hm, performAll_eraseRow, ← List.append_assoc,
    ← List.append_assoc]
  rfl

/-- Settles O37: the event list of BulkErase, performed. -/
theorem bulkEraseBlockEffect : Obligations.BulkEraseBlockEffect := by
  intro s addr hq hm
  rw [exec_latchAddr_enter_quiet rfl hq hm, performAll_bulkEraseBlock, ← List.append_assoc,
    ← List.append_assoc]
  rfl

end Sys2Proof.Machine

/-!
PROOFS for the statements of 60_exceptions. No trap; device reset, in IDLE and in the middle of a
handler; and the two receive timeouts with their replies.
-/

namespace Sys2Proof.Machine

variable {s : State} {c : Byte} {q : List Stimulus}

/-! ### No trap (60_exceptions R220, R226) -/

/-- Settles O9: each of the three is a function of the state behind the test for a mark. -/
theorem unmarkedMachineAnswers : Obligations.UnmarkedMachineAnswers := by
  intro s hr
  refine ⟨⟨stepEffect s, ?step⟩, ⟨move s, live_none _ hr⟩, fun i => ⟨effect i s, ?exec⟩⟩
  case step => rw [step_eq_live, live_none _ hr]
  case exec => rw [exec_effect, live_none _ hr]

/-! ### Device reset (R230) -/

/-- A move before which the device is reset is the reset, wherever the machine stands. -/
theorem move_deviceReset (hi : s.inputs = .deviceReset :: q) :
    move s = { s with inputs := q }.deviceReset := by
  rw [move, hi]

/-- Settles O2: the move is the reset, which writes every field that has a reset value. -/
theorem deviceResetGivesResetValues : Obligations.DeviceResetGivesResetValues := by
  intro s q hr hi
  refine ⟨{ s with inputs := q }.deviceReset, ?_,
    rfl, rfl, rfl, rfl, rfl, rfl, rfl, rfl, rfl, hr, rfl⟩
  rw [eventStep, live_none _ hr, move_deviceReset hi]

/-- A `run` in the script lets an event that has what it needs happen. -/
theorem attend_run {need : Need} (hi : s.inputs = .run :: q) (hready : s.ready need = true) :
    attend need s.inputs s = .go (s.arrive [] q) := by
  rw [hi, attend, if_pos hready, State.arrive, List.append_nil]

/-- A reset after `k` moves ends the run over an event list; the reset empties the queue, so which bytes
are queued before it makes no difference. -/
theorem runOps_reset {ops : List Op} {k : Nat} (hk : k < ops.length)
    (hi : s.inputs = List.replicate k .run ++ .deviceReset :: q) :
    runOps ops s = .ended (s.moved (ops.take k) [] q).deviceReset := by
  induction k generalizing s ops with
  | zero =>
    obtain ⟨op, ops, rfl⟩ := List.exists_cons_of_length_pos hk
    rw [runOps, hi]
    rfl
  | succ k ih =>
    obtain ⟨op, ops, rfl⟩ := List.exists_cons_of_length_pos (Nat.zero_lt_of_lt hk)
    rw [runOps, attend_run hi rfl]
    dsimp only
    rw [ih (Nat.lt_of_succ_lt_succ hk) (Op.perform_inputs op _), State.moved_cons, List.take_succ_cons]

/-- Settles O3: the step runs the moves that are left, and the reset ends that run. -/
theorem resetAbandonsHandler : Obligations.ResetAbandonsHandler := by
  intro s c ops k q hr hc hk hi
  rw [step_eq_live, live_none _ hr, stepEffect_events hc, emit, runOps_reset hk hi]
  rfl

/-! ### Receive timeouts (R222, R223, R224) -/

/-- `s` after the reception of a field took all queued bytes, timed out and was answered by `r`. -/
def State.aborted (s : State) (r : Reply) : State :=
  { s with
    ctrl := .idle
    rxq := []
    got := []
    inputs := []
    txh := s.txh ++ [r.byte]
    events := s.events ++ s.rxq.map .rx ++ [.rxTimeout, .tx r.byte] }

/-- Taking the byte at the head of the queue, the script being at `q`. -/
theorem takeByte_arrive_nil {b : Byte} {x : List Byte} (hx : s.rxq = b :: x) :
    (s.arrive [] q).takeByte = s.taken [b] x q := by
  simp [State.takeByte, State.arrive, State.taken, State.record, hx]

/-- Fewer bytes queued than are to be taken, and a script that lets them be taken and then lets the
window lapse: RxTake times out. -/
theorem recv_timeout {n : Nat} (h : s.rxq.length < n)
    (hi : s.inputs = List.replicate s.rxq.length .run ++ .rxTimeout :: q) :
    recv n s = .timeout (s.taken s.rxq [] q).lapse := by
  induction n generalizing s with
  | zero => exact absurd h (Nat.not_lt_zero _)
  | succ n ih =>
    rw [recv]
    cases hx : s.rxq with
    | nil =>
      have hlapse : attend .field s.inputs s = .timeout { s with inputs := q } := by
        simp [hi, hx, attend, State.mayTimeOut]
      rw [hlapse]
      simp [State.lapse, State.taken, State.record, hx]
    | cons b x =>
      rw [hx] at h hi
      rw [attend_run hi (by simp [State.ready, hx])]
      dsimp only
      rw [takeByte_arrive_nil hx, ih (Nat.lt_of_succ_lt_succ h) rfl]
      rw [State.taken_taken]
      rfl

/-- Giving up a field whose window lapsed sends the reply and ends the handler (R222). -/
theorem abortWith_lapse (r : Reply) (s : State) :
    abortWith r (s.taken s.rxq [] []).lapse = s.aborted r := by
  rw [abortWith, emit_quiet _ _ rfl]
  simp [Op.perform, State.txPut, State.lapse, State.taken, State.record, State.toIdle, State.aborted]

/-- Argument reception that times out is given up with 'A' (R223). -/
theorem runFrame_timeout (h : s.got.length + s.rxq.length < (Command.ofByte c).argBytes)
    (hi : s.inputs = List.replicate s.rxq.length .run ++ [.rxTimeout]) :
    runFrame c s = s.aborted .argTimeout := by
  have hm : s.rxq.length < s.argsMissing c := Nat.lt_sub_iff_add_lt'.mpr h
  rw [runFrame, recv_timeout hm hi]
  exact abortWith_lapse _ s

/-- Data reception that times out is given up with 'D' (R224). -/
theorem writeData_timeout (addr : Word) {len : Word}
    (h : s.got.length + s.rxq.length < 2 * len.toNat)
    (hi : s.inputs = List.replicate s.rxq.length .run ++ [.rxTimeout]) :
    writeData addr len s = s.aborted .dataTimeout := by
  have hm : s.rxq.length < s.dataMissing len := Nat.lt_sub_iff_add_lt'.mpr h
  rw [writeData, recv_timeout hm hi]
  exact abortWith_lapse _ s

/-- A `run` in the script lets an idle machine take the command byte at hand and go on with its frame. -/
theorem stepEffect_run_opened {x : List Byte} (hi : s.inputs = .run :: q) (hc : s.ctrl = .idle)
    (hx : s.rxq = c :: x)
    (hm : needsConnection (Command.ofByte c) = true → s.mode ≠ .disconnected) :
    stepEffect s = runFrame c ((s.arrive [] q).opened c x) := by
  have hq : (s.arrive [] q).rxq = c :: x := (List.append_nil _).trans hx
  rw [stepEffect, hc]
  simp only [attend_run hi (need := .command) (by simp [State.ready, hx]), takeCommand_opened hq hm]
  rfl

/-- Settles O12: argument reception times out, entered with the command byte or already under way. -/
theorem argTimeoutReplies : Obligations.ArgTimeoutReplies := by
  refine ⟨fun s c x hr hc hm hx hlen hi => ?fromCommand, fun s c hr hc hlen hi => ?inArguments⟩
  case fromCommand =>
    rw [step_eq_live, live_none _ hr, stepEffect_run_opened hi hc hx fun _ => hm,
      runFrame_timeout (by simpa [State.opened] using hlen) rfl]
    simp [State.aborted, State.opened, State.arrive, State.record, Reply.byte, hc]
  case inArguments =>
    rw [step_eq_live, live_none _ hr, stepEffect_args hc, runFrame_timeout hlen hi]
    rfl

/-- Settles O13: data reception times out; a command just accepted is in data reception with no byte
held. -/
theorem dataTimeoutReplies : Obligations.DataTimeoutReplies := by
  refine (and_iff_right_of_imp ?fromArguments).mpr ?inData
  case inData =>
    intro s c addr len hr hc hlen hi
    rw [step_data hr hc, writeData_timeout addr hlen hi]
    rfl
  case fromArguments =>
    intro inData s addr len hr hm h0 hw hlen hi
    rw [exec_write_accepted hr hm h0 hw]
    exact inData _ 0x77 addr len hr rfl (by simpa using hlen) hi

end Sys2Proof.Machine

/-!
PROOFS for the statements of 70_reset_and_hazards. The least times to the reply; and a host operation in a
run that had ended well.
-/

namespace Sys2Proof.Machine

/-! ### Least times to the reply (R263) -/

/-- The sum of the holds that bound an instruction's time from below; none for the instructions without a
bound of their own. -/
def leastHolds (d : Timing) : Instr → Nat
  | .enterHv => 2 * d.tEntry
  | .enterLvp => d.tEntry + d.tLvp
  | .exit => d.tExit
  | .write _ _ => d.tErase + d.tWrite
  | .eraseRow _ | .bulkErase _ => d.tErase
  | .read _ _ | .unknown _ | .icspLoadPc _ | .icspReadDataInc | .icspLoadDataInc _ | .icspLoadData _
  | .icspBeginProg | .icspRowErase | .icspBulkErase | .lvpKey => 0

/-- The events of an instruction that completes hold at least those times. -/
theorem leastHolds_le_addedEvents (d : Timing) (s : State) (i : Instr) :
    leastHolds d i ≤ leastMicros d (addedEvents s i) := by
  have erase (op : Byte) : d.tErase ≤ leastMicros d (commandWave op .erase) :=
    leastMicros_commandWave d op .erase
  have write : d.tWrite ≤ leastMicros d (commandWave 0xE0 .write) :=
    leastMicros_commandWave d 0xE0 .write
  -- an erase in the middle of a handler's events
  have within (op : Byte) (es fs : List Event) :
      d.tErase ≤ leastMicros d (es ++ commandWave op .erase ++ fs) := by
    rw [leastMicros_append, leastMicros_append]
    exact Nat.le_add_right_of_le (Nat.le_add_left_of_le (erase op))
  cases i with
  | enterHv =>
    simp only [leastHolds, addedEvents, leastMicros, holdMicros]
    omega
  | enterLvp =>
    simp only [leastHolds, addedEvents, leastMicros_append, leastMicros, holdMicros]
    omega
  | exit => exact Nat.le_add_right _ _
  | eraseRow | bulkErase => exact within _ _ _
  | write addr len =>
    have := erase 0xF0
    simp only [leastHolds, addedEvents, leastMicros_append]
    omega
  | read | unknown | icspLoadPc | icspReadDataInc | icspLoadDataInc | icspLoadData | icspBeginProg
  | icspRowErase | icspBulkErase | lvpKey => exact Nat.zero_le _

/-- The new events of an instruction that completes take at least the sum of its holds. -/
theorem leastHolds_le_leastMicros {s t : State} {i : Instr} {es : List Event} (h : Completes i s)
    (he : exec i s = .next t) (hes : t.events = s.events ++ es) (d : Timing) :
    leastHolds d i ≤ leastMicros d es := by
  obtain ⟨-, rfl⟩ := exec_next he
  obtain rfl : addedEvents s i = es := List.append_cancel_left ((effect_events h).symm.trans hes)
  exact leastHolds_le_addedEvents d s i

/-- Settles O50: each bound is the sum of the instruction's holds, and the document's minima bound that
sum. -/
theorem leastTimesToReply : Obligations.LeastTimesToReply := by
  refine ⟨fun s t i es hq hm he hes => ?bounds, rfl, rfl, rfl, rfl, rfl⟩
  case bounds =>
    -- a bound that the document's minima put on an instruction's holds is one on its events
    have bound (hd : ∀ a n, i = .write a n →
          n ≠ 0 ∧ n.toNat ≤ s.params.wbufWords ∧ 2 * n.toNat ≤ s.rxq.length)
        {least : Nat} (hmin : s.params.timing.MeetsGiven → least ≤ leastHolds s.params.timing i) :
        leastHolds s.params.timing i ≤ leastMicros s.params.timing es
          ∧ (s.params.timing.MeetsGiven → least ≤ leastMicros s.params.timing es) :=
      have h := leastHolds_le_leastMicros ⟨hq, hm, hd⟩ he hes s.params.timing
      ⟨h, fun hg => (hmin hg).trans h⟩
    refine ⟨?hv, ?lvp, ?exit, ?erases, ?write⟩
    case hv =>
      rintro rfl
      exact bound (fun _ _ => nofun) fun ⟨entry, _⟩ => Nat.mul_le_mul_left 2 entry
    case lvp =>
      rintro rfl
      exact bound (fun _ _ => nofun) fun ⟨entry, lvp, _⟩ => Nat.add_le_add entry lvp
    case exit =>
      rintro rfl
      exact leastHolds_le_leastMicros ⟨hq, hm, fun _ _ => nofun⟩ he hes _
    case erases =>
      rintro (⟨a, rfl⟩ | ⟨a, rfl⟩) <;>
        exact bound (fun _ _ => nofun) fun ⟨_, _, _, _, erase⟩ => erase
    case write =>
      rintro a n rfl h0 hw hdata
      refine bound ?_ fun ⟨_, _, _, write, erase⟩ => Nat.add_le_add erase write
      rintro _ _ ⟨⟩
      exact ⟨h0, hw, hdata⟩

/-! ### A host operation's frame (30_encoding R104) -/

/-- The wire command that a host operation stands for. -/
def HostOp.command : HostOp → Instr
  | .connect => .enterHv
  | .disconnect => .exit
  | .writeBlock addr words => .write addr (BitVec.ofNat 16 words.length)
  | .readBlock addr len => .read addr len
  | .eraseRow addr => .eraseRow addr
  | .bulkErase addr => .bulkErase addr

/-- The bytes that a host operation sends after the command and its arguments. -/
def HostOp.dataBytes : HostOp → List Byte
  | .writeBlock _ words => bytesOfWords words
  | .connect | .disconnect | .readBlock _ _ | .eraseRow _ | .bulkErase _ => []

theorem HostOp.decodeFrame_frame (op : HostOp) :
    decodeFrame op.frame = .ok (op.command, op.dataBytes) := by
  obtain ⟨connect, disconnect, read, eraseRow, bulkErase, write⟩ := hostOperationsExpandToFrames
  cases op with
  | connect => exact connect
  | disconnect => exact disconnect
  | writeBlock addr words => exact write addr words
  | readBlock addr len => exact read addr len
  | eraseRow addr => exact eraseRow addr
  | bulkErase addr => exact bulkErase addr

/-- An idle, undisturbed machine with a frame in its queue executes the instruction the frame decodes to, with
the bytes after the frame still queued. -/
theorem step_queued_frame {s : State} {bs rest : List Byte} {i : Instr} (hq : s.Quiet)
    (hc : s.ctrl = .idle) (hd : decodeFrame bs = .ok (i, rest))
    (hm : isGuarded i = true → s.mode ≠ .disconnected) :
    ∃ c es, step { s with rxq := bs } = exec i
      { s with rxq := rest, got := [], ctrl := .busy c .args, events := es } := by
  obtain ⟨fromIdle, -⟩ := stepRunsDecodedFrame
  cases bs with
  | nil => cases hd
  | cons c x =>
    exact ⟨c, _, fromIdle { s with rxq := c :: x } c x i rest hq hc rfl hd
      (decodeFrame_isGuarded hd ▸ hm)⟩

/-! ### A host operation executed (60_exceptions R238) -/

/-- The host's duties before it sends an operation (70_reset_and_hazards R262): it is connected, unless the
operation is `connect` or `disconnect`, and a write has an accepted number of words. -/
structure HostOp.Permitted (op : HostOp) (s : State) : Prop where
  connected : op = .connect ∨ op = .disconnect ∨ s.mode ≠ .disconnected
  words : ∀ a ws, op = .writeBlock a ws →
    ws ≠ [] ∧ ws.length ≤ s.params.wbufWords ∧ ws.length < 65536

theorem HostOp.Permitted.guard {op : HostOp} {s : State} (h : op.Permitted s)
    (hg : isGuarded op.command = true) : s.mode ≠ .disconnected := by
  rcases h.connected with rfl | rfl | hm
  · cases hg
  · cases hg
  · exact hm

/-- `t` is idle with nothing queued and nothing to come, has sent `reply` after `txh`, and `reply` is what the
host awaits of the operation and accepts. -/
structure HostOp.Served (op : HostOp) (txh : List Byte) (t : State) (reply : List Byte) : Prop where
  quiet : t.Quiet
  idle : t.ctrl = .idle
  queue : t.rxq = []
  sent : t.txh = txh ++ reply
  accepted : ∃ ws, op.verdict reply = .success ws
  awaited : reply.length = op.replyBytes

/-- The host accepts the bytes of as many words as it asked to read. -/
theorem verdict_readBlock {len : Word} {ws : List Word} (addr : Word) (h : ws.length = len.toNat) :
    (HostOp.readBlock addr len).verdict (bytesOfWords ws) = .success ws := by
  have hlen : (bytesOfWords ws).length = 2 * len.toNat := by rw [bytesOfWords_length, h]
  have hread : transportRead (2 * len.toNat) (bytesOfWords ws) = .complete (bytesOfWords ws) := by
    rw [transportRead, if_pos hlen.ge, ← hlen, List.take_length]
  simp [HostOp.verdict, HostOp.replyBytes, hread]

/-- An operation's command, executed with its data bytes queued, serves the operation. -/
theorem exec_command_served {op : HostOp} {u : State} (hq : u.Quiet) (hx : u.rxq = op.dataBytes)
    (hp : op.Permitted u) : ∃ t reply, exec op.command u = .next t ∧ op.Served u.txh t reply := by
  have hm := hp.guard
  cases op with
  | connect =>
    exact ⟨_, [0x4B], enterHvEffect.2 u hq, hq, rfl, hx, rfl, ⟨[], rfl⟩, rfl⟩
  | disconnect =>
    have hempty : (if u.params.xDiscardsRx then [] else u.rxq) = [] := by
      rw [hx]
      exact ite_self _
    exact ⟨_, [], exitLeavesResetRecord u hq, hq, rfl, hempty, (List.append_nil _).symm, ⟨[], rfl⟩, rfl⟩
  | writeBlock addr ws =>
    obtain ⟨hne, hfits, hlt⟩ := hp.words addr ws rfl
    have hlen : (BitVec.ofNat 16 ws.length).toNat = ws.length := Nat.mod_eq_of_lt hlt
    have hpos : ws.length ≠ 0 := fun h => hne (List.eq_nil_of_length_eq_zero h)
    have hbytes : u.rxq.length = 2 * (BitVec.ofNat 16 ws.length).toNat := by
      rw [hx, hlen]
      exact bytesOfWords_length ws
    have h0 : BitVec.ofNat 16 ws.length ≠ 0 := fun h => hpos (hlen.symm.trans (congrArg BitVec.toNat h))
    exact ⟨_, [0x4B], writeBlockEffect.1 u addr _ hq (hm rfl) h0 (hlen.trans_le hfits) hbytes.ge,
      hq, rfl, List.drop_eq_nil_of_le hbytes.le, rfl, ⟨[], rfl⟩, rfl⟩
  | readBlock addr len =>
    have hlen := wordsFrom_length u.answers u.draws len.toNat
    exact ⟨_, _, readBlockEffect u addr len hq (hm rfl), hq, rfl, hx, rfl,
      ⟨_, verdict_readBlock addr hlen⟩, (bytesOfWords_length _).trans (congrArg (2 * ·) hlen)⟩
  | eraseRow addr =>
    exact ⟨_, [0x4B], eraseRowEffect u addr hq (hm rfl), hq, rfl, hx, rfl, ⟨[], rfl⟩, rfl⟩
  | bulkErase addr =>
    exact ⟨_, [0x4B], bulkEraseBlockEffect u addr hq (hm rfl), hq, rfl, hx, rfl, ⟨[], rfl⟩, rfl⟩

/-! ### The end of a run (R264) -/

/-- A host that has read all of `txh`, and then one more frame's awaited reply, has finished its script. -/
theorem HostRun.Finished.exchange {h : HostRun} {f : HostFrame} {txh reply : List Byte}
    (hf : h.Finished txh) (hread : h.read = txh) (hlen : reply.length = f.replyBytes) :
    (h.exchange f reply).Finished (txh ++ reply) := by
  obtain ⟨hsent, -, hexpected⟩ := hf
  refine ⟨?sent, ?read, ?expected⟩
  case sent => simp [HostRun.exchange, HostRun.scriptBytes, hsent]
  case read => simp [HostRun.exchange, hread]
  case expected =>
    simp only [HostRun.expected] at hexpected
    simp [HostRun.exchange, HostRun.expected, hexpected, hlen]

/-- An operation served leaves a run that ends well, the host one frame and its reply further. -/
theorem HostOp.Served.endsWell {op : HostOp} {h : HostRun} {txh reply : List Byte} {t : State}
    (hs : op.Served txh t reply) (hf : h.Finished txh) (hread : h.read = txh) :
    t.EndsWell (h.exchange op.hostFrame reply) := by
  obtain ⟨hrefused, hinputs⟩ := hs.quiet
  refine ⟨hs.idle, hs.queue, hrefused, ?script, ?finished⟩
  case script => rw [hinputs]; rfl
  case finished => rw [hs.sent]; exact hf.exchange hread hs.awaited

/-- Settles O60: the frame's command is executed and serves the operation. -/
theorem hostOperationsEndWell : Obligations.HostOperationsEndWell := by
  rintro s h op ⟨hidle, -, hrefused, -, hfinished⟩ hread hinputs hconn hwords
  have hp : op.Permitted s := ⟨hconn, hwords⟩
  obtain ⟨c, es, hstep⟩ :=
    step_queued_frame ⟨hrefused, hinputs⟩ hidle op.decodeFrame_frame hp.guard
  obtain ⟨t, reply, hexec, hserved⟩ := exec_command_served
    (u := { s with rxq := op.dataBytes, got := [], ctrl := .busy c .args, events := es })
    ⟨hrefused, hinputs⟩ rfl ⟨hconn, hwords⟩
  obtain ⟨ws, hok⟩ := hserved.accepted
  exact ⟨t, reply, ws, hstep.trans hexec, hserved.sent, hok, hserved.endsWell hfinished hread⟩

end Sys2Proof.Machine
